-- ==== Sys2Proof/Word.lean ====
section
/-! DEFINITION. The word types of CORE (spec/00_scope.md R8, R10). -/

namespace Sys2Proof

/-- A byte of `MEM`, of a `store`, or a symbol: 8 bits, bit 0 least significant (R8). -/
abbrev Byte := BitVec 8

/-- An operand word, an address of `MEM`, or a result word: 32 bits, unsigned (R10, R82). -/
abbrev Word := BitVec 32

end Sys2Proof
end

