-- ==== Sys2Proof/Syntax.lean ====
section
/-! DEFINITION. What a port presents (a request of five words) and the six commands it may name
(spec/30_encoding.md). -/

namespace Sys2Proof

/-- The channel bit `cmd[8]`: 0 outbound, 1 inbound (R81). -/
inductive Channel where
  | outbound
  | inbound
  deriving DecidableEq, Repr

/-- One request: the command word and four operand words, always all present (R80). -/
structure Request where
  cmd : Word
  op0 : Word
  op1 : Word
  op2 : Word
  op3 : Word
  deriving DecidableEq, Repr

/-- The six commands, one constructor per row of `spec/opcode_table.json`, with the operands R85 gives
them; the operand words R85 calls ignored are not part of a command (R86). -/
inductive Instr where
  /-- `ENQ ch, src, k` (R101) -/
  | enq (ch : Channel) (src k : Word)
  /-- `DEQ ch, dst, k` (R102) -/
  | deq (ch : Channel) (dst k : Word)
  /-- `LEN ch` (R103) -/
  | len (ch : Channel)
  /-- `CAP ch` (R104) -/
  | cap (ch : Channel)
  /-- `ENC msg, mlen, out, cap` (R131) -/
  | enc (msg mlen out cap : Word)
  /-- `DEC enc, count, out` (R136) -/
  | dec (encoded count out : Word)
  deriving DecidableEq, Repr

end Sys2Proof
end

