-- ==== Sys2Proof/WellFormed.lean ====
section
/-! DEFINITION. The three checks R87 makes on a command word. A term of `Instr` needs no check of its
own: its channel is one of two constructors and its operands are 32-bit words, every value of which R82
and R86 allow. -/

namespace Sys2Proof

/-- `cmd[7:0]` is one of the six opcodes of R84. -/
def Request.opcodeKnown (q : Request) : Bool :=
  [0x01, 0x02, 0x03, 0x04, 0x08, 0x09].contains (q.cmd.toNat % 256)

/-- `cmd[31:9]` is zero (R81). -/
def Request.reservedZero (q : Request) : Bool :=
  q.cmd.toNat / 512 == 0

/-- `cmd[8]` is zero when the opcode is `ENC` or `DEC` (R81). -/
def Request.codecChannelZero (q : Request) : Bool :=
  q.cmd.toNat % 256 < 8 || q.cmd.toNat / 256 % 2 == 0

/-- A request is legal when none of R87's three conditions for an illegal one holds. -/
def Request.wellFormed (q : Request) : Bool :=
  q.opcodeKnown && q.reservedZero && q.codecChannelZero

end Sys2Proof
end

