-- ==== Sys2Proof/Decode.lean ====
section
/-! DEFINITION. The decoder and the encoder of a request (spec/30_encoding.md R80 to R88), and the opcode
map as data. -/

namespace Sys2Proof

/-- Why a request is illegal: the three conditions of R87. -/
inductive Reject where
  /-- `cmd[7:0]` is not one of the six opcodes. -/
  | reservedOpcode
  /-- `cmd[31:9]` is not zero. -/
  | reservedBits
  /-- `cmd[8]` is 1 on `ENC` or `DEC`. -/
  | codecChannel
  deriving DecidableEq, Repr

/-- `cmd[7:0]` (R81). -/
def Request.opcode (q : Request) : BitVec 8 := q.cmd.extractLsb' 0 8

/-- `cmd[31:9]` (R81). -/
def Request.reserved (q : Request) : BitVec 23 := q.cmd.extractLsb' 9 23

/-- The channel `cmd[8]` names (R81). -/
def Request.channel (q : Request) : Channel :=
  if q.cmd.getLsbD 8 then .inbound else .outbound

/-- Decoding is total and needs no state (R88): an illegal request is rejected by R87's name for it, and a
legal one is the row of R84 its opcode selects, with the operands of R85. -/
def decode (q : Request) : Except Reject Instr :=
  if q.reserved ≠ 0 then .error .reservedBits
  else if q.opcode = 0x01 then .ok (.enq q.channel q.op0 q.op1)
  else if q.opcode = 0x02 then .ok (.deq q.channel q.op0 q.op1)
  else if q.opcode = 0x03 then .ok (.len q.channel)
  else if q.opcode = 0x04 then .ok (.cap q.channel)
  else if q.opcode = 0x08 then
    if q.channel = .inbound then .error .codecChannel else .ok (.enc q.op0 q.op1 q.op2 q.op3)
  else if q.opcode = 0x09 then
    if q.channel = .inbound then .error .codecChannel else .ok (.dec q.op0 q.op1 q.op2)
  else .error .reservedOpcode

/-- `ch << 8`, the channel's part of a command word (R81). -/
def Channel.bits : Channel → Word
  | .outbound => 0x000
  | .inbound  => 0x100

/-- The command word of a command: one of the ten of R84. -/
def Instr.cmdWord : Instr → Word
  | .enq ch _ _   => 0x00000001 ||| ch.bits
  | .deq ch _ _   => 0x00000002 ||| ch.bits
  | .len ch       => 0x00000003 ||| ch.bits
  | .cap ch       => 0x00000004 ||| ch.bits
  | .enc _ _ _ _  => 0x00000008
  | .dec _ _ _    => 0x00000009

/-- The request that carries a command; ignored operand words are encoded as 0 (R85, R90). -/
def encode : Instr → Request
  | .enq ch src k => ⟨(Instr.enq ch src k).cmdWord, src, k, 0, 0⟩
  | .deq ch dst k => ⟨(Instr.deq ch dst k).cmdWord, dst, k, 0, 0⟩
  | .len ch => ⟨(Instr.len ch).cmdWord, 0, 0, 0, 0⟩
  | .cap ch => ⟨(Instr.cap ch).cmdWord, 0, 0, 0, 0⟩
  | .enc msg mlen out cap => ⟨(Instr.enc msg mlen out cap).cmdWord, msg, mlen, out, cap⟩
  | .dec encoded count out => ⟨(Instr.dec encoded count out).cmdWord, encoded, count, out, 0⟩

/-- A row of the opcode table: a request matches when `cmd & mask == match` (R88). -/
structure OpcodeRow where
  mnemonic : String
  pattern  : Word
  mask     : Word
  deriving DecidableEq, Repr

/-- The six rows of `spec/opcode_table.json`. -/
def opcodeTable : List OpcodeRow :=
  [⟨"ENQ", 0x00000001, 0xFFFFFEFF⟩, ⟨"DEQ", 0x00000002, 0xFFFFFEFF⟩,
   ⟨"LEN", 0x00000003, 0xFFFFFEFF⟩, ⟨"CAP", 0x00000004, 0xFFFFFEFF⟩,
   ⟨"ENC", 0x00000008, 0xFFFFFFFF⟩, ⟨"DEC", 0x00000009, 0xFFFFFFFF⟩]

/-- `cmd & mask == match` (R88). -/
def OpcodeRow.covers (row : OpcodeRow) (cmd : Word) : Bool := cmd &&& row.mask == row.pattern

/-- A command's mnemonic in the table. -/
def Instr.mnemonic : Instr → String
  | .enq _ _ _   => "ENQ"
  | .deq _ _ _   => "DEQ"
  | .len _       => "LEN"
  | .cap _       => "CAP"
  | .enc _ _ _ _ => "ENC"
  | .dec _ _ _   => "DEC"

/-- The request whose words are the 32-bit pieces of `w`, `cmd` lowest: bit 0 of `w` is bit 0 of `cmd`, bit
32 is bit 0 of `op0` (R80). Bits of `w` at and above `nbits` count as 0. -/
def Request.ofBits (nbits w : Nat) : Request :=
  let v := w % 2 ^ nbits
  ⟨BitVec.ofNat 32 v, BitVec.ofNat 32 (v / 2 ^ 32), BitVec.ofNat 32 (v / 2 ^ 64),
   BitVec.ofNat 32 (v / 2 ^ 96), BitVec.ofNat 32 (v / 2 ^ 128)⟩

/-- The command the decoder reads from a request whose bits are `w`; none where it rejects. -/
def decodeTableWord (nbits w : Nat) : Option Instr :=
  match decode (Request.ofBits nbits w) with
  | .ok i    => some i
  | .error _ => none

end Sys2Proof
end

