-- ==== Sys2Proof/Config.lean ====
section
/-! DEFINITION. The parameters of CORE (R6, R41) as plain data, and the free values: constants with no
body, of which nothing can be proved (spec/93_implementation_defined.md part 1). -/

namespace Sys2Proof

/-- An entry of the code table (R33). `len = 0` marks an absent symbol. The lengths 33..63 that a 6-bit
field could hold never occur (R33, U12), so the type has none. -/
structure CodeEntry where
  code : Word
  len  : Fin 33
  deriving DecidableEq, Repr

/-- The code table as a mapping keyed by symbol byte: the symbols listed are the present ones, in rising
order; every other symbol is absent (R32). DESIGN CHOICE (notes/assumptions/17.md): safe. -/
abbrev CodeTable := List (Byte × CodeEntry)

/-- A run of addresses `base, …, base + size - 1` that the platform does not back: `MEM_VALID` is false
there (R54). -/
structure Hole where
  base : Nat
  size : Nat
  deriving DecidableEq, Repr

/-- The parameters a model is a function of: `K` with `C = 2^K` and `0 <= K <= 31`, `TABLE`, and
`MEM_VALID` by the addresses where it is false (R6). -/
structure Params where
  k     : Fin 32
  table : CodeTable
  holes : List Hole
  deriving DecidableEq, Repr

/-- The fixture table TABLE_EX (D38): `A = 01`, `B = 1`, `C = 000`, `D = 001`. -/
def Config.tableEx : CodeTable :=
  [(0x41, ⟨1, 2⟩), (0x42, ⟨1, 1⟩), (0x43, ⟨0, 3⟩), (0x44, ⟨1, 3⟩)]

/-- The parameters `State.reset` takes: the spec's defaults `C = 256` and every address backed (R6), and
for `TABLE`, which has no default (R7), the fixture TABLE_EX.
DESIGN CHOICE (notes/assumptions/2.md): unsafe where a claim rests on this table. -/
def Config.defaults : Params := ⟨8, Config.tableEx, []⟩

/-- The free bytes: the n-th byte an unspecified result leaves behind (U1, U2, U6).
DESIGN CHOICE (notes/assumptions/5.md): safe, no body. -/
opaque Config.freeByte : Nat → Byte

/-- The open order: whether the foreground's port goes first when both ports could go (R65, U10).
DESIGN CHOICE (notes/assumptions/6.md): safe, no body. -/
opaque Config.foregroundFirst : Nat → Bool

/-- Which pending request, if any, `rst` catches in execution: 0 none, 1 the foreground's, anything else
the interrupt handler's (R201, U6). DESIGN CHOICE (notes/assumptions/13.md): safe, no body. -/
opaque Config.caughtByReset : Nat → Nat

end Sys2Proof
end

