-- ==== Sys2Proof/Machine/State.lean ====
section
/-! DEFINITION. The state of CORE, of its two ports and of the memory they share, as plain data
(spec/10_state.md, spec/60_exceptions.md R178), the reasons a step can stop, and the state after reset. -/

namespace Sys2Proof.Machine

/-- A byte memory: the bytes that are not 0, by strictly rising address. An address not listed reads 0. -/
abbrev Mem := List Host.Cell

/-- The fullness flag of a ring buffer: EMPTY, PARTIAL, FULL (R21); the fourth 2-bit value never occurs (R25). -/
inductive Fullness where
  | empty
  | part
  | full
  deriving DecidableEq, Repr

/-- One ring buffer instance (R21). `store` holds the slots `0 .. C-1`; `w`, `r` and `n` are numbers with the
ranges R21 gives, kept by the invariant of `Sys2Proof/Safety.lean`. -/
structure RingBuffer where
  store : Mem
  w     : Nat
  r     : Nat
  n     : Nat
  state : Fullness
  deriving DecidableEq, Repr

/-- The status of a response (R170); the codes 5 to 15 are never produced and have no constructor (U12). -/
inductive Status where
  | ok
  | invalidArgument
  | overflow
  | unknownSymbol
  | illegalCommand
  deriving DecidableEq, Repr

/-- One response: status and result word (R83). -/
structure Response where
  status : Status
  result : Word
  deriving DecidableEq, Repr

/-- The two request ports, one per agent (R178). -/
inductive PortId where
  /-- port `F`, the foreground loop -/
  | foreground
  /-- port `I`, the interrupt handler -/
  | interrupt
  deriving DecidableEq, Repr

/-- What an agent does by itself: present a request on its port (R178), or access `MEM` directly (R67). -/
inductive AgentAct where
  | present (q : Request)
  | store (a : Word) (b : Byte)
  | load (a : Word)
  deriving DecidableEq, Repr

/-- One port and the agent behind it: the request presented and not yet accepted, the responses delivered
(oldest first), what the agent will do next, and the byte its last own load returned (R38, R67, R83, R178). -/
structure Port where
  pending   : Option Request
  responses : List Response
  todo      : List AgentAct
  seen      : Option Byte
  deriving DecidableEq, Repr

/-- Why a step stops with a fault. The spec has no such case: every error is a status in a response (R170,
R175), so the type has no constructor. -/
inductive Fault where
  deriving DecidableEq, Repr

/-- Why a step has no meaning. Each is a run to which the spec itself gives none. -/
inductive Refusal where
  /-- A command rejected by name because the model gives it no meaning; no arm raises it. Safe. -/
  | notModelled (mnemonic : String)
  /-- Raised by `ENQ`, `DEQ`, `ENC`, `DEC` and by an agent's own access at an address with `MEM_VALID` false
  (R54, U3). Safe: the run stops. -/
  | unbackedAddress
  /-- Raised by `ENC` and `DEC` when the buffers of the one command overlap (R145, U5). Safe. -/
  | overlappingBuffers
  /-- Raised by `ENC` and `DEC` when `TABLE` is not well formed (U7). Safe. -/
  | illFormedTable
  /-- Raised by the acceptance of a request while the other port has one outstanding and their buffers overlap
  other than read with read (R210, U4). Safe. -/
  | conflictingRequests
  /-- Raised by an agent that writes a buffer of the other port's outstanding request or reads its destination
  (R67, R210, U4). Safe. -/
  | agentTouchesBuffer
  deriving DecidableEq, Repr

/-- The whole machine. `params` are the parameters (R6, R41), carried here because a step takes nothing else;
no step changes them. `serving` is the port whose request is, or was last, in execution. `draws` counts the
free values used. -/
structure State where
  params   : Params
  outbound : RingBuffer
  inbound  : RingBuffer
  mem      : Mem
  portF    : Port
  portI    : Port
  rst      : Bool
  serving  : PortId
  draws    : Nat
  deriving DecidableEq, Repr

/-- A ring buffer after reset (R40). The slots' values are unspecified and unobservable there; the model lists
none, so each reads 0. DESIGN CHOICE (notes/assumptions/4.md). -/
def RingBuffer.reset : RingBuffer := ⟨[], 0, 0, 0, .empty⟩

/-- A port after reset: no request in execution, no response owed (R40), and an agent with nothing to do. -/
def Port.reset : Port := ⟨none, [], [], none⟩

/-- The machine right after reset, for any parameters (R40). -/
def State.resetWith (p : Params) : State :=
  ⟨p, RingBuffer.reset, RingBuffer.reset, [], Port.reset, Port.reset, false, .foreground, 0⟩

/-- The machine right after reset, at the default parameters. -/
def State.reset : State := State.resetWith Config.defaults

end Sys2Proof.Machine
end

