-- ==== Sys2Proof/Machine/Flags.lean ====
section
/-! DEFINITION. The fullness flag: how one transferred byte sets it (R108), its encoding (R25), the four level
outputs (R26), and the encoding of a status (R170). -/

namespace Sys2Proof.Machine

/-- The flag after `ENQ` stored a byte and advanced `w`: FULL when `w` caught up with `r`, else PARTIAL (R108). -/
def flagAfterEnq (w r : Nat) : Fullness := if w = r then .full else .part

/-- The flag after `DEQ` took a byte and advanced `r`: EMPTY when `r` caught up with `w`, else PARTIAL (R108). -/
def flagAfterDeq (w r : Nat) : Fullness := if w = r then .empty else .part

/-- EMPTY = 0, PARTIAL = 1, FULL = 2 (R25). -/
def Fullness.code : Fullness → BitVec 2
  | .empty => 0
  | .part  => 1
  | .full  => 2

/-- The output `empty[ch]` of a channel (R26). -/
def RingBuffer.emptyOut (b : RingBuffer) : Bool := b.state == .empty

/-- The output `full[ch]` of a channel (R26). -/
def RingBuffer.fullOut (b : RingBuffer) : Bool := b.state == .full

/-- The 4-bit status codes (R170). -/
def Status.code : Status → BitVec 4
  | .ok              => 0
  | .invalidArgument => 1
  | .overflow        => 2
  | .unknownSymbol   => 3
  | .illegalCommand  => 4

end Sys2Proof.Machine
end

