-- ==== Sys2Proof/Machine/Operands.lean ====
section
/-! DEFINITION. Operand forms: a pointer and a byte index (R52), a pointer compared with `NULL` (R53), and the
run of bytes a buffer operand names, with the overlap of two such runs (R145, R210). -/

namespace Sys2Proof.Machine

/-- `p +32 i`, the address of byte `i` of a buffer at `p`, modulo `2^32` (R52). -/
def addr (p : Word) (i : Nat) : Word := p + BitVec.ofNat 32 i

/-- The pointer value `NULL` (R53). -/
def null : Word := 0

/-- A buffer operand: `size` bytes at `base, base +32 1, …` (R51). -/
structure Span where
  base : Word
  size : Nat
  deriving DecidableEq, Repr

/-- How far address `a` lies above `base`, going up and wrapping (R52). -/
def Span.offset (b : Span) (a : Word) : Nat := (a - b.base).toNat

/-- Address `a` is one of the span's bytes. -/
def Span.holds (b : Span) (a : Word) : Bool := b.offset a < b.size

/-- The two spans have a byte in common: both are non-empty and one of them holds the other's first byte. -/
def Span.overlaps (a b : Span) : Bool :=
  a.size != 0 && b.size != 0 && (a.holds b.base || b.holds a.base)

/-- The run of bytes is empty, so it names no byte at all. -/
def Span.none : Span := ⟨0, 0⟩

end Sys2Proof.Machine
end

