-- ==== Sys2Proof/Machine/Ops.lean ====
section
/-! DEFINITION. The named operations over memory, ring buffers, ports and responses. A command's error is
taken by `State.raise` (R9, R175); nothing returns from one (R176). -/

namespace Sys2Proof.Machine

/-! ### Byte memory -/

/-- What an unlisted address reads as. The spec gives no contents at power-on.
DESIGN CHOICE (notes/assumptions/3.md): unsafe. -/
def Mem.blank : Byte := 0

/-- The byte at an address: the one last written there (R51, R61). -/
def Mem.read : Mem → Nat → Byte
  | [], _ => Mem.blank
  | (b, x) :: m, a => if a = b then x else Mem.read m a

/-- Put a cell in its place by rising address. -/
def Mem.insert : Mem → Nat → Byte → Mem
  | [], a, v => [(a, v)]
  | (b, x) :: m, a, v => if a < b then (a, v) :: (b, x) :: m else (b, x) :: Mem.insert m a v

/-- Drop every cell of an address. -/
def Mem.erase : Mem → Nat → Mem
  | [], _ => []
  | (b, x) :: m, a => if a = b then Mem.erase m a else (b, x) :: Mem.erase m a

/-- Replace the byte at an address (R51); a blank byte is not listed. -/
def Mem.write (m : Mem) (a : Nat) (v : Byte) : Mem :=
  if v = Mem.blank then Mem.erase m a else Mem.insert (Mem.erase m a) a v

/-- The canonical form: addresses strictly rising, no blank byte listed. -/
def Mem.wf : Mem → Bool
  | [] => true
  | [(_, x)] => x != Mem.blank
  | (a, x) :: (b, y) :: m => x != Mem.blank && decide (a < b) && Mem.wf ((b, y) :: m)

/-- Every listed address is below `bound`. -/
def Mem.below (m : Mem) (bound : Nat) : Bool := m.all fun c => decide (c.1 < bound)

/-! ### Caller memory -/

/-- `MEM_VALID(a)`: no hole holds the address (R54). -/
def memValid (p : Params) (a : Word) : Bool :=
  p.holes.all fun h => !(decide (h.base ≤ a.toNat) && decide (a.toNat < h.base + h.size))

/-- `MemRead(a, 1)` (R9, R51); no meaning at an unbacked address (R54). -/
def memRead (p : Params) (m : Mem) (a : Word) : Except Refusal Byte :=
  if memValid p a then .ok (Mem.read m a.toNat) else .error .unbackedAddress

/-- `MemWrite(a, 1, v)` (R9, R51); no meaning at an unbacked address (R54). -/
def memWrite (p : Params) (m : Mem) (a : Word) (v : Byte) : Except Refusal Mem :=
  if memValid p a then .ok (Mem.write m a.toNat v) else .error .unbackedAddress

/-- Write a list of bytes at `base +32 i, base +32 (i+1), …`, in increasing address order. -/
def memWriteList (p : Params) (base : Word) : Nat → List Byte → Mem → Except Refusal Mem
  | _, [], m => .ok m
  | i, v :: vs, m =>
    match memWrite p m (addr base i) v with
    | .error e => .error e
    | .ok m' => memWriteList p base (i + 1) vs m'

/-- Give each of the first `size` bytes at `base` that the platform backs a free value (U1, U2, U6): byte `i`
takes draw `draw + i`. -/
def freeFill (p : Params) (base : Word) (draw : Nat) : Nat → Mem → Mem
  | 0, m => m
  | size + 1, m =>
    let m' := freeFill p base draw size m
    if memValid p (addr base size) then
      Mem.write m' (addr base size).toNat (Config.freeByte (draw + size))
    else m'

/-! ### Ring buffers -/

/-- The capacity `C = 2^K` (R6). -/
def capacity (p : Params) : Nat := 2 ^ p.k.val

/-- Advance a cursor by one slot: `(cursor + 1) & (C - 1)`, that is `(cursor + 1) mod C` (R55, R105). -/
def advance (p : Params) (cursor : Nat) : Nat := (cursor + 1) &&& (capacity p - 1)

/-- `ENQ`'s transfer of one byte: store at `w`, advance `w`, count it, set the flag (R101, R108). -/
def RingBuffer.push (p : Params) (b : RingBuffer) (v : Byte) : RingBuffer :=
  let w := advance p b.w
  { b with store := Mem.write b.store b.w v, w := w, n := b.n + 1, state := flagAfterEnq w b.r }

/-- The oldest byte, `store[r]` (R102). -/
def RingBuffer.front (b : RingBuffer) : Byte := Mem.read b.store b.r

/-- `DEQ`'s removal of one byte: advance `r`, count it, set the flag; `store` is not written (R29, R102, R108). -/
def RingBuffer.pop (p : Params) (b : RingBuffer) : RingBuffer :=
  let r := advance p b.r
  { b with r := r, n := b.n - 1, state := flagAfterDeq b.w r }

/-! ### Accessors -/

/-- `RB[ch]` (R20, R100). -/
def State.rb (s : State) : Channel → RingBuffer
  | .outbound => s.outbound
  | .inbound  => s.inbound

/-- `RB[ch] <- b` (R9). -/
def State.setRb (s : State) (ch : Channel) (b : RingBuffer) : State :=
  match ch with
  | .outbound => { s with outbound := b }
  | .inbound  => { s with inbound := b }

/-- A port (R178). -/
def State.port (s : State) : PortId → Port
  | .foreground => s.portF
  | .interrupt  => s.portI

/-- Replace a port. -/
def State.setPort (s : State) (p : PortId) (x : Port) : State :=
  match p with
  | .foreground => { s with portF := x }
  | .interrupt  => { s with portI := x }

/-- Replace `MEM`. -/
def State.setMem (s : State) (m : Mem) : State := { s with mem := m }

/-- The other port. -/
def PortId.other : PortId → PortId
  | .foreground => .interrupt
  | .interrupt  => .foreground

/-! ### Responses -/

/-- Deliver one response on a port, after the ones delivered before it (R83). -/
def Port.deliver (x : Port) (r : Response) : Port := { x with responses := x.responses ++ [r] }

/-- `respond(status, result)`: end the command by one response on the port its request came from (R9, R83). -/
def State.respond (s : State) (st : Status) (result : Word) : State :=
  s.setPort s.serving ((s.port s.serving).deliver ⟨st, result⟩)

/-- `raise <Name>`: a response with that status and result 0, and nothing else; no state is saved, no mode
changes, control goes nowhere (R9, R83, R173, R175). -/
def State.raise (s : State) (st : Status) : State := s.respond st 0

/-- Leave free values in the first `size` bytes at `base` and count them as used (U1, U2, U6). -/
def State.freeBytes (s : State) (base : Word) (size : Nat) : State :=
  { s with mem := freeFill s.params base s.draws size s.mem, draws := s.draws + size }

end Sys2Proof.Machine
end

