-- ==== Sys2Proof/Machine/Table.lean ====
section
/-! DEFINITION. The code table: lookup by symbol and by codeword, `Lmax`, and well-formedness
(spec/10_state.md R32 to R35). -/

namespace Sys2Proof.Machine

/-- The entry of an absent symbol: no length, code 0 (R33). -/
def absentEntry : CodeEntry := ⟨0, 0⟩

/-- `TABLE[s]`, defined for every symbol byte (R32). -/
def tableEntry : CodeTable → Byte → CodeEntry
  | [], _ => absentEntry
  | (t, e) :: rest, s => if s = t then e else tableEntry rest s

/-- A symbol is present when its entry has a length (R33). -/
def isPresent (t : CodeTable) (s : Byte) : Bool := (tableEntry t s).len.val != 0

/-- The present symbol whose entry is the accumulated pair `(acc, l)`, if there is one (R56, R136). -/
def tableMatch : CodeTable → Word → Nat → Option Byte
  | [], _, _ => none
  | (t, e) :: rest, acc, l =>
    if e.len.val ≠ 0 ∧ e.len.val = l ∧ e.code = acc then some t else tableMatch rest acc l

/-- `Lmax`, the largest length in the table (R6, R33). -/
def lmax : CodeTable → Nat
  | [] => 0
  | (_, e) :: rest => max e.len.val (lmax rest)

/-- A present entry's shape: a length of 1 to 32 and a code that fits it (R34). -/
def entryShapeOk (e : CodeEntry) : Bool :=
  e.len.val != 0 && decide (e.code.toNat < 2 ^ e.len.val)

/-- The codeword of `a` is the first bits of the codeword of `b` (R35). -/
def entryPrefixes (a b : CodeEntry) : Bool :=
  decide (a.len.val ≤ b.len.val) && (b.code >>> (b.len.val - a.len.val) == a.code)

/-- The listed symbols rise strictly, so each symbol has one entry (R32). -/
def symbolsRise : CodeTable → Bool
  | [] => true
  | [_] => true
  | (s, _) :: (t, e) :: rest => decide (s.toNat < t.toNat) && symbolsRise ((t, e) :: rest)

/-- No listed symbol's codeword is a prefix of another's (R35). -/
def prefixFree (t : CodeTable) : Bool :=
  t.all fun x => t.all fun y => x.1 == y.1 || !(entryPrefixes x.2 y.2)

/-- `TABLE` is well formed: at least one symbol is present, every present entry has its shape, and the code is
prefix-free (R34, R35). -/
def tableWf (t : CodeTable) : Bool :=
  !t.isEmpty && symbolsRise t && (t.all fun x => entryShapeOk x.2) && prefixFree t

end Sys2Proof.Machine
end

