-- ==== Sys2Proof/Machine/Codec.lean ====
section
/-! DEFINITION. The codec commands ENC and DEC (spec/41_huffman_codec.md). -/

namespace Sys2Proof.Machine

/-! ### ENC -/

/-- `ENC`'s local names between two bits: the running bit cursor, the byte being assembled, and memory with
the completed bytes written (R131). -/
structure Packing where
  bitpos : Nat
  acc    : Byte
  mem    : Mem
  deriving DecidableEq, Repr

/-- The packing at the start of a command: cursor 0, an empty byte (R36, R131). -/
def packingStart (m : Mem) : Packing := ⟨0, 0, m⟩

/-- `acc[i] = bit`. -/
def setBit (acc : Byte) (i : Nat) (bit : Bool) : Byte :=
  if bit then acc ||| (1#8 <<< i) else acc &&& ~~~(1#8 <<< i)

/-- Pack one bit MSB-first at the cursor, and write the byte when it is complete (R58, R131). -/
def packBit (p : Params) (out : Word) (bit : Bool) (e : Packing) : Except Refusal Packing :=
  let acc := setBit e.acc (7 - e.bitpos % 8) bit
  let pos := e.bitpos + 1
  if pos % 8 = 0 then
    match memWrite p e.mem (addr out (pos / 8 - 1)) acc with
    | .error r => .error r
    | .ok m => .ok ⟨pos, 0, m⟩
  else .ok ⟨pos, acc, e.mem⟩

/-- Pack the low `j` bits of a code, `code[j-1]` first (R58, R131). -/
def packCode (p : Params) (out : Word) (code : Word) : Nat → Packing → Except Refusal Packing
  | 0, e => .ok e
  | j + 1, e =>
    match packBit p out (code.getLsbD j) e with
    | .error r => .error r
    | .ok e' => packCode p out code j e'

/-- Write the last, partial byte, if there is one; its low bits are 0 (R131). -/
def flush (p : Params) (out : Word) (e : Packing) : Except Refusal Packing :=
  if e.bitpos % 8 = 0 then .ok e
  else
    match memWrite p e.mem (addr out (e.bitpos / 8)) e.acc with
    | .error r => .error r
    | .ok m => .ok { e with mem := m }

/-- How a symbol of length `len` fares at cursor `bitpos` with `cap` bytes of room: absent is UnknownSymbol
(R137), then the two causes of Overflow (R133, R134). -/
def encCheck (cap bitpos len : Nat) : Status :=
  if len = 0 then .unknownSymbol
  else if bitpos + len > 8 * cap then .overflow
  else if bitpos + len > 2 ^ 32 - 1 then .overflow
  else .ok

/-- `ENC`'s loop over the symbols, in message order (R131). The first number is how many symbols are left. The
answer is the status the command ends with and the packing reached. -/
def encLoop (p : Params) (msg out : Word) (cap : Nat) :
    Nat → Nat → Packing → Except Refusal (Status × Packing)
  | 0, _, e => .ok (.ok, e)
  | left + 1, i, e =>
    match memRead p e.mem (addr msg i) with
    | .error r => .error r
    | .ok s =>
      let entry := tableEntry p.table s
      match encCheck cap e.bitpos entry.len.val with
      | .ok =>
        match packCode p out entry.code entry.len.val e with
        | .error r => .error r
        | .ok e' => encLoop p msg out cap left (i + 1) e'
      | st => .ok (st, e)

/-- `ENC msg, mlen, out, cap` (R131). Overlapping buffers and an ill-formed table have no meaning (R145, U7).
After an error every byte of `outBuffer` is free and every other byte is unchanged (R138). -/
def execEnc (msg mlen out cap : Word) (s : State) : Host.Outcome State Fault Refusal :=
  if tableWf s.params.table = false then .refused .illFormedTable
  else if (Span.mk msg mlen.toNat).overlaps ⟨out, cap.toNat⟩ then .refused .overlappingBuffers
  else
    match encLoop s.params msg out cap.toNat mlen.toNat 0 (packingStart s.mem) with
    | .error e => .refused e
    | .ok (.ok, e) =>
      match flush s.params out e with
      | .error r => .refused r
      | .ok e' => .next ((s.setMem e'.mem).respond .ok (BitVec.ofNat 32 e'.bitpos))
    | .ok (st, _) => .next ((s.freeBytes out cap.toNat).raise st)

/-! ### DEC -/

/-- Bit `bitpos` of the stream at `encoded`: bits of a byte are taken from its most significant (R58, R136). -/
def streamBit (p : Params) (m : Mem) (encoded : Word) (bitpos : Nat) : Except Refusal Bool :=
  match memRead p m (addr encoded (bitpos / 8)) with
  | .error e => .error e
  | .ok byte => .ok (byte.getLsbD (7 - bitpos % 8))

/-- One symbol: accumulate bits until the pair `(acc, l)` is an entry, or `left` bits, which start as `Lmax`,
are used up: a dead end (R136, R139). The answer is the symbol, if one matched, and the bit position reached. -/
def decSymbol (p : Params) (m : Mem) (encoded : Word) :
    Nat → Word → Nat → Nat → Except Refusal (Option Byte × Nat)
  | 0, _, _, bitpos => .ok (none, bitpos)
  | left + 1, acc, l, bitpos =>
    match streamBit p m encoded bitpos with
    | .error e => .error e
    | .ok bit =>
      let acc' := (acc <<< 1) ||| (BitVec.ofBool bit).setWidth 32
      match tableMatch p.table acc' (l + 1) with
      | some s => .ok (some s, bitpos + 1)
      | none => decSymbol p m encoded left acc' (l + 1) (bitpos + 1)

/-- What `DEC` reads out of a stream: the symbols, the bits consumed, and whether it ended in a dead end. -/
structure Reading where
  symbols : List Byte
  bitpos  : Nat
  deadEnd : Bool
  deriving DecidableEq, Repr

/-- `DEC`'s loop over the symbols (R136): `left` more symbols, the ones found so far in order. -/
def decLoop (p : Params) (m : Mem) (encoded : Word) : Nat → List Byte → Nat → Except Refusal Reading
  | 0, found, bitpos => .ok ⟨found, bitpos, false⟩
  | left + 1, found, bitpos =>
    match decSymbol p m encoded (lmax p.table) 0 0 bitpos with
    | .error e => .error e
    | .ok (none, pos) => .ok ⟨found, pos, true⟩
    | .ok (some s, pos) => decLoop p m encoded left (found ++ [s]) pos

/-- The bytes of `encodedBuffer` that hold the consumed bits: `ceil(T / 8)` of them (R146). -/
def bytesOfBits (bits : Nat) : Nat := (bits + 7) / 8

/-- How many bytes from `base +32 i` on are backed before the first that is not, looking at `left` of them. -/
def backedRun (p : Params) (base : Word) : Nat → Nat → Nat
  | 0, i => i
  | left + 1, i => if memValid p (addr base i) then backedRun p base left (i + 1) else i

/-- The bytes of `encodedBuffer` that a `DEC` reads: those that hold the bits it consumes (R146). It reads them in
order and leaves none out, so a reading that stops at an unbacked byte has read every byte below that one; there
the bytes read and the one it stopped at are named (R54; DEDUCED, notes/assumptions/11.md). -/
def readSpan (p : Params) (m : Mem) (encoded count : Word) : Span :=
  match decLoop p m encoded count.toNat [] 0 with
  | .ok run => ⟨encoded, bytesOfBits run.bitpos⟩
  | .error _ => ⟨encoded, backedRun p encoded (bytesOfBits (count.toNat * lmax p.table)) 0 + 1⟩

/-- `DEC encoded, count, out` (R136). The stream is read out of memory as it stands before the first symbol
is written: the same as the spec's interleaving, because a command whose output overlaps the bytes it reads
has no meaning (R145; notes/assumptions/15.md). After a dead end every one of the `count` bytes that is backed
is free (R139). A symbol decoded before the dead end is written by the pseudocode, so an unbacked byte there
refuses (R54); an unbacked output byte past those symbols does not, and gets no value. DEDUCED
(notes/assumptions/26.md): unsafe where it goes on. -/
def execDec (encoded count out : Word) (s : State) : Host.Outcome State Fault Refusal :=
  if tableWf s.params.table = false then .refused .illFormedTable
  else
    match decLoop s.params s.mem encoded count.toNat [] 0 with
    | .error e => .refused e
    | .ok run =>
      if (Span.mk encoded (bytesOfBits run.bitpos)).overlaps ⟨out, count.toNat⟩ then
        .refused .overlappingBuffers
      else
        match memWriteList s.params out 0 run.symbols s.mem with
        | .error e => .refused e
        | .ok m =>
          if run.deadEnd then .next ((s.freeBytes out count.toNat).respond .ok 0)
          else .next ((s.setMem m).respond .ok 0)

end Sys2Proof.Machine
end

