-- ==== Sys2Proof/Machine/Ring.lean ====
section
/-! DEFINITION. The ring buffer commands ENQ, DEQ, LEN, CAP (spec/40_ringbuffer.md). -/

namespace Sys2Proof.Machine

/-- `ENQ`'s loop: while bytes are asked for and the flag is not FULL, move one byte from `src +32 i` into the
ring (R101). The first argument is how many bytes are still asked for; the answer is the ring and how many
bytes were moved. -/
def enqLoop (p : Params) (m : Mem) (src : Word) : Nat → Nat → RingBuffer → Except Refusal (RingBuffer × Nat)
  | 0, i, b => .ok (b, i)
  | left + 1, i, b =>
    if b.state = .full then .ok (b, i)
    else
      match memRead p m (addr src i) with
      | .error e => .error e
      | .ok v => enqLoop p m src left (i + 1) (b.push p v)

/-- `ENQ ch, src, k` (R101): null first (R110), then the loop; the result is the number of bytes moved. -/
def execEnq (ch : Channel) (src k : Word) (s : State) : Host.Outcome State Fault Refusal :=
  if src = null then .next (s.raise .invalidArgument)
  else
    match enqLoop s.params s.mem src k.toNat 0 (s.rb ch) with
    | .error e => .refused e
    | .ok (b, i) => .next ((s.setRb ch b).respond .ok (BitVec.ofNat 32 i))

/-- `DEQ`'s loop: while bytes are asked for and the flag is not EMPTY, move the oldest byte to `dst +32 i`
(R102). -/
def deqLoop (p : Params) (dst : Word) : Nat → Nat → RingBuffer → Mem → Except Refusal (RingBuffer × Mem × Nat)
  | 0, i, b, m => .ok (b, m, i)
  | left + 1, i, b, m =>
    if b.state = .empty then .ok (b, m, i)
    else
      match memWrite p m (addr dst i) b.front with
      | .error e => .error e
      | .ok m' => deqLoop p dst left (i + 1) (b.pop p) m'

/-- `DEQ ch, dst, k` (R102): null first (R110), then the loop; the result is the number of bytes moved. -/
def execDeq (ch : Channel) (dst k : Word) (s : State) : Host.Outcome State Fault Refusal :=
  if dst = null then .next (s.raise .invalidArgument)
  else
    match deqLoop s.params dst k.toNat 0 (s.rb ch) s.mem with
    | .error e => .refused e
    | .ok (b, m, i) => .next (((s.setRb ch b).setMem m).respond .ok (BitVec.ofNat 32 i))

/-- `LEN ch` (R103): the channel's length. -/
def execLen (ch : Channel) (s : State) : Host.Outcome State Fault Refusal :=
  .next (s.respond .ok (BitVec.ofNat 32 (s.rb ch).n))

/-- `CAP ch` (R104): the capacity, the same for both channels and for good (R6, R27). -/
def execCap (_ch : Channel) (s : State) : Host.Outcome State Fault Refusal :=
  .next (s.respond .ok (BitVec.ofNat 32 (capacity s.params)))

end Sys2Proof.Machine
end

