-- ==== Sys2Proof/Machine/Dispatch.lean ====
section
/-! DEFINITION. One arm per command: its meaning in full. -/

namespace Sys2Proof.Machine

/-- What a command does in a state whose `serving` port presented it. -/
def exec (i : Instr) (s : State) : Host.Outcome State Fault Refusal :=
  match i with
  | .enq ch src k => Sys2Proof.Machine.execEnq ch src k s
  | .deq ch dst k => Sys2Proof.Machine.execDeq ch dst k s
  | .len ch => Sys2Proof.Machine.execLen ch s
  | .cap ch => Sys2Proof.Machine.execCap ch s
  | .enc msg mlen out cap => Sys2Proof.Machine.execEnc msg mlen out cap s
  | .dec encoded count out => Sys2Proof.Machine.execDec encoded count out s

end Sys2Proof.Machine
end

