-- ==== Sys2Proof/Machine/Ports.lean ====
section
/-! DEFINITION. What happens at the ports: presenting, accepting in an open order, the agents' own accesses and
their hazards, and reset (spec/60_exceptions.md R178, spec/20_memory.md R65, R67, spec/70_reset_and_hazards.md
R200, R201, R210). -/

namespace Sys2Proof.Machine

/-! ### The buffers a request names -/

/-- The buffer a command reads from: `src` of ENQ, `message` of ENC, and for DEC the bytes of `encodedBuffer` it
reads in this state, whether it completes or stops at an unbacked one (R85, R130, R146). -/
def sourceSpan (s : State) : Instr → Span
  | .enq _ src k => if src = null then Span.none else ⟨src, k.toNat⟩
  | .deq _ _ _ => Span.none
  | .len _ => Span.none
  | .cap _ => Span.none
  | .enc msg mlen _ _ => ⟨msg, mlen.toNat⟩
  | .dec encoded count _ => readSpan s.params s.mem encoded count

/-- The buffer a command may write: `dst` of DEQ, `outBuffer` of ENC and DEC (R85, R130, R201). -/
def destSpan : Instr → Span
  | .enq _ _ _ => Span.none
  | .deq _ dst k => if dst = null then Span.none else ⟨dst, k.toNat⟩
  | .len _ => Span.none
  | .cap _ => Span.none
  | .enc _ _ out cap => ⟨out, cap.toNat⟩
  | .dec _ count out => ⟨out, count.toNat⟩

/-- Two commands' buffers overlap other than read with read (R210). -/
def conflicts (s : State) (i j : Instr) : Bool :=
  (destSpan i).overlaps (destSpan j) || (destSpan i).overlaps (sourceSpan s j) ||
    (sourceSpan s i).overlaps (destSpan j)

/-- The command outstanding on a port, if it is a legal one: an illegal request names no buffer (R87). -/
def State.outstanding (s : State) (p : PortId) : Option Instr :=
  match (s.port p).pending with
  | none => none
  | some q =>
    match decode q with
    | .error _ => none
    | .ok i => some i

/-- Both ports have requests outstanding whose buffers conflict (R210, U4). -/
def State.clash (s : State) : Bool :=
  match s.outstanding .foreground, s.outstanding .interrupt with
  | some i, some j => conflicts s i j
  | _, _ => false

/-! ### Accepting a request -/

/-- Take the request presented on a port out of it; its command is now in execution (R178). -/
def State.accept (s : State) (p : PortId) : State :=
  { s.setPort p { s.port p with pending := none } with serving := p }

/-- Accept a request and run its command to its response, atomically (R65): an illegal request answers
IllegalCommand and does nothing else (R87). -/
def runRequest (p : PortId) (q : Request) (s : State) : Host.Outcome State Fault Refusal :=
  if s.clash then .refused .conflictingRequests
  else
    match decode q with
    | .error _ => .next ((s.accept p).raise .illegalCommand)
    | .ok i => exec i (s.accept p)

/-! ### The agents -/

/-- The other port's outstanding command reads or writes the byte at `a`. -/
def State.namedByOther (s : State) (p : PortId) (a : Word) : Bool :=
  match s.outstanding p.other with
  | none => false
  | some i => (destSpan i).holds a || (sourceSpan s i).holds a

/-- The other port's outstanding command may write the byte at `a`. -/
def State.writtenByOther (s : State) (p : PortId) (a : Word) : Bool :=
  match s.outstanding p.other with
  | none => false
  | some i => (destSpan i).holds a

/-- An agent does the next thing it has to do: it presents a request on its free port (R178), or accesses
`MEM` itself, which has no meaning at a buffer of the other port's outstanding request (R67, R210). -/
def agentAct (p : PortId) (act : AgentAct) (rest : List AgentAct) (s : State) :
    Host.Outcome State Fault Refusal :=
  match act with
  | .present q => .next (s.setPort p { s.port p with pending := some q, todo := rest })
  | .store a v =>
    if s.namedByOther p a then .refused .agentTouchesBuffer
    else
      match memWrite s.params s.mem a v with
      | .error e => .refused e
      | .ok m => .next ((s.setMem m).setPort p { s.port p with todo := rest })
  | .load a =>
    if s.writtenByOther p a then .refused .agentTouchesBuffer
    else
      match memRead s.params s.mem a with
      | .error e => .refused e
      | .ok v => .next (s.setPort p { s.port p with todo := rest, seen := some v })

/-! ### The open order -/

/-- What a port can do next: its presented request can be accepted; with none presented its agent can act. An
agent whose request is outstanding waits for the response (R178; notes/assumptions/7.md). -/
inductive Move where
  | accept (q : Request)
  | act (a : AgentAct) (rest : List AgentAct)
  deriving DecidableEq, Repr

/-- A port's next move, if it has one. -/
def Port.move (x : Port) : Option Move :=
  match x.pending with
  | some q => some (.accept q)
  | none =>
    match x.todo with
    | [] => none
    | a :: rest => some (.act a rest)

/-- Make a port's move. -/
def perform (p : PortId) (mv : Move) (s : State) : Host.Outcome State Fault Refusal :=
  match mv with
  | .accept q => runRequest p q s
  | .act a rest => agentAct p a rest s

/-- Use one free value. -/
def State.drawn (s : State) : State := { s with draws := s.draws + 1 }

/-- One move of the system: the one port that can move does; when both can, which goes first is a free value
(R65, U10); when none can, CORE is idle and keeps all state (R182). -/
def portsMove (s : State) : Host.Outcome State Fault Refusal :=
  match s.portF.move, s.portI.move with
  | none, none => .next s
  | some a, none => perform .foreground a s
  | none, some b => perform .interrupt b s
  | some a, some b =>
    if Config.foregroundFirst s.draws then perform .foreground a s.drawn
    else perform .interrupt b s.drawn

/-! ### Reset -/

/-- `rst` as CORE's own state sees it: both channels as R40 says, every pending request dropped without a
response, the input released; `TABLE`, `MEM` and what the agents hold are not touched (R200, R201). -/
def State.afterRst (s : State) : State :=
  { s with
    outbound := RingBuffer.reset
    inbound := RingBuffer.reset
    portF := { s.portF with pending := none }
    portI := { s.portI with pending := none }
    rst := false }

/-- The command `rst` cut short: a free choice between none and the legal commands pending (R201, U6). -/
def State.caught (s : State) : Option Instr :=
  match Config.caughtByReset s.draws with
  | 0 => none
  | 1 => s.outstanding .foreground
  | _ => s.outstanding .interrupt

/-- `rst` asserted and released (R200). With no command pending none can be in execution. A command cut short
leaves free values in the bytes it was entitled to write, and no response (R201, U6). Conflicting requests
outstanding have no meaning here either (R210). -/
def resetMove (s : State) : Host.Outcome State Fault Refusal :=
  if s.clash then .refused .conflictingRequests
  else if s.outstanding .foreground = none ∧ s.outstanding .interrupt = none then .next s.afterRst
  else
    match s.caught with
    | none => .next s.drawn.afterRst
    | some i => .next (s.drawn.freeBytes (destSpan i).base (destSpan i).size).afterRst

/-! ### Placing a command -/

/-- `s` with one request presented on the foreground's port and nothing else to do on either port, so that the
next step accepts it (notes/assumptions/21.md). -/
def State.presentAlone (s : State) (q : Request) : State :=
  { s with
    portF := { s.portF with pending := some q, todo := [] }
    portI := { s.portI with pending := none, todo := [] }
    rst := false }

end Sys2Proof.Machine
end

