-- ==== Sys2Proof/Machine/Step.lean ====
section
/-! DEFINITION. One step of the machine, and how the host places a command for the next step to run. -/

namespace Sys2Proof.Machine

/-- One step: `rst` first, else one move at the ports. -/
def step (s : State) : Host.Outcome State Fault Refusal :=
  if s.rst then Sys2Proof.Machine.resetMove s else Sys2Proof.Machine.portsMove s

/-- `s` with the request of bits `w` as the only thing to do. -/
def State.withFetchWord (s : State) (nbits w : Nat) : State :=
  s.presentAlone (Request.ofBits nbits w)

end Sys2Proof.Machine
end

