-- ==== Sys2Proof/Safety.lean ====
section
/-! DEFINITION. The terms claims use: the invariants of the state (spec/10_state.md R21 to R23), the live region
of a ring buffer (R28), the bit string of a message (spec/41_huffman_codec.md R132), and what a request carries. -/

namespace Sys2Proof.Machine

/-! ### Invariants -/

/-- The invariant of one ring buffer of capacity `C`: the ranges of R21, the flag tied to the length (R22), the
cursors tied to the length (R23), and the store in canonical form with no slot beyond the capacity (R55). -/
abbrev RingBuffer.Inv (C : Nat) (b : RingBuffer) : Prop :=
  b.w < C ∧ b.r < C ∧ b.n ≤ C ∧
  (b.state = .empty ↔ b.n = 0) ∧ (b.state = .full ↔ b.n = C) ∧
  (b.w + C - b.r) % C = b.n % C ∧
  Mem.wf b.store = true ∧ Mem.below b.store C = true

/-- The invariant of the machine: both ring buffers' (R22, R23), and `MEM` in canonical form within its `2^32`
addresses (R50). -/
abbrev State.Inv (s : State) : Prop :=
  s.outbound.Inv (capacity s.params) ∧ s.inbound.Inv (capacity s.params) ∧
  Mem.wf s.mem = true ∧ Mem.below s.mem (2 ^ 32) = true

/-! ### Bytes -/

/-- Every one of the `size` bytes at `base` is backed: `MEM_VALID` holds there (R54). -/
abbrev Backed (p : Params) (base : Word) (size : Nat) : Prop :=
  ∀ i < size, memValid p (addr base i) = true

/-- Address `a` is none of the `size` bytes at `base`. -/
abbrev Outside (base : Word) (size : Nat) (a : Nat) : Prop :=
  ∀ i < size, a ≠ (addr base i).toNat

/-- The `size` bytes at `base`, in order (R51, R57). -/
def memBytes (m : Mem) (base : Word) (size : Nat) : List Byte :=
  (List.range size).map fun i => Mem.read m (addr base i).toNat

/-- The live region of a ring buffer of capacity `C`: slots `(r + j) mod C` for `j < n`, oldest first (R28). -/
def RingBuffer.live (C : Nat) (b : RingBuffer) : List Byte :=
  (List.range b.n).map fun j => Mem.read b.store ((b.r + j) % C)

/-! ### The encoded stream -/

/-- Bit `i` of the stream in the bytes at `base`: bit `7 - (i mod 8)` of byte `i div 8` (R58). -/
def memBit (m : Mem) (base : Word) (i : Nat) : Bool :=
  (Mem.read m (addr base (i / 8)).toNat).getLsbD (7 - i % 8)

/-- The bits of a codeword, from `code[len-1]` down to `code[0]` (R33, R132). -/
def codeBits (e : CodeEntry) : List Bool :=
  (List.range e.len.val).map fun j => e.code.getLsbD (e.len.val - 1 - j)

/-- `bits(m)`: the concatenated codewords of a message (R132). -/
def messageBits (t : CodeTable) (m : List Byte) : List Bool :=
  m.flatMap fun s => codeBits (tableEntry t s)

/-- `B(m)`: the sum of the code lengths (R132, R135). -/
def bitCount (t : CodeTable) (m : List Byte) : Nat :=
  (m.map fun s => (tableEntry t s).len.val).sum

/-- Every symbol of the message is present (R33). -/
abbrev AllPresent (t : CodeTable) (m : List Byte) : Prop := ∀ s ∈ m, isPresent t s = true

/-- The bit stream at `base`, from bit `start` on, begins with the given bits. -/
abbrev StreamHas (m : Mem) (base : Word) (start : Nat) (bits : List Bool) : Prop :=
  ∀ i < bits.length, memBit m base (start + i) = bits.getD i false

/-- No codeword of a present symbol begins the bit stream at bit `start`: the decoder's dead end (R139). -/
abbrev NoCodeword (t : CodeTable) (m : Mem) (base : Word) (start : Nat) : Prop :=
  ∀ x ∈ t, ¬ StreamHas m base start (codeBits x.2)

/-! ### Requests, ports and runs -/

/-- The request carries this command: its command word and, in the operand words R85 assigns, its operands. The
words R85 calls ignored may hold anything (R86). -/
def CarriedBy (i : Instr) (q : Request) : Prop :=
  q.cmd = i.cmdWord ∧
  match i with
  | .enq _ src k => q.op0 = src ∧ q.op1 = k
  | .deq _ dst k => q.op0 = dst ∧ q.op1 = k
  | .len _ => True
  | .cap _ => True
  | .enc msg mlen out cap => q.op0 = msg ∧ q.op1 = mlen ∧ q.op2 = out ∧ q.op3 = cap
  | .dec encoded count out => q.op0 = encoded ∧ q.op1 = count ∧ q.op2 = out

/-- The statuses a command may answer (R171). -/
def mayAnswer : Instr → List Status
  | .enq _ _ _   => [.ok, .invalidArgument]
  | .deq _ _ _   => [.ok, .invalidArgument]
  | .len _       => [.ok]
  | .cap _       => [.ok]
  | .enc _ _ _ _ => [.ok, .overflow, .unknownSymbol]
  | .dec _ _ _   => [.ok]

/-- Port `p` has request `q` presented, the other port has nothing to do, and `rst` is released: the next step
accepts `q`. -/
abbrev State.Alone (s : State) (p : PortId) (q : Request) : Prop :=
  s.rst = false ∧ (s.port p).pending = some q ∧ (s.port p.other).move = none

/-- How many moves the ports still have: one for a presented request, two for each thing an agent has yet to do
(presenting a request takes one move and its acceptance another). -/
def Port.work (x : Port) : Nat := (if x.pending.isSome then 1 else 0) + 2 * x.todo.length

/-- The moves both ports still have (R220). -/
def State.work (s : State) : Nat := s.portF.work + s.portI.work

/-- The agent presents a request (R178). -/
def presents : AgentAct → Bool
  | .present _ => true
  | .store _ _ => false
  | .load _    => false

/-- Bytes a response says a command put into channel `ch` (R112). -/
def enqueued (i : Instr) (ch : Channel) (r : Response) : Nat :=
  match i with
  | .enq c _ _ => if c = ch then r.result.toNat else 0
  | _ => 0

/-- Bytes a response says a command took out of channel `ch` (R112). -/
def dequeued (i : Instr) (ch : Channel) (r : Response) : Nat :=
  match i with
  | .deq c _ _ => if c = ch then r.result.toNat else 0
  | _ => 0

/-! ### Indistinguishable states -/

/-- Two ring buffers of capacity `C` hold the same bytes, wherever in `store` they lie (R113). -/
def RingBuffer.SameContents (C : Nat) (a b : RingBuffer) : Prop :=
  a.Inv C ∧ b.Inv C ∧ a.state = b.state ∧ a.live C = b.live C

/-- Two machines differ at most in where each channel's live region lies in its `store`, and in the slots
outside it (R28, R113). -/
def State.Alike (s t : State) : Prop :=
  s.outbound.SameContents (capacity s.params) t.outbound ∧
  s.inbound.SameContents (capacity s.params) t.inbound ∧
  t = { s with outbound := t.outbound, inbound := t.inbound }

/-- Two outcomes stop for the same reason or go on to related states. -/
def OutcomesAlike (R : State → State → Prop) :
    Host.Outcome State Fault Refusal → Host.Outcome State Fault Refusal → Prop
  | .next s, .next t => R s t
  | .refused a, .refused b => a = b
  | .fault a, .fault b => a = b
  | _, _ => False

end Sys2Proof.Machine
end

