-- ==== Sys2Proof/Certificates/Slice0/Obligations.lean ====
section
/-! DEFINITION. The statements for the provers, from the numbered rules of spec/. -/

open Sys2Proof Sys2Proof.Machine

/-! ### Requests and their decoding (spec/30_encoding.md) -/

/-- R84: the ten legal command words, written out, decode to the commands they stand for, with the operands of R85;
seven words that are not legal (among them those of spec/95_test_vectors.md V87 to V92) are rejected. -/
def Obligations.TenLegalWordsDecodeAndTheirNeighboursDoNot : Prop :=
  ∀ a b c d : Word,
    decode ⟨0x00000001, a, b, c, d⟩ = .ok (.enq .outbound a b) ∧
    decode ⟨0x00000101, a, b, c, d⟩ = .ok (.enq .inbound a b) ∧
    decode ⟨0x00000002, a, b, c, d⟩ = .ok (.deq .outbound a b) ∧
    decode ⟨0x00000102, a, b, c, d⟩ = .ok (.deq .inbound a b) ∧
    decode ⟨0x00000003, a, b, c, d⟩ = .ok (.len .outbound) ∧
    decode ⟨0x00000103, a, b, c, d⟩ = .ok (.len .inbound) ∧
    decode ⟨0x00000004, a, b, c, d⟩ = .ok (.cap .outbound) ∧
    decode ⟨0x00000104, a, b, c, d⟩ = .ok (.cap .inbound) ∧
    decode ⟨0x00000008, a, b, c, d⟩ = .ok (.enc a b c d) ∧
    decode ⟨0x00000009, a, b, c, d⟩ = .ok (.dec a b c) ∧
    decode ⟨0x00000000, a, b, c, d⟩ = .error .reservedOpcode ∧
    decode ⟨0x00000005, a, b, c, d⟩ = .error .reservedOpcode ∧
    decode ⟨0x0000000A, a, b, c, d⟩ = .error .reservedOpcode ∧
    decode ⟨0x00000108, a, b, c, d⟩ = .error .codecChannel ∧
    decode ⟨0x00000109, a, b, c, d⟩ = .error .codecChannel ∧
    decode ⟨0x00000201, a, b, c, d⟩ = .error .reservedBits ∧
    decode ⟨0x80000003, a, b, c, d⟩ = .error .reservedBits

/-- R84, R85, R86: a request decodes to a command exactly when it carries that command, whatever its ignored words
hold; in particular decoding undoes encoding, for every command and every operand. -/
def Obligations.DecodeAgreesWithEncode : Prop :=
  (∀ i : Instr, decode (encode i) = .ok i) ∧
  ∀ (q : Request) (i : Instr), decode q = .ok i ↔ CarriedBy i q

/-- R88: a request is legal exactly when it matches a row of the opcode table (`cmd & mask == match`), and then it
decodes to that row's command. -/
def Obligations.LegalExactlyWhenATableRowMatches : Prop :=
  ∀ q : Request,
    ((∃ i, decode q = .ok i) ↔ ∃ row ∈ opcodeTable, row.covers q.cmd = true) ∧
    ∀ i, decode q = .ok i → ∀ row ∈ opcodeTable, row.covers q.cmd = true ↔ row.mnemonic = i.mnemonic

/-- R87: the requests the decoder rejects are exactly those with one of the three faults R87 lists; and accepting
one answers status IllegalCommand, code 4, and result 0 on its port and changes nothing else, in every state in
which it is presented. -/
def Obligations.IllegalRequestAnswersIllegalCommandOnly : Prop :=
  (∀ q : Request, (∃ r, decode q = .error r) ↔
    (q.cmd.toNat % 256 ∉ [0x01, 0x02, 0x03, 0x04, 0x08, 0x09] ∨ q.cmd.toNat / 2 ^ 9 ≠ 0 ∨
      ((q.cmd.toNat % 256 = 0x08 ∨ q.cmd.toNat % 256 = 0x09) ∧ q.cmd.toNat / 2 ^ 8 % 2 ≠ 0))) ∧
  Status.illegalCommand.code = 4 ∧
  ∀ (s : State) (p : PortId) (q : Request) (r : Reject), decode q = .error r →
    (s.port p).pending = some q →
    perform p (.accept q) s = .next
      { s.setPort p { s.port p with
          pending := none, responses := (s.port p).responses ++ [⟨.illegalCommand, 0⟩] } with
        serving := p } ∧
    (s.rst = false → (s.port p.other).move = none → step s = perform p (.accept q) s)

/-! ### Steps, ports and agents (spec/20_memory.md, spec/60_exceptions.md) -/

/-- R65, R178: accepting a presented request that decodes to a command is that command's meaning, the request taken
out of the port and the port in service, in every state in which the outstanding requests do not conflict; when
nothing else can move, that is the step; and so is the step from a request placed by `withFetchWord`. -/
def Obligations.StepRunsTheDecodedCommand : Prop :=
  (∀ (s : State) (p : PortId) (q : Request) (i : Instr), (s.port p).pending = some q → decode q = .ok i →
    s.clash = false →
    perform p (.accept q) s = exec i
      { s.setPort p { s.port p with pending := none } with serving := p }) ∧
  (∀ (s : State) (p : PortId) (q : Request) (i : Instr), s.Alone p q → decode q = .ok i →
    step s = exec i
      { s.setPort p { s.port p with pending := none } with serving := p }) ∧
  ∀ (s : State) (nbits w : Nat) (i : Instr), decodeTableWord nbits w = some i →
    step (s.withFetchWord nbits w) = exec i
      { s with
        portF := { s.portF with pending := none, todo := [] }
        portI := { s.portI with pending := none, todo := [] }
        rst := false
        serving := .foreground }

/-- R65: with a legal request pending on each port, either may be accepted first: the step runs one of the two
commands, whole, and leaves the other request pending. Which one is a free value (log entry 6). The two may not
conflict (R210). -/
def Obligations.EitherPendingRequestMayGoFirst : Prop :=
  ∀ (s : State) (qF qI : Request) (iF iI : Instr), s.rst = false →
    s.portF.pending = some qF → s.portI.pending = some qI → decode qF = .ok iF → decode qI = .ok iI →
    conflicts s iF iI = false →
    (step s = exec iF
        { s with portF := { s.portF with pending := none }, serving := .foreground, draws := s.draws + 1 } ∨
     step s = exec iI
        { s with portI := { s.portI with pending := none }, serving := .interrupt, draws := s.draws + 1 })

/-- R210 (U4): when both ports have legal requests outstanding, the step has no meaning exactly when some address is
in a destination buffer of one and in a buffer of the other; an overlap that both only read is no conflict. -/
def Obligations.OverlappingOutstandingRequestsHaveNoMeaning : Prop :=
  ∀ (s : State) (qF qI : Request) (iF iI : Instr), s.rst = false →
    s.portF.pending = some qF → s.portI.pending = some qI → decode qF = .ok iF → decode qI = .ok iI →
    (conflicts s iF iI = true ↔
      ∃ a : Word,
        ((destSpan iF).holds a = true ∧ ((destSpan iI).holds a = true ∨ (sourceSpan s iI).holds a = true)) ∨
        ((sourceSpan s iF).holds a = true ∧ (destSpan iI).holds a = true)) ∧
    (conflicts s iF iI = true → step s = .refused .conflictingRequests)

/-- R182, R200: with `rst` released, no request pending and no agent with anything to do, CORE is idle and keeps all
state. -/
def Obligations.IdleMachineKeepsAllState : Prop :=
  ∀ s : State, s.rst = false → s.portF.move = none → s.portI.move = none → step s = .next s

/-- R178: a port with a request outstanding keeps it until its one response; meanwhile its agent presents nothing
more. One step either leaves the port as it is, or takes the request and adds one response. -/
def Obligations.OneRequestOutstandingUntilItsResponse : Prop :=
  ∀ (s t : State) (p : PortId) (q : Request), s.rst = false → (s.port p).pending = some q →
    step s = .next t →
    t.port p = s.port p ∨
    ∃ r, t.port p =
      { s.port p with pending := none, responses := (s.port p).responses ++ [r] }

/-- R83, R220: a run that goes on for as many moves as the ports have left ends with every request answered: no
request is pending, no agent waits, and each port has exactly one more response per request presented. -/
def Obligations.EveryPresentedRequestIsAnsweredOnce : Prop :=
  ∀ s t : State, s.rst = false → core.run s.work s = .next t →
    ∀ p : PortId,
      (t.port p).pending = none ∧ (t.port p).todo = [] ∧
      (t.port p).responses.length = (s.port p).responses.length +
        (if (s.port p).pending.isSome then 1 else 0) +
        ((s.port p).todo.filter presents).length

/-- R83, R171, R176: a command that answers a next state delivers exactly one response, on the port its request came
from: of a status R171 allows the command, with result 0 unless it is OK; the other port sees nothing. -/
def Obligations.OneResponseOnTheServingPort : Prop :=
  ∀ (i : Instr) (s t : State), exec i s = .next t →
    ∃ r : Response, r.status ∈ mayAnswer i ∧ (r.status ≠ .ok → r.result = 0) ∧
      t.port s.serving = { s.port s.serving with responses := (s.port s.serving).responses ++ [r] } ∧
      t.port s.serving.other = s.port s.serving.other

/-- R67, R51: an agent's own store at a backed address goes on unless the other port's outstanding command reads or
writes that byte, and then changes that byte and nothing else of `MEM`; its load goes on unless that command writes
the byte, a byte the command only reads included, and returns the byte last written. A store into a buffer that
command names, or a load from its destination, has no meaning. Which bytes a command names is log entry 11. -/
def Obligations.AgentsOwnAccessesAreByteAccesses : Prop :=
  ∀ (s : State) (p : PortId) (a : Word) (v : Byte) (rest : List AgentAct), memValid s.params a = true →
    ((∀ i, s.outstanding p.other = some i →
        (destSpan i).holds a = false ∧ (sourceSpan s i).holds a = false) →
      ∃ t, perform p (.act (.store a v) rest) s = .next t ∧
        t = (s.setMem t.mem).setPort p { s.port p with todo := rest } ∧
        ∀ b, Mem.read t.mem b = if b = a.toNat then v else Mem.read s.mem b) ∧
    ((∀ i, s.outstanding p.other = some i → (destSpan i).holds a = false) →
      perform p (.act (.load a) rest) s =
        .next (s.setPort p { s.port p with todo := rest, seen := some (Mem.read s.mem a.toNat) })) ∧
    (∀ i, s.outstanding p.other = some i →
      ((destSpan i).holds a = true ∨ (sourceSpan s i).holds a = true →
        perform p (.act (.store a v) rest) s = .refused .agentTouchesBuffer) ∧
      ((destSpan i).holds a = true → perform p (.act (.load a) rest) s = .refused .agentTouchesBuffer))

/-- R65, R67, R178: how the agents' acts come to happen. With `rst` released, an agent that waits for no response
does the next thing on its list when the other port has no move, and that is the step; when both ports have a move
the step is one of the two moves, and which one is a free value (log entry 6). Presenting puts that very request on
the agent's port, in every state. That an agent is a finite list of acts is log entry 7. -/
def Obligations.StepPerformsAPortsNextMove : Prop :=
  (∀ (s : State) (p : PortId) (act : AgentAct) (rest : List AgentAct), s.rst = false →
    (s.port p).pending = none → (s.port p).todo = act :: rest → (s.port p.other).move = none →
    step s = perform p (.act act rest) s) ∧
  (∀ (s : State) (a b : Move), s.rst = false → s.portF.move = some a → s.portI.move = some b →
    step s = perform .foreground a { s with draws := s.draws + 1 } ∨
    step s = perform .interrupt b { s with draws := s.draws + 1 }) ∧
  ∀ (s : State) (p : PortId) (q : Request) (rest : List AgentAct),
    perform p (.act (.present q) rest) s =
      .next (s.setPort p { s.port p with pending := some q, todo := rest })

/-- R67, R210: while a legal request is outstanding, nothing that has a meaning changes a byte its command reads or
writes: a step that goes on either answers the request, or leaves the port, the bytes the command reads and every
byte of its buffers as they are; so what a `DEC` reads, and whether it meets an unbacked byte, stays what it was.
Which bytes a command names is log entry 11. -/
def Obligations.NamedBuffersStayUntilTheResponse : Prop :=
  ∀ (s t : State) (p : PortId) (i : Instr), s.rst = false → s.outstanding p = some i → step s = .next t →
    (t.port p = s.port p ∧ sourceSpan t i = sourceSpan s i ∧
      (∀ a : Word, (destSpan i).holds a = true ∨ (sourceSpan s i).holds a = true →
        Mem.read t.mem a.toNat = Mem.read s.mem a.toNat) ∧
      ∀ encoded count out, i = .dec encoded count out →
        decLoop t.params t.mem encoded count.toNat [] 0 = decLoop s.params s.mem encoded count.toNat [] 0) ∨
    ∃ r, t.port p =
      { s.port p with pending := none, responses := (s.port p).responses ++ [r] }

/-- R179: the ports are equal: a command has the same effect and the same response whichever port it is served on. -/
def Obligations.CommandsDoTheSameOnBothPorts : Prop :=
  ∀ (i : Instr) (s : State),
    OutcomesAlike
      (fun t u => ∃ (st : Status) (v : Word) (c : State), t = State.respond { c with serving := .foreground } st v ∧
        u = State.respond { c with serving := .interrupt } st v)
      (exec i { s with serving := .foreground }) (exec i { s with serving := .interrupt })

/-! ### Parameters, invariants and reset (spec/10_state.md, spec/70_reset_and_hazards.md) -/

/-- R6, R27, R32, R41: no step changes the capacity, the code table or which addresses are backed. -/
def Obligations.NoStepChangesTheParameters : Prop :=
  ∀ s t : State, step s = .next t → t.params = s.params

/-- R22, R23: from every state that meets the invariant every step leads to one: lengths and cursors stay in range,
the flag and the cursors stay tied to the length, memory and stores stay canonical. -/
def Obligations.EveryStepKeepsTheInvariant : Prop :=
  ∀ s t : State, s.Inv → step s = .next t → t.Inv

/-- R40, R22: the state after reset meets the invariant, for every choice of the parameters. -/
def Obligations.ResetMeetsTheInvariant : Prop :=
  ∀ p : Params, (State.resetWith p).Inv

/-- R40, R200: after reset both channels are EMPTY with `w = r = 0` and `n = 0`, and no request is in execution or
pending; `rst` asserted with no request outstanding leads there and touches neither `TABLE` nor `MEM`. -/
def Obligations.ResetLeavesBothChannelsEmpty : Prop :=
  (∀ (p : Params) (ch : Channel),
    ((State.resetWith p).rb ch).w = 0 ∧ ((State.resetWith p).rb ch).r = 0 ∧
    ((State.resetWith p).rb ch).n = 0 ∧ ((State.resetWith p).rb ch).state = .empty ∧
    ((State.resetWith p).rb ch).emptyOut = true ∧ ((State.resetWith p).rb ch).fullOut = false ∧
    (State.resetWith p).params = p ∧ ∀ port, ((State.resetWith p).port port).pending = none) ∧
  ∀ s : State, s.rst = true → s.portF.pending = none → s.portI.pending = none →
    ∃ t, step s = .next t ∧ t.rst = false ∧ t.params = s.params ∧ t.mem = s.mem ∧
      t.portF.pending = none ∧ t.portI.pending = none ∧
      ∀ ch, (t.rb ch).w = 0 ∧ (t.rb ch).r = 0 ∧ (t.rb ch).n = 0 ∧ (t.rb ch).state = .empty

/-- R201 (U6): `rst` with requests outstanding abandons them: no response is delivered, the requests are gone, both
channels are as after reset, and every byte of `MEM` outside the bytes an outstanding command was entitled to
write is unchanged. Requests that conflict have no meaning (R210). That every slot of both stores then reads 0 is
the model's choice (log entry 4): R40 leaves the slots unspecified. -/
def Obligations.ResetAbandonsOutstandingCommands : Prop :=
  ∀ s : State, s.rst = true → s.clash = false →
    ∃ t, step s = .next t ∧ t.rst = false ∧ t.params = s.params ∧
      t.outbound = RingBuffer.reset ∧ t.inbound = RingBuffer.reset ∧
      t.portF = { s.portF with pending := none } ∧ t.portI = { s.portI with pending := none } ∧
      ∀ a, (∀ p i, s.outstanding p = some i → Outside (destSpan i).base (destSpan i).size a) →
        Mem.read t.mem a = Mem.read s.mem a

/-- R25, R170: the encodings of the flag and of the statuses: EMPTY 0, PARTIAL 1, FULL 2; OK 0, InvalidArgument 1,
Overflow 2, UnknownSymbol 3, IllegalCommand 4; no other code is ever produced. -/
def Obligations.FlagAndStatusCodes : Prop :=
  Fullness.code .empty = 0 ∧ Fullness.code .part = 1 ∧ Fullness.code .full = 2 ∧
  (∀ f : Fullness, f.code ≠ 3) ∧
  Status.code .ok = 0 ∧ Status.code .invalidArgument = 1 ∧ Status.code .overflow = 2 ∧
  Status.code .unknownSymbol = 3 ∧ Status.code .illegalCommand = 4 ∧
  ∀ st : Status, st.code.toNat < 5

/-- R26: on a well-formed channel the output `empty` says `n == 0` and the output `full` says `n == C`. -/
def Obligations.LevelOutputsFollowTheLength : Prop :=
  ∀ (C : Nat) (b : RingBuffer), b.Inv C →
    (b.emptyOut = true ↔ b.n = 0) ∧ (b.fullOut = true ↔ b.n = C)

/-! ### Ring buffer commands (spec/40_ringbuffer.md) -/

/-- R101, R106, R108: `ENQ` from a non-null source whose bytes are backed moves `m = min(k, C - n)` bytes: it answers
OK and `m`; `w` advances by `m` slots modulo `C`, `r` stays, `n` grows by `m`; the flag is unchanged when nothing
moved, else FULL exactly when the buffer filled; slot `w + j` holds source byte `j`; every other slot, the other
channel and `MEM` are unchanged. -/
def Obligations.EnqMovesWhatFits : Prop :=
  ∀ (s : State) (ch : Channel) (src k : Word), (s.rb ch).Inv (capacity s.params) → src ≠ 0 →
    Backed s.params src (min k.toNat (capacity s.params - (s.rb ch).n)) →
    ∃ b, exec (.enq ch src k) s = .next ((s.setRb ch b).respond .ok
        (BitVec.ofNat 32 (min k.toNat (capacity s.params - (s.rb ch).n)))) ∧
      b.w = ((s.rb ch).w + min k.toNat (capacity s.params - (s.rb ch).n)) % capacity s.params ∧
      b.r = (s.rb ch).r ∧
      b.n = (s.rb ch).n + min k.toNat (capacity s.params - (s.rb ch).n) ∧
      b.state = (if min k.toNat (capacity s.params - (s.rb ch).n) = 0 then (s.rb ch).state
        else if b.n = capacity s.params then .full else .part) ∧
      (∀ j < min k.toNat (capacity s.params - (s.rb ch).n),
        Mem.read b.store (((s.rb ch).w + j) % capacity s.params) = Mem.read s.mem (addr src j).toNat) ∧
      ∀ a, (∀ j < min k.toNat (capacity s.params - (s.rb ch).n),
        a ≠ ((s.rb ch).w + j) % capacity s.params) → Mem.read b.store a = Mem.read (s.rb ch).store a

/-- R102, R106, R108, R29: `DEQ` to a non-null destination whose bytes are backed moves `m = min(k, n)` bytes: it
answers OK and `m`; `r` advances by `m` slots modulo `C`, `w` and `store` stay, `n` shrinks by `m`; the flag is
unchanged when nothing moved, else EMPTY exactly when the buffer drained; destination byte `j` holds slot
`r + j`; every other byte of `MEM` and the other channel are unchanged. -/
def Obligations.DeqMovesWhatIsThere : Prop :=
  ∀ (s : State) (ch : Channel) (dst k : Word), (s.rb ch).Inv (capacity s.params) → dst ≠ 0 →
    Backed s.params dst (min k.toNat (s.rb ch).n) →
    ∃ b m, exec (.deq ch dst k) s = .next (((s.setRb ch b).setMem m).respond .ok
        (BitVec.ofNat 32 (min k.toNat (s.rb ch).n))) ∧
      b.r = ((s.rb ch).r + min k.toNat (s.rb ch).n) % capacity s.params ∧
      b.w = (s.rb ch).w ∧ b.store = (s.rb ch).store ∧
      b.n = (s.rb ch).n - min k.toNat (s.rb ch).n ∧
      b.state = (if min k.toNat (s.rb ch).n = 0 then (s.rb ch).state
        else if b.n = 0 then .empty else .part) ∧
      (∀ j < min k.toNat (s.rb ch).n,
        Mem.read m (addr dst j).toNat = Mem.read (s.rb ch).store (((s.rb ch).r + j) % capacity s.params)) ∧
      ∀ a, Outside dst (min k.toNat (s.rb ch).n) a → Mem.read m a = Mem.read s.mem a

/-- R111: a command that ends in InvalidArgument has changed nothing and looked at nothing: it was an `ENQ` or a
`DEQ` with a null pointer, and with a null pointer these two answer so in every state, whatever memory is
backed. -/
def Obligations.InvalidArgumentChangesNothing : Prop :=
  (∀ (i : Instr) (s t : State) (v : Word), exec i s = .next t →
    (t.port s.serving).responses = (s.port s.serving).responses ++ [⟨.invalidArgument, v⟩] →
    t = s.respond .invalidArgument 0 ∧ ∃ ch k, i = .enq ch 0 k ∨ i = .deq ch 0 k) ∧
  ∀ (s : State) (ch : Channel) (k : Word),
    exec (.enq ch 0 k) s = .next (s.respond .invalidArgument 0) ∧
    exec (.deq ch 0 k) s = .next (s.respond .invalidArgument 0)

/-- R110: the checks of `ENQ` and `DEQ`, in order: a null pointer is InvalidArgument whatever the count and the state
are; otherwise a count of 0 is OK, 0; otherwise a FULL (`ENQ`) or EMPTY (`DEQ`) buffer is OK, 0; otherwise the
transfer runs, and a command that completes answers OK with a count of at least 1. -/
def Obligations.ChecksOfEnqAndDeqComeInOrder : Prop :=
  ∀ (s : State) (ch : Channel) (p k : Word),
    (p = 0 → exec (.enq ch p k) s = .next (s.respond .invalidArgument 0) ∧
      exec (.deq ch p k) s = .next (s.respond .invalidArgument 0)) ∧
    (p ≠ 0 → k = 0 → exec (.enq ch p k) s = .next (s.respond .ok 0) ∧
      exec (.deq ch p k) s = .next (s.respond .ok 0)) ∧
    (p ≠ 0 → k ≠ 0 → (s.rb ch).state = .full → exec (.enq ch p k) s = .next (s.respond .ok 0)) ∧
    (p ≠ 0 → k ≠ 0 → (s.rb ch).state = .empty → exec (.deq ch p k) s = .next (s.respond .ok 0)) ∧
    (p ≠ 0 → k ≠ 0 → (s.rb ch).Inv (capacity s.params) → ∀ t,
      ((s.rb ch).state ≠ .full → exec (.enq ch p k) s = .next t →
        ∃ v : Word, 0 < v.toNat ∧
          (t.port s.serving).responses = (s.port s.serving).responses ++ [⟨.ok, v⟩]) ∧
      ((s.rb ch).state ≠ .empty → exec (.deq ch p k) s = .next t →
        ∃ v : Word, 0 < v.toNat ∧
          (t.port s.serving).responses = (s.port s.serving).responses ++ [⟨.ok, v⟩]))

/-- R103: `LEN` answers OK and the channel's length, in every state, and changes nothing; on a channel that meets
the invariant the result is the length itself, at most `C`, 0 exactly when the channel is EMPTY and `C` exactly
when it is FULL. -/
def Obligations.LenAnswersTheLength : Prop :=
  ∀ (s : State) (ch : Channel),
    ∃ v : Word, exec (.len ch) s = .next (s.respond .ok v) ∧
      ((s.rb ch).Inv (capacity s.params) → v.toNat = (s.rb ch).n ∧ v.toNat ≤ capacity s.params ∧
        (v.toNat = 0 ↔ (s.rb ch).state = .empty) ∧
        (v.toNat = capacity s.params ↔ (s.rb ch).state = .full))

/-- R104: `CAP` answers OK and the capacity `C = 2^K`, which fits the result word, the same for both channels, in
every state, and changes nothing; and no step ever changes `C`. -/
def Obligations.CapAnswersTheCapacity : Prop :=
  (∀ s : State, ∃ v : Word, v.toNat = 2 ^ s.params.k.val ∧
    ∀ ch, exec (.cap ch) s = .next (s.respond .ok v)) ∧
  ∀ s t : State, step s = .next t → capacity t.params = capacity s.params

/-- R107, R28: first in, first out. `ENQ` puts the source's first bytes after the youngest of the live region; `DEQ`
delivers the oldest, in order, and the live region is what is left. -/
def Obligations.FirstInFirstOut : Prop :=
  ∀ (s t : State) (ch : Channel) (p k : Word), (s.rb ch).Inv (capacity s.params) → p ≠ 0 →
    (exec (.enq ch p k) s = .next t →
      (t.rb ch).live (capacity s.params) = (s.rb ch).live (capacity s.params) ++
        memBytes s.mem p (min k.toNat (capacity s.params - (s.rb ch).n))) ∧
    (exec (.deq ch p k) s = .next t →
      memBytes t.mem p (min k.toNat (s.rb ch).n) =
        ((s.rb ch).live (capacity s.params)).take k.toNat ∧
      (t.rb ch).live (capacity s.params) = ((s.rb ch).live (capacity s.params)).drop k.toNat)

/-- R107, doc00 §8: `ENQ` of `k <= C` bytes into an EMPTY channel followed by `DEQ` of `k` bytes answers `k` twice and
returns the identical bytes in the identical order, wherever the cursors stand. -/
def Obligations.EnqThenDeqReturnsTheSameBytes : Prop :=
  ∀ (s : State) (ch : Channel) (src dst k : Word), (s.rb ch).Inv (capacity s.params) →
    (s.rb ch).state = .empty → k.toNat ≤ capacity s.params → src ≠ 0 → dst ≠ 0 →
    Backed s.params src k.toNat → Backed s.params dst k.toNat →
    ∃ b c m, exec (.enq ch src k) s = .next ((s.setRb ch b).respond .ok k) ∧
      exec (.deq ch dst k) ((s.setRb ch b).respond .ok k) =
        .next (((((s.setRb ch b).respond .ok k).setRb ch c).setMem m).respond .ok k) ∧
      memBytes m dst k.toNat = memBytes s.mem src k.toNat ∧ c.state = .empty

/-- R113, R28: wrap-around is invisible. Two machines that differ only in where each channel's bytes lie in its
`store`, and in the slots outside the live regions, stay so under every step and every run: the same responses,
the same bytes in `MEM`, the same refusals. -/
def Obligations.WrapAroundIsInvisible : Prop :=
  ∀ s t : State, s.Alike t →
    OutcomesAlike State.Alike (step s) (step t) ∧
    ∀ n, OutcomesAlike State.Alike (core.run n s) (core.run n t)

/-- R112: a channel's length grows by exactly what its `ENQ`s answer and shrinks by exactly what its `DEQ`s answer. -/
def Obligations.LengthCountsWhatCommandsAnswer : Prop :=
  ∀ (i : Instr) (s t : State) (ch : Channel), s.Inv → exec i s = .next t →
    ∃ r, (t.port s.serving).responses = (s.port s.serving).responses ++ [r] ∧
      (t.rb ch).n + dequeued i ch r = (s.rb ch).n + enqueued i ch r

/-- R21, R100, R105, R202: only `ENQ` on a channel changes its `w` or `store`, only `DEQ` on it changes its `r`, only
those two change its length or flag, only `DEQ` empties it and only `ENQ` fills it. -/
def Obligations.OnlyEnqAndDeqTouchAChannel : Prop :=
  ∀ (i : Instr) (s t : State) (ch : Channel), exec i s = .next t →
    ((t.rb ch).w ≠ (s.rb ch).w ∨ (t.rb ch).store ≠ (s.rb ch).store ∨
        ((t.rb ch).state = .full ∧ (s.rb ch).state ≠ .full) → ∃ src k, i = .enq ch src k) ∧
    ((t.rb ch).r ≠ (s.rb ch).r ∨ ((t.rb ch).state = .empty ∧ (s.rb ch).state ≠ .empty) →
      ∃ dst k, i = .deq ch dst k) ∧
    (t.rb ch ≠ s.rb ch → ∃ p k, i = .enq ch p k ∨ i = .deq ch p k)

/-- R54 (U3): `ENQ` and `DEQ` have no meaning when one of the bytes they would access, and only those, is not backed. -/
def Obligations.UnbackedByteStopsARingCommand : Prop :=
  ∀ (s : State) (ch : Channel) (p k : Word), (s.rb ch).Inv (capacity s.params) → p ≠ 0 →
    (exec (.enq ch p k) s = .refused .unbackedAddress ↔
      ¬ Backed s.params p (min k.toNat (capacity s.params - (s.rb ch).n))) ∧
    (exec (.deq ch p k) s = .refused .unbackedAddress ↔
      ¬ Backed s.params p (min k.toNat (s.rb ch).n))

/-- R100, R101, R102: the frame of the ring buffer commands, in every state. `ENQ` changes at most its channel (never
`r`); `DEQ` changes at most its channel (never `w` or `store`) and the bytes of `MEM` it says it delivered;
`LEN` and `CAP` change nothing; each adds its one response. -/
def Obligations.RingCommandsFrame : Prop :=
  ∀ (s t : State) (ch : Channel) (p k : Word),
    (exec (.enq ch p k) s = .next t → ∃ r : Response,
      t = (s.setRb ch (t.rb ch)).respond r.status r.result ∧ (t.rb ch).r = (s.rb ch).r) ∧
    (exec (.deq ch p k) s = .next t → ∃ r : Response,
      t = ((s.setRb ch (t.rb ch)).setMem t.mem).respond r.status r.result ∧
      (t.rb ch).w = (s.rb ch).w ∧ (t.rb ch).store = (s.rb ch).store ∧
      ∀ a, Outside p r.result.toNat a → Mem.read t.mem a = Mem.read s.mem a) ∧
    (exec (.len ch) s = .next t → ∃ v, t = s.respond .ok v) ∧
    (exec (.cap ch) s = .next t → ∃ v, t = s.respond .ok v)

/-! ### Codec commands (spec/41_huffman_codec.md) -/

/-- R131, R132, R135, R58: with a well-formed table, buffers that do not overlap, a backed message of present symbols
and a stream that fits, `ENC` answers OK and the bit count `B(m)`, the sum of the symbols' code lengths; the first
`ceil(B(m)/8)` bytes of `outBuffer` hold the message's bits, most significant first, with zeros below the last;
no other byte of `MEM` and nothing of CORE changes. -/
def Obligations.EncWritesTheEncodedStream : Prop :=
  ∀ (s : State) (msg mlen out cap : Word), tableWf s.params.table = true →
    (Span.mk msg mlen.toNat).overlaps ⟨out, cap.toNat⟩ = false →
    AllPresent s.params.table (memBytes s.mem msg mlen.toNat) →
    bitCount s.params.table (memBytes s.mem msg mlen.toNat) ≤ 8 * cap.toNat →
    bitCount s.params.table (memBytes s.mem msg mlen.toNat) ≤ 2 ^ 32 - 1 →
    Backed s.params msg mlen.toNat →
    Backed s.params out (bytesOfBits (bitCount s.params.table (memBytes s.mem msg mlen.toNat))) →
    ∃ m, exec (.enc msg mlen out cap) s = .next ((s.setMem m).respond .ok
        (BitVec.ofNat 32 (bitCount s.params.table (memBytes s.mem msg mlen.toNat)))) ∧
      (∀ i < 8 * bytesOfBits (bitCount s.params.table (memBytes s.mem msg mlen.toNat)),
        memBit m out i = (messageBits s.params.table (memBytes s.mem msg mlen.toNat)).getD i false) ∧
      ∀ a, Outside out (bytesOfBits (bitCount s.params.table (memBytes s.mem msg mlen.toNat))) a →
        Mem.read m a = Mem.read s.mem a

/-- R133, R134, R137, R138, R174: the first symbol at which an error applies decides the status. When the first `i`
symbols are present and fit, and symbol `i` is absent, or its last bit would fall outside the buffer or the
32-bit count, `ENC` answers UnknownSymbol, or Overflow, with result 0; only bytes of `outBuffer` can differ. -/
def Obligations.EncStopsAtTheFirstBadSymbol : Prop :=
  ∀ (s : State) (msg mlen out cap : Word) (i : Nat), tableWf s.params.table = true →
    (Span.mk msg mlen.toNat).overlaps ⟨out, cap.toNat⟩ = false → i < mlen.toNat →
    Backed s.params msg (i + 1) → Backed s.params out cap.toNat →
    AllPresent s.params.table (memBytes s.mem msg i) →
    bitCount s.params.table (memBytes s.mem msg i) ≤ 8 * cap.toNat →
    bitCount s.params.table (memBytes s.mem msg i) ≤ 2 ^ 32 - 1 →
    ((tableEntry s.params.table (Mem.read s.mem (addr msg i).toNat)).len.val = 0 →
      ∃ m d, exec (.enc msg mlen out cap) s =
          .next (State.respond { s with mem := m, draws := d } .unknownSymbol 0) ∧
        ∀ a, Outside out cap.toNat a → Mem.read m a = Mem.read s.mem a) ∧
    ((tableEntry s.params.table (Mem.read s.mem (addr msg i).toNat)).len.val ≠ 0 →
      (bitCount s.params.table (memBytes s.mem msg (i + 1)) > 8 * cap.toNat ∨
        bitCount s.params.table (memBytes s.mem msg (i + 1)) > 2 ^ 32 - 1) →
      ∃ m d, exec (.enc msg mlen out cap) s =
          .next (State.respond { s with mem := m, draws := d } .overflow 0) ∧
        ∀ a, Outside out cap.toNat a → Mem.read m a = Mem.read s.mem a)

/-- R131: `ENC` of the empty message answers OK and 0, reads and writes nothing, whatever `cap` is and whatever memory
is backed. -/
def Obligations.EncOfTheEmptyMessage : Prop :=
  ∀ (s : State) (msg out cap : Word), tableWf s.params.table = true →
    exec (.enc msg 0 out cap) s = .next (s.respond .ok 0)

/-- R143: `ENC` is a function of the message and the table alone. Two `ENC`s of equal messages on machines with the
same table answer the same status and result where their capacities are equal; and where both answer OK, with
any two capacities, the same bit count and the same bytes. -/
def Obligations.EncDependsOnlyOnTheMessage : Prop :=
  ∀ (s t s' t' : State) (msg mlen out cap msg' out' cap' : Word), s.params.table = t.params.table →
    memBytes s.mem msg mlen.toNat = memBytes t.mem msg' mlen.toNat →
    exec (.enc msg mlen out cap) s = .next s' → exec (.enc msg' mlen out' cap') t = .next t' →
    ∃ r r' : Response,
      (s'.port s.serving).responses = (s.port s.serving).responses ++ [r] ∧
      (t'.port t.serving).responses = (t.port t.serving).responses ++ [r'] ∧
      (cap = cap' → r = r') ∧
      (r.status = .ok → r'.status = .ok → r = r' ∧
        memBytes s'.mem out (bytesOfBits r.result.toNat) = memBytes t'.mem out' (bytesOfBits r.result.toNat))

/-- R136, R146, R147: with a well-formed table, when the bit stream at `enc` begins with the bits of a message of
`count` present symbols, and the output does not overlap the bytes that hold those bits, `DEC` answers OK and 0
and leaves exactly that message at `out`, whatever bits follow; no other byte of `MEM` and nothing of CORE
changes. -/
def Obligations.DecReadsTheMessageInTheStream : Prop :=
  ∀ (s : State) (encoded count out : Word) (m : List Byte), tableWf s.params.table = true →
    m.length = count.toNat → AllPresent s.params.table m →
    StreamHas s.mem encoded 0 (messageBits s.params.table m) →
    (Span.mk encoded (bytesOfBits (bitCount s.params.table m))).overlaps ⟨out, count.toNat⟩ = false →
    Backed s.params encoded (bytesOfBits (bitCount s.params.table m)) → Backed s.params out count.toNat →
    ∃ m', exec (.dec encoded count out) s = .next ((s.setMem m').respond .ok 0) ∧
      memBytes m' out count.toNat = m ∧
      ∀ a, Outside out count.toNat a → Mem.read m' a = Mem.read s.mem a

/-- R139 (U2): a dead end. When the stream begins with the bits of fewer than `count` present symbols and no codeword
comes next, `DEC` still answers OK and 0, and only bytes of its output can differ. That an unbacked output byte past
those symbols does not stop it is the model's choice (log entry 26). -/
def Obligations.DecDeadEndAnswersOk : Prop :=
  ∀ (s : State) (encoded count out : Word) (m : List Byte), tableWf s.params.table = true →
    m.length < count.toNat → AllPresent s.params.table m →
    StreamHas s.mem encoded 0 (messageBits s.params.table m) →
    NoCodeword s.params.table s.mem encoded (bitCount s.params.table m) →
    (Span.mk encoded (bytesOfBits (bitCount s.params.table m + lmax s.params.table))).overlaps
      ⟨out, count.toNat⟩ = false →
    Backed s.params encoded (bytesOfBits (bitCount s.params.table m + lmax s.params.table)) →
    Backed s.params out m.length →
    ∃ m' d, exec (.dec encoded count out) s =
        .next (State.respond { s with mem := m', draws := d } .ok 0) ∧
      ∀ a, Outside out count.toNat a → Mem.read m' a = Mem.read s.mem a

/-- R142: the round trip. For every message of present symbols, in any buffers that do not overlap and are backed
where the two commands reach, with room for the stream, `ENC` answers OK and `B(m)`; `DEC` of what it wrote
consumes exactly `B(m)` bits with no dead end, answers OK and 0, and the message stands at `out`. -/
def Obligations.DecodingUndoesEncoding : Prop :=
  ∀ (s : State) (msg mlen encoded cap out : Word), tableWf s.params.table = true →
    AllPresent s.params.table (memBytes s.mem msg mlen.toNat) →
    bitCount s.params.table (memBytes s.mem msg mlen.toNat) ≤ 2 ^ 32 - 1 →
    bytesOfBits (bitCount s.params.table (memBytes s.mem msg mlen.toNat)) ≤ cap.toNat →
    (Span.mk msg mlen.toNat).overlaps ⟨encoded, cap.toNat⟩ = false →
    (Span.mk encoded (bytesOfBits (bitCount s.params.table (memBytes s.mem msg mlen.toNat)))).overlaps
      ⟨out, mlen.toNat⟩ = false →
    Backed s.params msg mlen.toNat →
    Backed s.params encoded (bytesOfBits (bitCount s.params.table (memBytes s.mem msg mlen.toNat))) →
    Backed s.params out mlen.toNat →
    ∃ t u, exec (.enc msg mlen encoded cap) s = .next t ∧
      (t.port s.serving).responses = (s.port s.serving).responses ++
        [⟨.ok, BitVec.ofNat 32 (bitCount s.params.table (memBytes s.mem msg mlen.toNat))⟩] ∧
      decLoop t.params t.mem encoded mlen.toNat [] 0 = .ok ⟨memBytes s.mem msg mlen.toNat,
        bitCount s.params.table (memBytes s.mem msg mlen.toNat), false⟩ ∧
      exec (.dec encoded mlen out) t = .next u ∧
      (u.port s.serving).responses = (t.port s.serving).responses ++ [⟨.ok, 0⟩] ∧
      memBytes u.mem out mlen.toNat = memBytes s.mem msg mlen.toNat

/-- R140, R35: in a well-formed table a pair of bits and length matches at most one symbol, the one whose entry it is;
and no codeword begins another, so a match at a shorter length rules out one at a longer length. -/
def Obligations.TheMatchIsUnambiguous : Prop :=
  ∀ t : CodeTable, tableWf t = true →
    (∀ (acc : Word) (l : Nat) (s : Byte), tableMatch t acc l = some s ↔
      isPresent t s = true ∧ (tableEntry t s).code = acc ∧ (tableEntry t s).len.val = l) ∧
    ∀ (acc : Word) (l d : Nat) (x y : Byte), tableMatch t (acc >>> d) l = some x →
      tableMatch t acc (l + d) = some y → d = 0 ∧ x = y

/-- R145 (U5): `ENC` has no meaning when some address lies in both its buffers; `DEC` has none when some byte of its
output is a byte it reads. -/
def Obligations.OverlappingCodecBuffersHaveNoMeaning : Prop :=
  ∀ (s : State) (a b c d : Word), tableWf s.params.table = true →
    ((∃ i < b.toNat, ∃ j < d.toNat, addr a i = addr c j) →
      exec (.enc a b c d) s = .refused .overlappingBuffers) ∧
    ∀ m : List Byte, m.length = b.toNat → AllPresent s.params.table m →
      StreamHas s.mem a 0 (messageBits s.params.table m) →
      Backed s.params a (bytesOfBits (bitCount s.params.table m)) →
      (∃ i < bytesOfBits (bitCount s.params.table m), ∃ j < b.toNat, addr a i = addr c j) →
      exec (.dec a b c) s = .refused .overlappingBuffers

/-- R34, R35 (U7): with a table that is not well formed `ENC` and `DEC` have no meaning (every one of them: log entry
18); the ring buffer commands do not look at the table: with any other table in its place, well formed or not,
each of the four with every operand has the same outcome, but for the table itself. -/
def Obligations.IllFormedTableStopsTheCodecOnly : Prop :=
  (∀ (s : State) (a b c d : Word), tableWf s.params.table = false →
    exec (.enc a b c d) s = .refused .illFormedTable ∧ exec (.dec a b c) s = .refused .illFormedTable ∧
    ∀ ch, exec (.len ch) s = .next (s.respond .ok (BitVec.ofNat 32 (s.rb ch).n)) ∧
      exec (.enq ch 0 a) s = .next (s.respond .invalidArgument 0)) ∧
  ∀ (s : State) (ch : Channel) (a b : Word) (T : CodeTable),
    ∀ i ∈ [Instr.enq ch a b, .deq ch a b, .len ch, .cap ch],
      OutcomesAlike (fun t u => u = { t with params := { t.params with table := T } })
        (exec i s) (exec i { s with params := { s.params with table := T } })

/-- R54, R146 (U3): where `ENC` would succeed but a byte of the message or of the stream's bytes is not backed, and
where `DEC` would succeed but a byte it reads or writes is not backed, the command has no meaning. -/
def Obligations.UnbackedByteStopsACodecCommand : Prop :=
  ∀ (s : State) (a b c d : Word), tableWf s.params.table = true →
    ((Span.mk a b.toNat).overlaps ⟨c, d.toNat⟩ = false →
      AllPresent s.params.table (memBytes s.mem a b.toNat) →
      bitCount s.params.table (memBytes s.mem a b.toNat) ≤ 8 * d.toNat →
      bitCount s.params.table (memBytes s.mem a b.toNat) ≤ 2 ^ 32 - 1 →
      ¬ (Backed s.params a b.toNat ∧
        Backed s.params c (bytesOfBits (bitCount s.params.table (memBytes s.mem a b.toNat)))) →
      exec (.enc a b c d) s = .refused .unbackedAddress) ∧
    ∀ m : List Byte, m.length = b.toNat → AllPresent s.params.table m →
      StreamHas s.mem a 0 (messageBits s.params.table m) →
      (Span.mk a (bytesOfBits (bitCount s.params.table m))).overlaps ⟨c, b.toNat⟩ = false →
      ¬ (Backed s.params a (bytesOfBits (bitCount s.params.table m)) ∧ Backed s.params c b.toNat) →
      exec (.dec a b c) s = .refused .unbackedAddress

/-- R130, R131, R138, R139: the frame of the codec commands, in every state: whatever they answer, no ring buffer, no
parameter and no port but for the one response changes, and no byte of `MEM` outside `outBuffer`. -/
def Obligations.CodecCommandsFrame : Prop :=
  ∀ (s t : State) (a b c d : Word),
    (exec (.enc a b c d) s = .next t → ∃ r : Response,
      t = State.respond { s with mem := t.mem, draws := t.draws } r.status r.result ∧
      ∀ x, Outside c d.toNat x → Mem.read t.mem x = Mem.read s.mem x) ∧
    (exec (.dec a b c) s = .next t →
      t = State.respond { s with mem := t.mem, draws := t.draws } .ok 0 ∧
      ∀ x, Outside c b.toNat x → Mem.read t.mem x = Mem.read s.mem x)

/-- R220, R54: with every address backed, a well-formed table and buffers that do not overlap, every command completes
with a response, whatever its operands, the state and the contents of `MEM`. -/
def Obligations.EveryCommandCompletes : Prop :=
  ∀ (i : Instr) (s : State), s.params.holes = [] → tableWf s.params.table = true →
    (sourceSpan s i).overlaps (destSpan i) = false →
    ∃ t, exec i s = .next t
end

