-- ==== Sys2Proof/Laws/Memory.lean ====
section
/-! SUPPORT. The laws of byte memory: read after write, and that every memory operation keeps the canonical
form. -/

namespace Sys2Proof.Machine

/-! ### Reading what was written -/

theorem Mem.read_erase_same (m : Mem) (a : Nat) : Mem.read (Mem.erase m a) a = Mem.blank := by
  induction m with
  | nil => rfl
  | cons c m ih =>
    obtain ⟨b, x⟩ := c
    by_cases h : a = b <;> simp [Mem.erase, Mem.read, h]
    · subst h; exact ih
    · exact ih

theorem Mem.read_erase_other (m : Mem) {a b : Nat} (h : b ≠ a) :
    Mem.read (Mem.erase m a) b = Mem.read m b := by
  induction m with
  | nil => rfl
  | cons c m ih =>
    obtain ⟨d, x⟩ := c
    by_cases h1 : a = d
    · subst h1; simp [Mem.erase, Mem.read, h, ih]
    · by_cases h2 : b = d <;> simp [Mem.erase, Mem.read, h1, h2, ih]

theorem Mem.read_insert_other (m : Mem) {a b : Nat} (v : Byte) (h : b ≠ a) :
    Mem.read (Mem.insert m a v) b = Mem.read m b := by
  induction m with
  | nil => simp [Mem.insert, Mem.read, h]
  | cons c m ih =>
    obtain ⟨d, x⟩ := c
    by_cases h1 : a < d
    · simp [Mem.insert, Mem.read, h1, h]
    · by_cases h2 : b = d <;> simp [Mem.insert, Mem.read, h1, h2, ih]

theorem Mem.read_insert_erased (m : Mem) (a : Nat) (v : Byte) :
    Mem.read (Mem.insert (Mem.erase m a) a v) a = v := by
  induction m with
  | nil => simp [Mem.erase, Mem.insert, Mem.read]
  | cons c m ih =>
    obtain ⟨d, x⟩ := c
    by_cases h1 : a = d
    · simp [Mem.erase, h1] at ih ⊢; exact ih
    · by_cases h2 : a < d
      · simp [Mem.erase, Mem.insert, Mem.read, h1, h2]
      · simp [Mem.erase, Mem.insert, Mem.read, h1, h2, ih]

/-- A read of the address just written gives the byte written (R51). -/
@[simp] theorem Mem.read_write_same (m : Mem) (a : Nat) (v : Byte) : Mem.read (Mem.write m a v) a = v := by
  unfold Mem.write
  split
  · next h => rw [Mem.read_erase_same, h]
  · exact Mem.read_insert_erased m a v

/-- A write leaves every other address alone (R51). -/
theorem Mem.read_write_other (m : Mem) {a b : Nat} (v : Byte) (h : b ≠ a) :
    Mem.read (Mem.write m a v) b = Mem.read m b := by
  unfold Mem.write
  split
  · exact Mem.read_erase_other m h
  · rw [Mem.read_insert_other _ v h, Mem.read_erase_other m h]

theorem Mem.read_write (m : Mem) (a b : Nat) (v : Byte) :
    Mem.read (Mem.write m a v) b = if b = a then v else Mem.read m b := by
  split
  · next h => rw [h]; exact Mem.read_write_same m a v
  · next h => exact Mem.read_write_other m v h

/-! ### The canonical form -/

/-- The canonical form of a list with a head: its byte is not blank, every later address is larger, and the
rest is canonical. -/
theorem Mem.wf_cons {a : Nat} {x : Byte} {m : Mem} :
    Mem.wf ((a, x) :: m) = true ↔ x ≠ Mem.blank ∧ (∀ c ∈ m, a < c.1) ∧ Mem.wf m = true := by
  induction m generalizing a x with
  | nil => simp [Mem.wf]
  | cons c m ih =>
    obtain ⟨b, y⟩ := c
    simp only [Mem.wf, Bool.and_eq_true, decide_eq_true_eq, bne_iff_ne, ne_eq, List.mem_cons,
      forall_eq_or_imp]
    constructor
    · rintro ⟨⟨hx, hab⟩, hm⟩
      refine ⟨hx, ⟨hab, fun d hd => ?_⟩, hm⟩
      exact Nat.lt_trans hab ((ih.mp hm).2.1 d hd)
    · rintro ⟨hx, ⟨hab, _⟩, hm⟩
      exact ⟨⟨hx, hab⟩, hm⟩

theorem Mem.mem_erase {m : Mem} {a : Nat} {c : Host.Cell} (h : c ∈ Mem.erase m a) : c ∈ m ∧ c.1 ≠ a := by
  induction m with
  | nil => cases h
  | cons d m ih =>
    obtain ⟨b, x⟩ := d
    by_cases hb : a = b
    · simp only [Mem.erase, hb, if_true] at h
      subst hb
      exact ⟨List.mem_cons_of_mem _ (ih h).1, (ih h).2⟩
    · simp only [Mem.erase, hb, if_false, List.mem_cons] at h
      rcases h with rfl | h
      · exact ⟨List.mem_cons_self .., fun e => hb e.symm⟩
      · exact ⟨List.mem_cons_of_mem _ (ih h).1, (ih h).2⟩

theorem Mem.mem_insert {m : Mem} {a : Nat} {v : Byte} {c : Host.Cell} (h : c ∈ Mem.insert m a v) :
    c = (a, v) ∨ c ∈ m := by
  induction m with
  | nil => simpa [Mem.insert] using h
  | cons d m ih =>
    obtain ⟨b, x⟩ := d
    simp only [Mem.insert] at h
    split at h
    · simpa using h
    · simp only [List.mem_cons] at h ⊢
      rcases h with h | h
      · exact .inr (.inl h)
      · exact (ih h).imp_right .inr

theorem Mem.wf_erase {m : Mem} (a : Nat) (h : Mem.wf m = true) : Mem.wf (Mem.erase m a) = true := by
  induction m with
  | nil => rfl
  | cons c m ih =>
    obtain ⟨b, x⟩ := c
    obtain ⟨hx, hb, hm⟩ := Mem.wf_cons.mp h
    simp only [Mem.erase]
    split
    · exact ih hm
    · exact Mem.wf_cons.mpr ⟨hx, fun c hc => hb c (Mem.mem_erase hc).1, ih hm⟩

theorem Mem.wf_insert {m : Mem} {a : Nat} {v : Byte} (hv : v ≠ Mem.blank) (h : Mem.wf m = true)
    (ha : ∀ c ∈ m, c.1 ≠ a) : Mem.wf (Mem.insert m a v) = true := by
  induction m with
  | nil => simp [Mem.insert, Mem.wf, hv]
  | cons c m ih =>
    obtain ⟨b, x⟩ := c
    obtain ⟨hx, hb, hm⟩ := Mem.wf_cons.mp h
    simp only [Mem.insert]
    split
    · next hab =>
      refine Mem.wf_cons.mpr ⟨hv, fun c hc => ?_, h⟩
      rcases List.mem_cons.mp hc with rfl | hc
      · exact hab
      · exact Nat.lt_trans hab (hb c hc)
    · next hab =>
      have hne : b ≠ a := ha (b, x) (List.mem_cons_self ..)
      refine Mem.wf_cons.mpr ⟨hx, fun c hc => ?_, ih hm fun c hc => ha c (List.mem_cons_of_mem _ hc)⟩
      rcases Mem.mem_insert hc with rfl | hc
      · show b < a
        omega
      · exact hb c hc

/-- A write keeps the canonical form. -/
theorem Mem.wf_write {m : Mem} (a : Nat) (v : Byte) (h : Mem.wf m = true) :
    Mem.wf (Mem.write m a v) = true := by
  unfold Mem.write
  split
  · exact Mem.wf_erase a h
  · next hv => exact Mem.wf_insert hv (Mem.wf_erase a h) fun c hc => (Mem.mem_erase hc).2

/-- A write below a bound keeps every listed address below it. -/
theorem Mem.below_write {m : Mem} {a bound : Nat} (v : Byte) (h : Mem.below m bound = true) (ha : a < bound) :
    Mem.below (Mem.write m a v) bound = true := by
  simp only [Mem.below, List.all_eq_true, decide_eq_true_eq] at h ⊢
  intro c hc
  unfold Mem.write at hc
  split at hc
  · exact h c (Mem.mem_erase hc).1
  · rcases Mem.mem_insert hc with rfl | hc
    · exact ha
    · exact h c (Mem.mem_erase hc).1

/-- Two canonical memories that read alike everywhere are equal. -/
theorem Mem.ext_of_wf {m m' : Mem} (h : Mem.wf m = true) (h' : Mem.wf m' = true)
    (hr : ∀ a, Mem.read m a = Mem.read m' a) : m = m' := by
  have read_none : ∀ (l : Mem) (a : Nat), (∀ c ∈ l, a < c.1) → Mem.read l a = Mem.blank := by
    intro l a hl
    induction l with
    | nil => rfl
    | cons c l ih =>
      obtain ⟨b, x⟩ := c
      have hb : a < b := hl (b, x) (List.mem_cons_self ..)
      simp only [Mem.read, if_neg (Nat.ne_of_lt hb)]
      exact ih fun c hc => hl c (List.mem_cons_of_mem _ hc)
  induction m generalizing m' with
  | nil =>
    cases m' with
    | nil => rfl
    | cons c m' =>
      obtain ⟨b, x⟩ := c
      have := hr b
      simp only [Mem.read, if_true] at this
      exact absurd this.symm (Mem.wf_cons.mp h').1
  | cons c m ih =>
    obtain ⟨a, x⟩ := c
    obtain ⟨hx, ha, hm⟩ := Mem.wf_cons.mp h
    cases m' with
    | nil =>
      have := hr a
      simp only [Mem.read, if_true] at this
      exact absurd this hx
    | cons c' m' =>
      obtain ⟨b, y⟩ := c'
      obtain ⟨hy, hb, hm'⟩ := Mem.wf_cons.mp h'
      have hab : a = b := by
        rcases Nat.lt_trichotomy a b with hlt | heq | hgt
        · have e := hr a
          rw [read_none ((b, y) :: m') a] at e
          · simp only [Mem.read, if_true] at e; exact absurd e hx
          · intro c hc
            rcases List.mem_cons.mp hc with rfl | hc
            · exact hlt
            · exact Nat.lt_trans hlt (hb c hc)
        · exact heq
        · have e := hr b
          rw [read_none ((a, x) :: m) b] at e
          · simp only [Mem.read, if_true] at e; exact absurd e.symm hy
          · intro c hc
            rcases List.mem_cons.mp hc with rfl | hc
            · exact hgt
            · exact Nat.lt_trans hgt (ha c hc)
      subst hab
      have hxy : x = y := by have := hr a; simpa [Mem.read] using this
      subst hxy
      have : m = m' := by
        refine ih hm hm' fun d => ?_
        by_cases hd : d = a
        · subst hd; rw [read_none m d ha, read_none m' d hb]
        · have := hr d; simpa [Mem.read, hd] using this
      rw [this]

/-! ### Caller memory -/

theorem memRead_ok {p : Params} {m : Mem} {a : Word} {v : Byte} :
    memRead p m a = .ok v ↔ memValid p a = true ∧ v = Mem.read m a.toNat := by
  cases hv : memValid p a <;> simp [memRead, hv, eq_comm]

theorem memRead_error {p : Params} {m : Mem} {a : Word} {e : Refusal} :
    memRead p m a = .error e ↔ memValid p a = false ∧ e = .unbackedAddress := by
  cases hv : memValid p a <;> simp [memRead, hv, eq_comm]

theorem memWrite_ok {p : Params} {m m' : Mem} {a : Word} {v : Byte} :
    memWrite p m a v = .ok m' ↔ memValid p a = true ∧ m' = Mem.write m a.toNat v := by
  cases hv : memValid p a <;> simp [memWrite, hv, eq_comm]

theorem memWrite_error {p : Params} {m : Mem} {a : Word} {v : Byte} {e : Refusal} :
    memWrite p m a v = .error e ↔ memValid p a = false ∧ e = .unbackedAddress := by
  cases hv : memValid p a <;> simp [memWrite, hv, eq_comm]

/-- The canonical form of `MEM` with its `2^32` addresses. -/
abbrev MemOk (m : Mem) : Prop := Mem.wf m = true ∧ Mem.below m (2 ^ 32) = true

/-- `MemWrite` keeps the canonical form. -/
theorem memOk_write {m : Mem} (a : Word) (v : Byte) (h : MemOk m) : MemOk (Mem.write m a.toNat v) :=
  ⟨Mem.wf_write _ v h.1, Mem.below_write v h.2 a.isLt⟩

/-- A run of free bytes keeps the canonical form. -/
theorem memOk_freeFill {p : Params} (base : Word) (draw n : Nat) {m : Mem} (h : MemOk m) :
    MemOk (freeFill p base draw n m) := by
  induction n with
  | zero => exact h
  | succ n ih =>
    simp only [freeFill]
    split
    · exact memOk_write _ _ ih
    · exact ih

/-- A run of free bytes leaves every address outside it alone. -/
theorem read_freeFill_outside {p : Params} (base : Word) (draw n : Nat) (m : Mem) {a : Nat}
    (h : ∀ i < n, a ≠ (addr base i).toNat) : Mem.read (freeFill p base draw n m) a = Mem.read m a := by
  induction n with
  | zero => rfl
  | succ n ih =>
    have ih := ih fun i hi => h i (Nat.lt_succ_of_lt hi)
    simp only [freeFill]
    split
    · rw [Mem.read_write_other _ _ (h n (Nat.lt_succ_self n)), ih]
    · exact ih

/-! ### Addresses of a buffer -/

/-- Bytes of one buffer that lie less than `2^32` apart have different addresses (R52). -/
theorem addr_inj {base : Word} {i j : Nat} (hi : i < 2 ^ 32) (hj : j < 2 ^ 32)
    (h : (addr base i).toNat = (addr base j).toNat) : i = j := by
  have h1 : addr base i = addr base j := BitVec.eq_of_toNat_eq h
  have h2 : BitVec.ofNat 32 i = BitVec.ofNat 32 j := by
    have := congrArg (fun x => x - base) h1
    simpa [addr, BitVec.add_comm base] using this
  have h3 := congrArg BitVec.toNat h2
  simp only [BitVec.toNat_ofNat] at h3
  rwa [Nat.mod_eq_of_lt hi, Nat.mod_eq_of_lt hj] at h3

/-- `memWriteList` once and for all: where it succeeds every byte it wrote was backed, memory keeps its form,
the bytes stand where they were put, and every other address is as before. -/
theorem memWriteList_ok {p : Params} {base : Word} {vs : List Byte} {i : Nat} {m m' : Mem}
    (h : memWriteList p base i vs m = .ok m') (hn : i + vs.length ≤ 2 ^ 32) :
    (∀ j < vs.length, memValid p (addr base (i + j)) = true) ∧
    (MemOk m → MemOk m') ∧
    (∀ j (hj : j < vs.length), Mem.read m' (addr base (i + j)).toNat = vs[j]) ∧
    (∀ a, (∀ j < vs.length, a ≠ (addr base (i + j)).toNat) → Mem.read m' a = Mem.read m a) := by
  induction vs generalizing i m with
  | nil =>
    simp only [memWriteList, Except.ok.injEq] at h
    subst h
    exact ⟨by simp, id, by simp, fun a _ => rfl⟩
  | cons v vs ih =>
    simp only [memWriteList] at h
    split at h
    · cases h
    · next m1 hw =>
      obtain ⟨hv, rfl⟩ := memWrite_ok.mp hw
      have hlen : i + 1 + vs.length ≤ 2 ^ 32 := by simpa [Nat.add_assoc, Nat.add_comm 1] using hn
      obtain ⟨hb, hok, hin, hout⟩ := ih h hlen
      have shift : ∀ j, i + 1 + j = i + (j + 1) := by omega
      refine ⟨?_, fun hm => hok (memOk_write _ _ hm), ?_, ?_⟩
      · rintro (_ | j) hj
        · exact hv
        · have := hb j (by simpa using hj); rwa [shift] at this
      · rintro (_ | j) hj
        · rw [hout]
          · simp
          · intro j hj' heq
            have hbound : i + 1 + j < 2 ^ 32 := by omega
            have := addr_inj (by omega) hbound heq
            omega
        · have := hin j (by simpa using hj); rw [shift] at this; simpa using this
      · intro a ha
        rw [hout a fun j hj => by rw [shift]; exact ha (j + 1) (by simpa using hj)]
        exact Mem.read_write_other _ _ (ha 0 (by simp))

/-- `memWriteList` succeeds where every byte is backed. -/
theorem memWriteList_backed {p : Params} {base : Word} (vs : List Byte) {i : Nat} (m : Mem)
    (h : ∀ j < vs.length, memValid p (addr base (i + j)) = true) :
    ∃ m', memWriteList p base i vs m = .ok m' := by
  induction vs generalizing i m with
  | nil => exact ⟨m, rfl⟩
  | cons v vs ih =>
    have h0 : memWrite p m (addr base i) v = .ok (Mem.write m (addr base i).toNat v) :=
      memWrite_ok.mpr ⟨h 0 (by simp), rfl⟩
    simp only [memWriteList, h0]
    exact ih _ fun j hj => by
      have := h (j + 1) (by simpa using hj)
      rwa [show i + (j + 1) = i + 1 + j by omega] at this

end Sys2Proof.Machine
end

