-- ==== Sys2Proof/Laws/Operands.lean ====
section
/-! SUPPORT. The laws of buffer operands: which addresses a span holds, and that two spans overlap exactly when
they share one (R52, R145, R210). -/

namespace Sys2Proof.Machine

theorem offset_addr (base : Word) (i : Nat) : ((addr base i) - base).toNat = i % 2 ^ 32 := by
  have : addr base i - base = BitVec.ofNat 32 i := by
    rw [addr, BitVec.add_comm, BitVec.add_sub_cancel]
  rw [this, BitVec.toNat_ofNat]

theorem addr_offset (base a : Word) : addr base (a - base).toNat = a := by
  rw [addr, BitVec.ofNat_toNat, BitVec.setWidth_eq, BitVec.add_comm, BitVec.sub_add_cancel]

theorem holds_def {b : Span} {a : Word} : b.holds a = true ↔ (a - b.base).toNat < b.size :=
  decide_eq_true_iff

/-- A span holds exactly the addresses of its bytes (R51, R52). -/
theorem holds_iff {b : Span} {a : Word} : b.holds a = true ↔ ∃ i < b.size, a = addr b.base i := by
  rw [holds_def]
  constructor
  · intro h
    exact ⟨_, h, (addr_offset b.base a).symm⟩
  · rintro ⟨i, hi, rfl⟩
    rw [offset_addr]
    exact Nat.lt_of_le_of_lt (Nat.mod_le _ _) hi

/-- Two spans overlap exactly when some address lies in both (R145, R210). -/
theorem overlaps_iff {a b : Span} : a.overlaps b = true ↔ ∃ x, a.holds x = true ∧ b.holds x = true := by
  have base_mem : ∀ c : Span, c.size ≠ 0 → c.holds c.base = true := by
    intro c hc
    rw [holds_def, BitVec.sub_self]
    exact Nat.pos_of_ne_zero hc
  have one : ∀ c d : Span, ∀ x, c.holds x = true → d.holds x = true →
      (x - d.base).toNat ≤ (x - c.base).toNat → c.holds d.base = true := by
    intro c d x hc hd hle
    rw [holds_def] at hc hd ⊢
    have : (d.base - c.base).toNat = (x - c.base).toNat - (x - d.base).toNat := by
      revert hle
      generalize d.base = y
      generalize c.base = z
      intro hle
      bv_omega
    omega
  simp only [Span.overlaps, Bool.and_eq_true, bne_iff_ne, Bool.or_eq_true]
  constructor
  · rintro ⟨⟨ha, hb⟩, h | h⟩
    · exact ⟨b.base, h, base_mem b hb⟩
    · exact ⟨a.base, base_mem a ha, h⟩
  · rintro ⟨x, ha, hb⟩
    have nonempty : ∀ c : Span, c.holds x = true → c.size ≠ 0 := by
      intro c hc h0
      rw [holds_def, h0] at hc
      exact Nat.not_lt_zero _ hc
    refine ⟨⟨nonempty a ha, nonempty b hb⟩, ?_⟩
    rcases Nat.le_total (x - b.base).toNat (x - a.base).toNat with h | h
    · exact .inl (one a b x ha hb h)
    · exact .inr (one b a x hb ha h)

/-- Bytes of a span that does not overlap another lie outside it. -/
theorem outside_of_disjoint {a b : Span} (h : a.overlaps b = false) {i : Nat} (hi : i < a.size) :
    Outside b.base b.size (addr a.base i).toNat := by
  intro j hj e
  have : a.overlaps b = true :=
    overlaps_iff.mpr ⟨addr a.base i, holds_iff.mpr ⟨i, hi, rfl⟩,
      holds_iff.mpr ⟨j, hj, BitVec.eq_of_toNat_eq e⟩⟩
  rw [h] at this
  cases this

/-- An address a span does not hold lies outside its bytes, and outside any first part of them. -/
theorem outside_of_not_holds {base a : Word} {size n : Nat} (h : (Span.mk base size).holds a = false) (hn : n ≤ size) :
    Outside base n a.toNat := fun i hi e => by
  have : (Span.mk base size).holds a = true :=
    holds_iff.mpr ⟨i, Nat.lt_of_lt_of_le hi hn, BitVec.eq_of_toNat_eq e⟩
  rw [h] at this
  cases this

end Sys2Proof.Machine
end

