-- ==== Sys2Proof/Laws/State.lean ====
section
/-! SUPPORT. The small lemmas of the accessors of State: what each update leaves in each field. -/

namespace Sys2Proof.Machine

/-! ### `setRb` -/

@[simp] theorem State.setRb_rb_same (s : State) (ch : Channel) (b : RingBuffer) : (s.setRb ch b).rb ch = b := by
  cases ch <;> rfl

theorem State.setRb_rb_other (s : State) {ch ch' : Channel} (b : RingBuffer) (h : ch' ≠ ch) :
    (s.setRb ch b).rb ch' = s.rb ch' := by
  cases ch <;> cases ch' <;> first | rfl | exact absurd rfl h

@[simp] theorem State.setRb_self (s : State) (ch : Channel) : s.setRb ch (s.rb ch) = s := by
  cases ch <;> rfl

@[simp] theorem State.setRb_params (s : State) (ch : Channel) (b : RingBuffer) :
    (s.setRb ch b).params = s.params := by cases ch <;> rfl

@[simp] theorem State.setRb_mem (s : State) (ch : Channel) (b : RingBuffer) :
    (s.setRb ch b).mem = s.mem := by cases ch <;> rfl

@[simp] theorem State.setRb_portF (s : State) (ch : Channel) (b : RingBuffer) :
    (s.setRb ch b).portF = s.portF := by cases ch <;> rfl

@[simp] theorem State.setRb_portI (s : State) (ch : Channel) (b : RingBuffer) :
    (s.setRb ch b).portI = s.portI := by cases ch <;> rfl

@[simp] theorem State.setRb_port (s : State) (ch : Channel) (b : RingBuffer) (p : PortId) :
    (s.setRb ch b).port p = s.port p := by cases ch <;> cases p <;> rfl

@[simp] theorem State.setRb_rst (s : State) (ch : Channel) (b : RingBuffer) :
    (s.setRb ch b).rst = s.rst := by cases ch <;> rfl

@[simp] theorem State.setRb_serving (s : State) (ch : Channel) (b : RingBuffer) :
    (s.setRb ch b).serving = s.serving := by cases ch <;> rfl

@[simp] theorem State.setRb_draws (s : State) (ch : Channel) (b : RingBuffer) :
    (s.setRb ch b).draws = s.draws := by cases ch <;> rfl

/-! ### `setMem` -/

@[simp] theorem State.setMem_mem (s : State) (m : Mem) : (s.setMem m).mem = m := rfl
@[simp] theorem State.setMem_self (s : State) : s.setMem s.mem = s := rfl
@[simp] theorem State.setMem_params (s : State) (m : Mem) : (s.setMem m).params = s.params := rfl
@[simp] theorem State.setMem_outbound (s : State) (m : Mem) : (s.setMem m).outbound = s.outbound := rfl
@[simp] theorem State.setMem_inbound (s : State) (m : Mem) : (s.setMem m).inbound = s.inbound := rfl
@[simp] theorem State.setMem_rb (s : State) (m : Mem) (ch : Channel) : (s.setMem m).rb ch = s.rb ch := by
  cases ch <;> rfl
@[simp] theorem State.setMem_portF (s : State) (m : Mem) : (s.setMem m).portF = s.portF := rfl
@[simp] theorem State.setMem_portI (s : State) (m : Mem) : (s.setMem m).portI = s.portI := rfl
@[simp] theorem State.setMem_port (s : State) (m : Mem) (p : PortId) : (s.setMem m).port p = s.port p := by
  cases p <;> rfl
@[simp] theorem State.setMem_rst (s : State) (m : Mem) : (s.setMem m).rst = s.rst := rfl
@[simp] theorem State.setMem_serving (s : State) (m : Mem) : (s.setMem m).serving = s.serving := rfl
@[simp] theorem State.setMem_draws (s : State) (m : Mem) : (s.setMem m).draws = s.draws := rfl

/-! ### `setPort` -/

@[simp] theorem State.setPort_port_same (s : State) (p : PortId) (x : Port) : (s.setPort p x).port p = x := by
  cases p <;> rfl

@[simp] theorem State.setPort_port_other (s : State) (p : PortId) (x : Port) :
    (s.setPort p x).port p.other = s.port p.other := by cases p <;> rfl

@[simp] theorem State.setPort_self (s : State) (p : PortId) : s.setPort p (s.port p) = s := by
  cases p <;> rfl

@[simp] theorem State.setPort_params (s : State) (p : PortId) (x : Port) :
    (s.setPort p x).params = s.params := by cases p <;> rfl

@[simp] theorem State.setPort_outbound (s : State) (p : PortId) (x : Port) :
    (s.setPort p x).outbound = s.outbound := by cases p <;> rfl

@[simp] theorem State.setPort_inbound (s : State) (p : PortId) (x : Port) :
    (s.setPort p x).inbound = s.inbound := by cases p <;> rfl

@[simp] theorem State.setPort_rb (s : State) (p : PortId) (x : Port) (ch : Channel) :
    (s.setPort p x).rb ch = s.rb ch := by cases p <;> cases ch <;> rfl

@[simp] theorem State.setPort_mem (s : State) (p : PortId) (x : Port) :
    (s.setPort p x).mem = s.mem := by cases p <;> rfl

@[simp] theorem State.setPort_rst (s : State) (p : PortId) (x : Port) :
    (s.setPort p x).rst = s.rst := by cases p <;> rfl

@[simp] theorem State.setPort_serving (s : State) (p : PortId) (x : Port) :
    (s.setPort p x).serving = s.serving := by cases p <;> rfl

@[simp] theorem State.setPort_draws (s : State) (p : PortId) (x : Port) :
    (s.setPort p x).draws = s.draws := by cases p <;> rfl

@[simp] theorem PortId.other_other (p : PortId) : p.other.other = p := by cases p <;> rfl

/-! ### `respond` -/

@[simp] theorem State.respond_params (s : State) (st : Status) (v : Word) :
    (s.respond st v).params = s.params := by simp [State.respond]
@[simp] theorem State.respond_outbound (s : State) (st : Status) (v : Word) :
    (s.respond st v).outbound = s.outbound := by simp [State.respond]
@[simp] theorem State.respond_inbound (s : State) (st : Status) (v : Word) :
    (s.respond st v).inbound = s.inbound := by simp [State.respond]
@[simp] theorem State.respond_rb (s : State) (st : Status) (v : Word) (ch : Channel) :
    (s.respond st v).rb ch = s.rb ch := by simp [State.respond]
@[simp] theorem State.respond_mem (s : State) (st : Status) (v : Word) :
    (s.respond st v).mem = s.mem := by simp [State.respond]
@[simp] theorem State.respond_rst (s : State) (st : Status) (v : Word) :
    (s.respond st v).rst = s.rst := by simp [State.respond]
@[simp] theorem State.respond_serving (s : State) (st : Status) (v : Word) :
    (s.respond st v).serving = s.serving := by simp [State.respond]
@[simp] theorem State.respond_draws (s : State) (st : Status) (v : Word) :
    (s.respond st v).draws = s.draws := by simp [State.respond]

/-- A response goes on the port its request came from, after the earlier ones (R83). -/
@[simp] theorem State.respond_port (s : State) (st : Status) (v : Word) :
    (s.respond st v).port s.serving = (s.port s.serving).deliver ⟨st, v⟩ := by simp [State.respond]

/-- A response is not seen on the other port (R83, R176). -/
@[simp] theorem State.respond_port_other (s : State) (st : Status) (v : Word) :
    (s.respond st v).port s.serving.other = s.port s.serving.other := by simp [State.respond]

@[simp] theorem State.raise_eq (s : State) (st : Status) : s.raise st = s.respond st 0 := rfl

/-! ### `freeBytes`, `drawn`, `accept`, `afterRst` -/

@[simp] theorem State.freeBytes_params (s : State) (b : Word) (n : Nat) :
    (s.freeBytes b n).params = s.params := rfl
@[simp] theorem State.freeBytes_rb (s : State) (b : Word) (n : Nat) (ch : Channel) :
    (s.freeBytes b n).rb ch = s.rb ch := by cases ch <;> rfl
@[simp] theorem State.freeBytes_outbound (s : State) (b : Word) (n : Nat) :
    (s.freeBytes b n).outbound = s.outbound := rfl
@[simp] theorem State.freeBytes_inbound (s : State) (b : Word) (n : Nat) :
    (s.freeBytes b n).inbound = s.inbound := rfl
@[simp] theorem State.freeBytes_port (s : State) (b : Word) (n : Nat) (p : PortId) :
    (s.freeBytes b n).port p = s.port p := by cases p <;> rfl
@[simp] theorem State.freeBytes_portF (s : State) (b : Word) (n : Nat) :
    (s.freeBytes b n).portF = s.portF := rfl
@[simp] theorem State.freeBytes_portI (s : State) (b : Word) (n : Nat) :
    (s.freeBytes b n).portI = s.portI := rfl
@[simp] theorem State.freeBytes_rst (s : State) (b : Word) (n : Nat) : (s.freeBytes b n).rst = s.rst := rfl
@[simp] theorem State.freeBytes_serving (s : State) (b : Word) (n : Nat) :
    (s.freeBytes b n).serving = s.serving := rfl
@[simp] theorem State.freeBytes_draws (s : State) (b : Word) (n : Nat) :
    (s.freeBytes b n).draws = s.draws + n := rfl
@[simp] theorem State.freeBytes_mem (s : State) (b : Word) (n : Nat) :
    (s.freeBytes b n).mem = freeFill s.params b s.draws n s.mem := rfl

@[simp] theorem State.drawn_params (s : State) : s.drawn.params = s.params := rfl
@[simp] theorem State.drawn_outbound (s : State) : s.drawn.outbound = s.outbound := rfl
@[simp] theorem State.drawn_inbound (s : State) : s.drawn.inbound = s.inbound := rfl
@[simp] theorem State.drawn_rb (s : State) (ch : Channel) : s.drawn.rb ch = s.rb ch := by cases ch <;> rfl
@[simp] theorem State.drawn_mem (s : State) : s.drawn.mem = s.mem := rfl
@[simp] theorem State.drawn_port (s : State) (p : PortId) : s.drawn.port p = s.port p := by cases p <;> rfl
@[simp] theorem State.drawn_portF (s : State) : s.drawn.portF = s.portF := rfl
@[simp] theorem State.drawn_portI (s : State) : s.drawn.portI = s.portI := rfl
@[simp] theorem State.drawn_rst (s : State) : s.drawn.rst = s.rst := rfl

@[simp] theorem State.accept_params (s : State) (p : PortId) : (s.accept p).params = s.params := by
  simp [State.accept]
@[simp] theorem State.accept_outbound (s : State) (p : PortId) : (s.accept p).outbound = s.outbound := by
  simp [State.accept]
@[simp] theorem State.accept_inbound (s : State) (p : PortId) : (s.accept p).inbound = s.inbound := by
  simp [State.accept]
@[simp] theorem State.accept_rb (s : State) (p : PortId) (ch : Channel) : (s.accept p).rb ch = s.rb ch := by
  cases ch <;> simp [State.rb]
@[simp] theorem State.accept_mem (s : State) (p : PortId) : (s.accept p).mem = s.mem := by
  simp [State.accept]
@[simp] theorem State.accept_rst (s : State) (p : PortId) : (s.accept p).rst = s.rst := by
  simp [State.accept]
@[simp] theorem State.accept_draws (s : State) (p : PortId) : (s.accept p).draws = s.draws := by
  simp [State.accept]
@[simp] theorem State.accept_serving (s : State) (p : PortId) : (s.accept p).serving = p := rfl
@[simp] theorem State.accept_port (s : State) (p : PortId) :
    (s.accept p).port p = { s.port p with pending := none } := by cases p <;> rfl
@[simp] theorem State.accept_port_other (s : State) (p : PortId) :
    (s.accept p).port p.other = s.port p.other := by cases p <;> rfl

@[simp] theorem State.afterRst_params (s : State) : s.afterRst.params = s.params := rfl
@[simp] theorem State.afterRst_outbound (s : State) : s.afterRst.outbound = RingBuffer.reset := rfl
@[simp] theorem State.afterRst_inbound (s : State) : s.afterRst.inbound = RingBuffer.reset := rfl
@[simp] theorem State.afterRst_mem (s : State) : s.afterRst.mem = s.mem := rfl
@[simp] theorem State.afterRst_portF (s : State) : s.afterRst.portF = { s.portF with pending := none } := rfl
@[simp] theorem State.afterRst_portI (s : State) : s.afterRst.portI = { s.portI with pending := none } := rfl
@[simp] theorem State.afterRst_rst (s : State) : s.afterRst.rst = false := rfl
@[simp] theorem State.afterRst_draws (s : State) : s.afterRst.draws = s.draws := rfl

@[simp] theorem Port.deliver_pending (x : Port) (r : Response) : (x.deliver r).pending = x.pending := rfl
@[simp] theorem Port.deliver_responses (x : Port) (r : Response) :
    (x.deliver r).responses = x.responses ++ [r] := rfl
@[simp] theorem Port.deliver_todo (x : Port) (r : Response) : (x.deliver r).todo = x.todo := rfl
@[simp] theorem Port.deliver_seen (x : Port) (r : Response) : (x.deliver r).seen = x.seen := rfl

end Sys2Proof.Machine
end

