-- ==== Sys2Proof/Laws/Table.lean ====
section
/-! SUPPORT. The laws of a well-formed code table: entries and symbols, codewords as bits, and that no codeword
begins another's (spec/10_state.md R32 to R35, spec/41_huffman_codec.md R140). -/

namespace Sys2Proof.Machine

/-! ### Entries and symbols -/

theorem symbolsRise_cons {s : Byte} {e : CodeEntry} {t : CodeTable} :
    symbolsRise ((s, e) :: t) = true ↔ (∀ x ∈ t, s.toNat < x.1.toNat) ∧ symbolsRise t = true := by
  induction t generalizing s e with
  | nil => simp [symbolsRise]
  | cons c t ih =>
    obtain ⟨s', e'⟩ := c
    simp only [symbolsRise, Bool.and_eq_true, decide_eq_true_eq, List.mem_cons, forall_eq_or_imp]
    constructor
    · rintro ⟨h, ht⟩
      exact ⟨⟨h, fun x hx => Nat.lt_trans h ((ih.mp ht).1 x hx)⟩, ht⟩
    · rintro ⟨⟨h, _⟩, ht⟩
      exact ⟨h, ht⟩

/-- A listed symbol's entry is the one listed (R32). -/
theorem tableEntry_of_mem {t : CodeTable} (h : symbolsRise t = true) {x : Byte × CodeEntry} (hx : x ∈ t) :
    tableEntry t x.1 = x.2 := by
  induction t with
  | nil => cases hx
  | cons c t ih =>
    obtain ⟨s, e⟩ := c
    obtain ⟨hs, ht⟩ := symbolsRise_cons.mp h
    rcases List.mem_cons.mp hx with rfl | hx
    · simp [tableEntry]
    · have hne : x.1 ≠ s := fun e => absurd (hs x hx) (by rw [e]; exact Nat.lt_irrefl _)
      simp only [tableEntry, if_neg hne]
      exact ih ht hx

/-- A symbol not listed is absent (R33). -/
theorem tableEntry_cases (t : CodeTable) (s : Byte) :
    (s, tableEntry t s) ∈ t ∨ tableEntry t s = absentEntry := by
  induction t with
  | nil => exact .inr rfl
  | cons c t ih =>
    obtain ⟨s', e⟩ := c
    by_cases h : s = s'
    · subst h; simp [tableEntry]
    · simp only [tableEntry, if_neg h, List.mem_cons]
      exact ih.imp_left .inr

theorem mem_of_present {t : CodeTable} {s : Byte} (h : isPresent t s = true) : (s, tableEntry t s) ∈ t := by
  rcases tableEntry_cases t s with hm | hm
  · exact hm
  · simp [isPresent, hm, absentEntry] at h

theorem tableWf_iff {t : CodeTable} :
    tableWf t = true ↔ t ≠ [] ∧ symbolsRise t = true ∧
      (∀ x ∈ t, x.2.len.val ≠ 0 ∧ x.2.code.toNat < 2 ^ x.2.len.val) ∧
      (∀ x ∈ t, ∀ y ∈ t, x.1 ≠ y.1 → ¬(x.2.len.val ≤ y.2.len.val ∧
        y.2.code >>> (y.2.len.val - x.2.len.val) = x.2.code)) := by
  unfold tableWf prefixFree
  simp only [Bool.and_eq_true, List.all_eq_true, Bool.or_eq_true, Bool.not_eq_true', List.isEmpty_eq_false_iff,
    entryShapeOk, entryPrefixes, bne_iff_ne, decide_eq_true_eq, Bool.and_eq_false_iff,
    decide_eq_false_iff_not, beq_iff_eq, beq_eq_false_iff_ne, ne_eq, and_assoc]
  refine and_congr_right fun _ => and_congr_right fun _ => and_congr_right fun _ => ?_
  constructor
  · intro h x hx y hy hne hp
    rcases h x hx y hy with h | h | h
    · exact hne h
    · exact h hp.1
    · exact h hp.2
  · intro h x hx y hy
    by_cases hne : x.1 = y.1
    · exact .inl hne
    · by_cases hl : x.2.len.val ≤ y.2.len.val
      · exact .inr (.inr fun e => h x hx y hy hne ⟨hl, e⟩)
      · exact .inr (.inl hl)

theorem len_le (e : CodeEntry) : e.len.val ≤ 32 := Nat.lt_succ_iff.mp e.len.isLt

theorem le_lmax {t : CodeTable} {x : Byte × CodeEntry} (h : x ∈ t) : x.2.len.val ≤ lmax t := by
  induction t with
  | nil => cases h
  | cons c t ih =>
    obtain ⟨s, e⟩ := c
    simp only [lmax]
    rcases List.mem_cons.mp h with rfl | h
    · exact Nat.le_max_left _ _
    · exact Nat.le_trans (ih h) (Nat.le_max_right _ _)

theorem lmax_le (t : CodeTable) : lmax t ≤ 32 := by
  induction t with
  | nil => exact Nat.zero_le _
  | cons c t ih => exact Nat.max_le.mpr ⟨len_le _, ih⟩

/-! ### Codewords as bits -/

@[simp] theorem codeBits_length (e : CodeEntry) : (codeBits e).length = e.len.val := by
  simp [codeBits]

theorem codeBits_getD {e : CodeEntry} {i : Nat} (h : i < e.len.val) :
    (codeBits e).getD i false = e.code.getLsbD (e.len.val - 1 - i) := by
  simp [codeBits, List.getD, h]

@[simp] theorem messageBits_nil (t : CodeTable) : messageBits t [] = [] := rfl

@[simp] theorem messageBits_cons (t : CodeTable) (s : Byte) (m : List Byte) :
    messageBits t (s :: m) = codeBits (tableEntry t s) ++ messageBits t m := rfl

@[simp] theorem bitCount_nil (t : CodeTable) : bitCount t [] = 0 := rfl

@[simp] theorem bitCount_cons (t : CodeTable) (s : Byte) (m : List Byte) :
    bitCount t (s :: m) = (tableEntry t s).len.val + bitCount t m := rfl

/-- The bit string of a message has `B(m)` bits (R132). -/
@[simp] theorem messageBits_length (t : CodeTable) (m : List Byte) :
    (messageBits t m).length = bitCount t m := by
  induction m with
  | nil => rfl
  | cons s m ih => simp [ih]

/-- A stream has two runs of bits one after the other exactly when it has their concatenation. -/
theorem streamHas_append {m : Mem} {base : Word} {start : Nat} {xs ys : List Bool} :
    StreamHas m base start (xs ++ ys) ↔
      StreamHas m base start xs ∧ StreamHas m base (start + xs.length) ys := by
  simp only [StreamHas, List.length_append]
  constructor
  · intro h
    constructor
    · intro i hi
      rw [h i (by omega)]
      simp [List.getD, List.getElem?_append_left hi]
    · intro i hi
      have := h (xs.length + i) (by omega)
      rw [Nat.add_assoc, this]
      simp [List.getD, List.getElem?_append_right (Nat.le_add_right _ _)]
  · rintro ⟨h1, h2⟩ i hi
    by_cases hl : i < xs.length
    · rw [h1 i hl]
      simp [List.getD, List.getElem?_append_left hl]
    · have := h2 (i - xs.length) (by omega)
      rw [show start + i = start + xs.length + (i - xs.length) by omega, this]
      simp [List.getD, List.getElem?_append_right (Nat.le_of_not_lt hl)]

/-- The accumulation `acc` is the `l` bits of the stream from bit `start` on, first bit highest (R136). -/
def AccHolds (m : Mem) (base : Word) (start l : Nat) (acc : Word) : Prop :=
  (∀ j < l, acc.getLsbD (l - 1 - j) = memBit m base (start + j)) ∧ ∀ j, l ≤ j → acc.getLsbD j = false

theorem AccHolds.zero (m : Mem) (base : Word) (start : Nat) : AccHolds m base start 0 0 :=
  ⟨fun j hj => absurd hj (Nat.not_lt_zero j), fun j _ => by simp⟩

/-- One more bit shifted in (R136, R144). -/
theorem AccHolds.step {m : Mem} {base : Word} {start l : Nat} {acc : Word} (h : AccHolds m base start l acc)
    (hl : l < 32) {bit : Bool} (hb : bit = memBit m base (start + l)) :
    AccHolds m base start (l + 1) ((acc <<< 1) ||| (BitVec.ofBool bit).setWidth 32) := by
  have key : ∀ j, ((acc <<< 1) ||| (BitVec.ofBool bit).setWidth 32).getLsbD j =
      if j = 0 then bit else if j < 32 then acc.getLsbD (j - 1) else false := by
    intro j
    rcases j with _ | j
    · cases bit <;> simp
    · cases bit <;> simp [BitVec.getLsbD_or, BitVec.getLsbD_shiftLeft]
  constructor
  · intro j hj
    rw [key]
    by_cases hjl : j = l
    · subst hjl; simp [hb]
    · rw [if_neg (by omega), if_pos (by omega), show l + 1 - 1 - j - 1 = l - 1 - j by omega]
      exact h.1 j (by omega)
  · intro j hj
    rw [key, if_neg (by omega)]
    split
    · exact h.2 _ (by omega)
    · rfl

/-- A code that fits its length has no bit above it (R33). -/
theorem code_high {e : CodeEntry} (h : e.code.toNat < 2 ^ e.len.val) {j : Nat} (hj : e.len.val ≤ j) :
    e.code.getLsbD j = false := by
  rw [← BitVec.testBit_toNat]
  exact Nat.testBit_lt_two_pow (Nat.lt_of_lt_of_le h (Nat.pow_le_pow_right (by decide) hj))

/-- The accumulated bits are an entry's code exactly when the stream has its codeword (R136). -/
theorem AccHolds.code_iff {m : Mem} {base : Word} {start : Nat} {acc : Word} {e : CodeEntry}
    (h : AccHolds m base start e.len.val acc) (he : e.code.toNat < 2 ^ e.len.val) :
    e.code = acc ↔ StreamHas m base start (codeBits e) := by
  simp only [StreamHas, codeBits_length]
  constructor
  · intro hc i hi
    rw [codeBits_getD hi, ← h.1 i hi, hc]
  · intro hs
    refine BitVec.eq_of_getLsbD_eq fun j _ => ?_
    by_cases hj : j < e.len.val
    · have h1 := h.1 (e.len.val - 1 - j) (by omega)
      have h2 := hs (e.len.val - 1 - j) (by omega)
      rw [codeBits_getD (by omega)] at h2
      rw [show e.len.val - 1 - (e.len.val - 1 - j) = j by omega] at h1 h2
      rw [← h2, h1]
    · rw [code_high he (Nat.le_of_not_lt hj), h.2 j (Nat.le_of_not_lt hj)]

/-- At most one codeword begins the stream at a place: this is what prefix-freeness is for (R35, R140). -/
theorem codeword_unique {t : CodeTable} (h : tableWf t = true) {m : Mem} {base : Word} {start : Nat}
    {x y : Byte × CodeEntry} (hx : x ∈ t) (hy : y ∈ t) (sx : StreamHas m base start (codeBits x.2))
    (sy : StreamHas m base start (codeBits y.2)) : x = y := by
  obtain ⟨_, hrise, hshape, hpre⟩ := tableWf_iff.mp h
  have one : ∀ a ∈ t, ∀ b ∈ t, a.2.len.val ≤ b.2.len.val → StreamHas m base start (codeBits a.2) →
      StreamHas m base start (codeBits b.2) → a.1 = b.1 := by
    intro a ha b hb hl sa sb
    by_contra hne
    refine hpre a ha b hb hne ⟨hl, BitVec.eq_of_getLsbD_eq fun j _ => ?_⟩
    rw [BitVec.getLsbD_ushiftRight]
    by_cases hj : j < a.2.len.val
    · have ia := sa (a.2.len.val - 1 - j) (by rw [codeBits_length]; omega)
      have ib := sb (a.2.len.val - 1 - j) (by rw [codeBits_length]; omega)
      rw [codeBits_getD (by omega)] at ia ib
      rw [show a.2.len.val - 1 - (a.2.len.val - 1 - j) = j by omega] at ia
      rw [show b.2.len.val - 1 - (a.2.len.val - 1 - j) = b.2.len.val - a.2.len.val + j by omega] at ib
      rw [← ia, ← ib]
    · rw [code_high (hshape a ha).2 (Nat.le_of_not_lt hj), code_high (hshape b hb).2 (by omega)]
  have hs : x.1 = y.1 := by
    rcases Nat.le_total x.2.len.val y.2.len.val with hl | hl
    · exact one x hx y hy hl sx sy
    · exact (one y hy x hx hl sy sx).symm
  have he : x.2 = y.2 := by rw [← tableEntry_of_mem hrise hx, ← tableEntry_of_mem hrise hy, hs]
  exact Prod.ext hs he

/-! ### The match -/

/-- A match is a listed entry with the accumulated pair (R136). -/
theorem tableMatch_some {t : CodeTable} {acc : Word} {l : Nat} {s : Byte} (h : tableMatch t acc l = some s) :
    ∃ e, (s, e) ∈ t ∧ e.len.val = l ∧ e.code = acc ∧ e.len.val ≠ 0 := by
  induction t with
  | nil => cases h
  | cons c t ih =>
    obtain ⟨s', e⟩ := c
    simp only [tableMatch] at h
    split at h
    · next hc =>
      cases h
      exact ⟨e, List.mem_cons_self .., hc.2.1, hc.2.2, hc.1⟩
    · obtain ⟨e', he', hr⟩ := ih h
      exact ⟨e', List.mem_cons_of_mem _ he', hr⟩

/-- No match means no listed entry has the accumulated pair (R136). -/
theorem tableMatch_none {t : CodeTable} {acc : Word} {l : Nat} (h : tableMatch t acc l = none) :
    ∀ x ∈ t, ¬(x.2.len.val ≠ 0 ∧ x.2.len.val = l ∧ x.2.code = acc) := by
  induction t with
  | nil => intro x hx; cases hx
  | cons c t ih =>
    obtain ⟨s', e⟩ := c
    simp only [tableMatch] at h
    split at h
    · cases h
    · next hc =>
      intro x hx
      rcases List.mem_cons.mp hx with rfl | hx
      · exact hc
      · exact ih h x hx

end Sys2Proof.Machine
end

