-- ==== Sys2Proof/Laws/Codec.lean ====
section
/-! SUPPORT. The laws of the codec's operations: packing bits, and reading symbols out of a stream
(spec/41_huffman_codec.md). -/

namespace Sys2Proof.Machine

/-! ### Packing -/

/-- The packing after the bits `bits`, begun on memory `m0`: the completed bytes hold the stream's first bits, the
assembled byte its last ones with zeros below, and no other byte of memory has changed (R58, R131). -/
structure Packed (p : Params) (out : Word) (m0 : Mem) (bits : List Bool) (e : Packing) : Prop where
  bitpos : e.bitpos = bits.length
  done   : ∀ i < 8 * (bits.length / 8), memBit e.mem out i = bits.getD i false
  acc    : ∀ q < 8, e.acc.getLsbD (7 - q) = bits.getD (8 * (bits.length / 8) + q) false
  frame  : ∀ a, Outside out (bits.length / 8) a → Mem.read e.mem a = Mem.read m0 a
  memOk  : MemOk m0 → MemOk e.mem
  backed : Backed p out (bits.length / 8)

theorem Packed.start (p : Params) (out : Word) (m0 : Mem) : Packed p out m0 [] (packingStart m0) :=
  ⟨rfl, fun i hi => absurd hi (Nat.not_lt_zero i), fun q _ => by simp [packingStart], fun _ _ => rfl, id,
    fun i hi => absurd hi (Nat.not_lt_zero i)⟩

theorem setBit_getLsbD (acc : Byte) {i : Nat} (bit : Bool) (hi : i < 8) (j : Nat) :
    (setBit acc i bit).getLsbD j = if j = i then bit else acc.getLsbD j := by
  unfold setBit
  by_cases hj : j < 8
  · cases bit <;> by_cases h : j = i
    · subst h; simp [hj]
    · simp only [Bool.false_eq_true, if_false, BitVec.getLsbD_and, BitVec.getLsbD_not,
        BitVec.getLsbD_shiftLeft, BitVec.getLsbD_one, hj, h]
      have : ¬(j < i) → ¬(j - i = 0) := by omega
      by_cases hji : j < i <;> simp [hji]
      intro _ h0; exact absurd h0 (this hji)
    · subst h; simp [hj]
    · simp only [if_true, BitVec.getLsbD_or, BitVec.getLsbD_shiftLeft, BitVec.getLsbD_one, hj, h, if_false]
      have : ¬(j < i) → ¬(j - i = 0) := by omega
      by_cases hji : j < i <;> simp [hji]
      intro h0; exact absurd h0 (this hji)
  · have hne : j ≠ i := by omega
    rw [if_neg hne, BitVec.getLsbD_of_ge _ _ (by omega), BitVec.getLsbD_of_ge _ _ (by omega)]

/-- The bit that `packBit` appends stands where the stream puts it (R58). -/
theorem Packed.acc_set {p : Params} {out : Word} {m0 : Mem} {bits : List Bool} {e : Packing} (h : Packed p out m0 bits e)
    (bit : Bool) {q : Nat} (hq : q < 8) :
    (setBit e.acc (7 - e.bitpos % 8) bit).getLsbD (7 - q) =
      (bits ++ [bit]).getD (8 * (bits.length / 8) + q) false := by
  rw [setBit_getLsbD _ _ (by omega), h.bitpos, h.acc q hq]
  have hdm := Nat.div_add_mod bits.length 8
  rcases Nat.lt_trichotomy q (bits.length % 8) with hlt | heq | hgt
  · rw [if_neg (by omega)]
    simp [List.getD, List.getElem?_append_left (show 8 * (bits.length / 8) + q < bits.length by omega)]
  · rw [if_pos (by omega), show 8 * (bits.length / 8) + q = bits.length by omega]
    simp
  · rw [if_neg (by omega)]
    simp [List.getD, List.getElem?_eq_none (show bits.length ≤ 8 * (bits.length / 8) + q by omega),
      List.getElem?_eq_none (show (bits ++ [bit]).length ≤ 8 * (bits.length / 8) + q by simp; omega)]

theorem getD_append_left {bits : List Bool} {b : List Bool} {i : Nat} (h : i < bits.length) :
    (bits ++ b).getD i false = bits.getD i false := by
  simp [List.getD, List.getElem?_append_left h]

/-- One bit packed: if it answers, the packing holds one bit more (R58, R131). The address space must have room
for the bytes, so that no two of them share an address. -/
theorem packBit_ok {p : Params} {out : Word} {m0 : Mem} {bits : List Bool} {bit : Bool} {e e' : Packing}
    (h : packBit p out bit e = .ok e') (hp : Packed p out m0 bits e) (hroom : bits.length < 8 * 2 ^ 32) :
    Packed p out m0 (bits ++ [bit]) e' := by
  have hlen : (bits ++ [bit]).length = bits.length + 1 := by simp
  have hdm := Nat.div_add_mod bits.length 8
  simp only [packBit] at h
  split at h
  · next hc =>
    rw [hp.bitpos] at hc
    have hdiv : (bits.length + 1) / 8 = bits.length / 8 + 1 := by omega
    split at h
    · cases h
    · next m hw =>
      obtain ⟨hval, rfl⟩ := memWrite_ok.mp hw
      cases h
      simp only [hp.bitpos, hdiv, Nat.add_sub_cancel] at hval ⊢
      refine ⟨by simp, ?_, ?_, ?_, fun hm => memOk_write _ _ (hp.memOk hm), ?_⟩
      · intro i hi
        rw [hlen, hdiv] at hi
        by_cases hb : i < 8 * (bits.length / 8)
        · rw [getD_append_left (by omega), ← hp.done i hb, memBit, memBit, Mem.read_write_other]
          intro heq
          have := addr_inj (by omega) (by omega) heq
          omega
        · have hi8 : i / 8 = bits.length / 8 := by omega
          rw [memBit, hi8, Mem.read_write_same]
          have := hp.acc_set bit (q := i % 8) (by omega)
          rw [hp.bitpos] at this
          rw [this]
          congr 1
          omega
      · intro q _
        rw [hlen, hdiv]
        simp [List.getD, List.getElem?_eq_none (show (bits ++ [bit]).length ≤ 8 * (bits.length / 8 + 1) + q by
          simp; omega)]
      · intro a ha
        rw [hlen, hdiv] at ha
        rw [Mem.read_write_other _ _ (ha _ (Nat.lt_succ_self _))]
        exact hp.frame a fun i hi => ha i (Nat.lt_succ_of_lt hi)
      · rw [hlen, hdiv]
        intro b hb
        rcases Nat.lt_succ_iff_lt_or_eq.mp hb with hb | rfl
        · exact hp.backed b hb
        · exact hval
  · next hc =>
    cases h
    rw [hp.bitpos] at hc
    have hdiv : (bits.length + 1) / 8 = bits.length / 8 := by omega
    refine ⟨by simp [hp.bitpos], ?_, ?_, ?_, hp.memOk, by rw [hlen, hdiv]; exact hp.backed⟩
    · intro i hi
      rw [hlen, hdiv] at hi
      rw [getD_append_left (by omega)]
      exact hp.done i hi
    · intro q hq
      rw [hlen, hdiv]
      exact hp.acc_set bit hq
    · intro a ha
      rw [hlen, hdiv] at ha
      exact hp.frame a ha

/-- One bit is packed where the byte it may complete is backed. -/
theorem packBit_backed {p : Params} {out : Word} {bit : Bool} {e : Packing}
    (h : (e.bitpos + 1) % 8 = 0 → memValid p (addr out (e.bitpos / 8)) = true) :
    ∃ e', packBit p out bit e = .ok e' := by
  simp only [packBit]
  split
  · next hc =>
    have hb : (e.bitpos + 1) / 8 - 1 = e.bitpos / 8 := by omega
    rw [hb]
    simp [memWrite, h hc]
  · exact ⟨_, rfl⟩

theorem packBit_error {p : Params} {out : Word} {bit : Bool} {e : Packing} {r : Refusal}
    (h : packBit p out bit e = .error r) : r = .unbackedAddress := by
  simp only [packBit] at h
  split at h
  · split at h
    · next he => cases h; exact (memWrite_error.mp he).2
    · cases h
  · cases h

/-- The low `j` bits of a code, the highest first. -/
def lowBits (code : Word) (j : Nat) : List Bool := (List.range j).map fun t => code.getLsbD (j - 1 - t)

theorem lowBits_succ (code : Word) (j : Nat) : lowBits code (j + 1) = code.getLsbD j :: lowBits code j := by
  simp only [lowBits, List.range_succ_eq_map, List.map_cons, List.map_map, Nat.add_sub_cancel, Nat.sub_zero]
  congr 1
  refine List.map_congr_left fun t _ => ?_
  simp only [Function.comp_apply, Nat.succ_eq_add_one]
  rw [show j - (t + 1) = j - 1 - t by omega]

@[simp] theorem lowBits_length (code : Word) (j : Nat) : (lowBits code j).length = j := by simp [lowBits]

theorem lowBits_code (e : CodeEntry) : lowBits e.code e.len.val = codeBits e := rfl

/-- A code packed: if it answers, the packing holds its bits after the earlier ones (R58, R131). -/
theorem packCode_ok {p : Params} {out : Word} {m0 : Mem} {code : Word} {j : Nat} {bits : List Bool}
    {e e' : Packing} (h : packCode p out code j e = .ok e') (hp : Packed p out m0 bits e)
    (hroom : bits.length + j ≤ 8 * 2 ^ 32) : Packed p out m0 (bits ++ lowBits code j) e' := by
  induction j generalizing bits e with
  | zero => cases h; simpa [lowBits] using hp
  | succ j ih =>
    simp only [packCode] at h
    split at h
    · cases h
    · next e1 h1 =>
      have hp1 := packBit_ok h1 hp (by omega)
      have := ih h hp1 (by simp; omega)
      rwa [List.append_assoc, List.singleton_append, ← lowBits_succ] at this

/-- A code is packed where every byte it completes is backed. -/
theorem packCode_backed {p : Params} {out : Word} {code : Word} {j : Nat} {e : Packing}
    (h : ∀ b, 8 * (b + 1) ≤ e.bitpos + j → memValid p (addr out b) = true) :
    ∃ e', packCode p out code j e = .ok e' := by
  induction j generalizing e with
  | zero => exact ⟨e, rfl⟩
  | succ j ih =>
    obtain ⟨e1, h1⟩ := packBit_backed (p := p) (out := out) (bit := code.getLsbD j) (e := e)
      fun hc => h _ (by omega)
    have hpos : e1.bitpos = e.bitpos + 1 := by
      simp only [packBit] at h1
      split at h1
      · split at h1 <;> cases h1; rfl
      · cases h1; rfl
    obtain ⟨e', h'⟩ := ih (e := e1) fun b hb => h b (by omega)
    exact ⟨e', by simp only [packCode, h1, h']⟩

theorem packCode_error {p : Params} {out : Word} {code : Word} {j : Nat} {e : Packing} {r : Refusal}
    (h : packCode p out code j e = .error r) : r = .unbackedAddress := by
  induction j generalizing e with
  | zero => cases h
  | succ j ih =>
    simp only [packCode] at h
    split at h
    · next he => cases h; exact packBit_error he
    · exact ih h

/-- After the last byte is written, memory holds the whole stream with zeros below its last bit, and no byte
beyond the stream has changed (R131, R132). -/
theorem flush_ok {p : Params} {out : Word} {m0 : Mem} {bits : List Bool} {e e' : Packing}
    (h : flush p out e = .ok e') (hp : Packed p out m0 bits e) (hroom : bits.length ≤ 8 * 2 ^ 32) :
    e'.bitpos = bits.length ∧
    (∀ i < 8 * bytesOfBits bits.length, memBit e'.mem out i = bits.getD i false) ∧
    (∀ a, Outside out (bytesOfBits bits.length) a → Mem.read e'.mem a = Mem.read m0 a) ∧
    (MemOk m0 → MemOk e'.mem) ∧ Backed p out (bytesOfBits bits.length) := by
  have hdm := Nat.div_add_mod bits.length 8
  simp only [flush, hp.bitpos] at h
  split at h
  · next hc =>
    cases h
    have hb : bytesOfBits bits.length = bits.length / 8 := by unfold bytesOfBits; omega
    rw [hb]
    exact ⟨hp.bitpos, hp.done, hp.frame, hp.memOk, hp.backed⟩
  · next hc =>
    have hb : bytesOfBits bits.length = bits.length / 8 + 1 := by unfold bytesOfBits; omega
    split at h
    · cases h
    · next m hw =>
      obtain ⟨hval, rfl⟩ := memWrite_ok.mp hw
      cases h
      rw [hb]
      refine ⟨rfl, ?_, ?_, fun hm => memOk_write _ _ (hp.memOk hm), ?_⟩
      · intro i hi
        by_cases hl : i < 8 * (bits.length / 8)
        · rw [← hp.done i hl, memBit, memBit, Mem.read_write_other]
          intro heq
          have := addr_inj (by omega) (by omega) heq
          omega
        · have hi8 : i / 8 = bits.length / 8 := by omega
          rw [memBit, hi8, Mem.read_write_same, hp.acc (i % 8) (by omega)]
          congr 1
          omega
      · intro a ha
        rw [Mem.read_write_other _ _ (ha _ (Nat.lt_succ_self _))]
        exact hp.frame a fun i hi => ha i (Nat.lt_succ_of_lt hi)
      · intro b hb'
        rcases Nat.lt_succ_iff_lt_or_eq.mp hb' with hb' | rfl
        · exact hp.backed b hb'
        · exact hval

/-- The last byte is written where it is backed. -/
theorem flush_backed {p : Params} {out : Word} {e : Packing}
    (h : ∀ b < bytesOfBits e.bitpos, memValid p (addr out b) = true) : ∃ e', flush p out e = .ok e' := by
  simp only [flush]
  split
  · exact ⟨e, rfl⟩
  · next hc =>
    simp [memWrite, h (e.bitpos / 8) (by unfold bytesOfBits; omega)]

theorem flush_error {p : Params} {out : Word} {e : Packing} {r : Refusal} (h : flush p out e = .error r) :
    r = .unbackedAddress := by
  simp only [flush] at h
  split at h
  · cases h
  · split at h
    · next he => cases h; exact (memWrite_error.mp he).2
    · cases h

/-! ### ENC's loop -/

/-- The status `ENC` ends with on a message, from a bit count of `total` on: the first symbol at which an error
applies decides it (R133, R134, R137, R174). -/
def encVerdict (t : CodeTable) (cap : Nat) : List Byte → Nat → Status
  | [], _ => .ok
  | s :: m, total =>
    match encCheck cap total (tableEntry t s).len.val with
    | .ok => encVerdict t cap m (total + (tableEntry t s).len.val)
    | st => st

theorem encCheck_ok {cap total len : Nat} :
    encCheck cap total len = .ok ↔ len ≠ 0 ∧ total + len ≤ 8 * cap ∧ total + len ≤ 2 ^ 32 - 1 := by
  unfold encCheck
  split
  · simp_all
  · split
    · simp; omega
    · split
      · simp; omega
      · simp; omega

/-- `ENC` succeeds on a message exactly when every symbol is present and the bits fit the buffer and the result
word (R133, R134, R137). -/
theorem encVerdict_ok {t : CodeTable} {cap : Nat} {m : List Byte} {total : Nat}
    (h0 : total ≤ 8 * cap) (h1 : total ≤ 2 ^ 32 - 1) :
    encVerdict t cap m total = .ok ↔
      AllPresent t m ∧ total + bitCount t m ≤ 8 * cap ∧ total + bitCount t m ≤ 2 ^ 32 - 1 := by
  induction m generalizing total with
  | nil => exact ⟨fun _ => ⟨(fun _ h => by cases h), by simpa using h0, by simpa using h1⟩, fun _ => rfl⟩
  | cons s m ih =>
    by_cases hc : encCheck cap total (tableEntry t s).len.val = .ok
    · obtain ⟨hl, h2, h3⟩ := encCheck_ok.mp hc
      simp only [encVerdict, hc, ih h2 h3, bitCount_cons, AllPresent, List.mem_cons, forall_eq_or_imp,
        isPresent, bne_iff_ne, ne_eq, hl, not_false_eq_true, true_and, Nat.add_assoc]
    · have hv : encVerdict t cap (s :: m) total ≠ .ok := by
        cases hst : encCheck cap total (tableEntry t s).len.val <;> simp_all [encVerdict]
      refine ⟨fun h => absurd h hv, fun ⟨hp, h2, h3⟩ => absurd ?_ hc⟩
      rw [bitCount_cons] at h2 h3
      exact encCheck_ok.mpr ⟨by simpa [isPresent] using hp s (List.mem_cons_self ..), by omega, by omega⟩

/-- `ENC`'s loop, if it answers: its status is the verdict on the message in memory; on OK the packing holds the
message's bits after the earlier ones; and in every case no byte outside `outBuffer` has changed (R131, R133,
R137, R138). The message must lie outside `outBuffer` (R145). -/
theorem encLoop_ok {p : Params} {msg out : Word} {cap left i : Nat} {m0 : Mem} {bits : List Bool}
    {e e' : Packing} {st : Status} (h : encLoop p msg out cap left i e = .ok (st, e'))
    (hp : Packed p out m0 bits e) (hcap : cap ≤ 2 ^ 32) (hbits : bits.length ≤ 8 * cap)
    (hmsg : ∀ j < left, Outside out cap (addr msg (i + j)).toNat) :
    st = encVerdict p.table cap
      ((List.range left).map fun j => Mem.read m0 (addr msg (i + j)).toNat) bits.length ∧
    (st = .ok → Packed p out m0 (bits ++ messageBits p.table
      ((List.range left).map fun j => Mem.read m0 (addr msg (i + j)).toNat)) e') ∧
    (∀ j < left, st = .ok → memValid p (addr msg (i + j)) = true) ∧
    ∃ bits', Packed p out m0 bits' e' ∧ bits'.length ≤ 8 * cap := by
  induction left generalizing i e bits with
  | zero =>
    cases h
    exact ⟨rfl, fun _ => by simpa using hp, by simp, bits, hp, hbits⟩
  | succ left ih =>
    simp only [encLoop] at h
    split at h
    · cases h
    · next s hs =>
      obtain ⟨hv, hs⟩ := memRead_ok.mp hs
      have hs0 : s = Mem.read m0 (addr msg (i + 0)).toNat := by
        rw [hs, Nat.add_zero]
        refine hp.frame _ fun b hb => ?_
        have := hmsg 0 (by omega) b (by omega)
        rwa [Nat.add_zero] at this
      have hlist : ((List.range (left + 1)).map fun j => Mem.read m0 (addr msg (i + j)).toNat) =
          s :: (List.range left).map fun j => Mem.read m0 (addr msg (i + 1 + j)).toNat := by
        rw [List.range_succ_eq_map, List.map_cons, List.map_map, ← hs0]
        congr 1
        refine List.map_congr_left fun j _ => ?_
        simp only [Function.comp_apply, Nat.succ_eq_add_one]
        rw [show i + (j + 1) = i + 1 + j by omega]
      rw [hlist]
      split at h
      · next hc =>
        obtain ⟨_, h2, _⟩ := encCheck_ok.mp hc
        rw [hp.bitpos] at h2 hc
        split at h
        · cases h
        · next e1 h1 =>
          have hp1 := packCode_ok h1 hp (by omega)
          rw [lowBits_code] at hp1
          obtain ⟨r1, r2, r3, r4⟩ := ih h hp1 (by simpa using h2) fun j hj => by
            rw [show i + 1 + j = i + (j + 1) by omega]; exact hmsg (j + 1) (by omega)
          refine ⟨?_, ?_, ?_, r4⟩
          · simpa [encVerdict, hc] using r1
          · intro hok
            simpa [List.append_assoc] using r2 hok
          · rintro (_ | j) hj hok
            · exact hv
            · have := r3 j (by omega) hok
              rwa [show i + (j + 1) = i + 1 + j by omega]
      · next hne =>
        cases h
        rw [hp.bitpos] at hne
        refine ⟨?_, fun hok => absurd hok ?_, fun j _ hok => absurd hok ?_, bits, hp, hbits⟩
        · cases hst : encCheck cap bits.length (tableEntry p.table s).len.val <;>
            simp_all [encVerdict, hp.bitpos]
        · rw [hp.bitpos]; exact hne
        · rw [hp.bitpos]; exact hne

/-- `ENC`'s loop answers where the message is backed, and every byte that the message completes within the
buffer. -/
theorem encLoop_backed {p : Params} {msg out : Word} {cap left i : Nat} {m0 : Mem} {bits : List Bool}
    {e : Packing} (hp : Packed p out m0 bits e) (hcap : cap ≤ 2 ^ 32) (hbits : bits.length ≤ 8 * cap)
    (hmsg : ∀ j < left, Outside out cap (addr msg (i + j)).toNat)
    (hv : ∀ j < left, memValid p (addr msg (i + j)) = true)
    (hout : ∀ b < cap, 8 * (b + 1) ≤ bits.length + bitCount p.table
      ((List.range left).map fun j => Mem.read m0 (addr msg (i + j)).toNat) →
      memValid p (addr out b) = true) :
    ∃ r, encLoop p msg out cap left i e = .ok r := by
  induction left generalizing i e bits with
  | zero => exact ⟨_, rfl⟩
  | succ left ih =>
    have hs0 : Mem.read e.mem (addr msg i).toNat = Mem.read m0 (addr msg (i + 0)).toNat := by
      rw [Nat.add_zero]
      refine hp.frame _ fun b hb => ?_
      have := hmsg 0 (by omega) b (by omega)
      rwa [Nat.add_zero] at this
    have hread : memRead p e.mem (addr msg i) = .ok (Mem.read m0 (addr msg (i + 0)).toNat) :=
      memRead_ok.mpr ⟨by simpa using hv 0 (by omega), hs0.symm⟩
    have hlist : ((List.range (left + 1)).map fun j => Mem.read m0 (addr msg (i + j)).toNat) =
        Mem.read m0 (addr msg (i + 0)).toNat ::
          (List.range left).map fun j => Mem.read m0 (addr msg (i + 1 + j)).toNat := by
      rw [List.range_succ_eq_map, List.map_cons, List.map_map]
      congr 1
      refine List.map_congr_left fun j _ => ?_
      simp only [Function.comp_apply, Nat.succ_eq_add_one]
      rw [show i + (j + 1) = i + 1 + j by omega]
    rw [hlist, bitCount_cons] at hout
    simp only [encLoop, hread]
    split
    · next hc =>
      obtain ⟨_, h2, _⟩ := encCheck_ok.mp hc
      rw [hp.bitpos] at h2
      obtain ⟨e1, h1⟩ := packCode_backed (p := p) (out := out) (e := e)
        (code := (tableEntry p.table (Mem.read m0 (addr msg (i + 0)).toNat)).code)
        (j := (tableEntry p.table (Mem.read m0 (addr msg (i + 0)).toNat)).len.val)
        fun b hb => hout b (by rw [hp.bitpos] at hb; omega) (by rw [hp.bitpos] at hb; omega)
      have hp1 := packCode_ok h1 hp (by omega)
      simp only [h1]
      refine ih hp1 (by simpa using h2)
        (fun j hj => by rw [show i + 1 + j = i + (j + 1) by omega]; exact hmsg (j + 1) (by omega))
        (fun j hj => by rw [show i + 1 + j = i + (j + 1) by omega]; exact hv (j + 1) (by omega))
        fun b hb h8 => hout b hb ?_
      simpa [Nat.add_assoc] using h8
    · exact ⟨_, rfl⟩

theorem encLoop_error {p : Params} {msg out : Word} {cap left i : Nat} {e : Packing} {r : Refusal}
    (h : encLoop p msg out cap left i e = .error r) : r = .unbackedAddress := by
  induction left generalizing i e with
  | zero => cases h
  | succ left ih =>
    simp only [encLoop] at h
    split at h
    · next he => cases h; exact (memRead_error.mp he).2
    · split at h
      · split at h
        · next he => cases h; exact packCode_error he
        · exact ih h
      · cases h

/-- A message whose first part passes is judged on the rest, from the bits counted so far (R131, R174). -/
theorem encVerdict_append {t : CodeTable} {cap : Nat} (xs ys : List Byte) (n : Nat)
    (h : encVerdict t cap xs n = .ok) :
   encVerdict t cap (xs ++ ys) n = encVerdict t cap ys (n + bitCount t xs) := by
  induction xs generalizing n with
  | nil => simp
  | cons x xs ih =>
    simp only [encVerdict, List.cons_append] at h ⊢
    split at h
    · rename_i hh
      simp only [ih _ h, bitCount_cons, Nat.add_assoc]
    · rename_i hh; exact absurd h hh

/-- When the first `k` symbols pass and symbol `k` does not, the loop answers once these `k + 1` symbols and the
buffer are backed: it looks no further (R131, R174). -/
theorem encLoop_stops {p : Params} {msg out : Word} {cap : Nat} {m0 : Mem} {left i k : Nat} {bits : List Bool}
    {e : Packing}
    (hk : k < left) (hp : Packed p out m0 bits e) (hbits : bits.length ≤ 8 * cap)
    (hmsg : ∀ j < left, Outside out cap (addr msg (i + j)).toNat)
    (hv : ∀ j ≤ k, memValid p (addr msg (i + j)) = true)
    (hout : Backed p out cap)
    (hok : encVerdict p.table cap
      ((List.range k).map fun j => Mem.read m0 (addr msg (i + j)).toNat) bits.length = .ok)
    (hbad : encVerdict p.table cap
      ((List.range (k + 1)).map fun j => Mem.read m0 (addr msg (i + j)).toNat) bits.length ≠ .ok) :
    ∃ r, encLoop p msg out cap left i e = .ok r := by
  induction k generalizing left i bits e with
  | zero =>
    obtain ⟨n, rfl⟩ : ∃ n, left = n + 1 := ⟨left - 1, by omega⟩
    simp only [encLoop]
    have hr : memRead p e.mem (addr msg i) = .ok (Mem.read m0 (addr msg i).toNat) := by
      rw [memRead_ok]
      refine ⟨by simpa using hv 0 (by omega), ?_⟩
      refine (hp.frame _ ?_).symm
      intro t ht
      have := hmsg 0 (by omega) t (by omega)
      simpa using this
    rw [hr]
    simp only
    simp [encVerdict] at hbad
    rw [hp.bitpos]
    split
    · rename_i hh; rw [hh] at hbad; simp at hbad
    · exact ⟨_, rfl⟩
  | succ k ih =>
    obtain ⟨n, rfl⟩ : ∃ n, left = n + 1 := ⟨left - 1, by omega⟩
    simp only [encLoop]
    have hr : memRead p e.mem (addr msg i) = .ok (Mem.read m0 (addr msg i).toNat) := by
      rw [memRead_ok]
      refine ⟨by simpa using hv 0 (by omega), ?_⟩
      refine (hp.frame _ ?_).symm
      intro t ht
      have := hmsg 0 (by omega) t (by omega)
      simpa using this
    rw [hr]
    simp only
    rw [hp.bitpos]
    have shift : ∀ k, (List.range (k + 1)).map (fun j => Mem.read m0 (addr msg (i + j)).toNat) =
        Mem.read m0 (addr msg i).toNat ::
          (List.range k).map (fun j => Mem.read m0 (addr msg (i + 1 + j)).toNat) := by
      intro k
      rw [List.range_succ_eq_map]; simp [Function.comp_def, Nat.add_assoc, Nat.add_comm 1]
    rw [shift] at hok hbad
    simp only [encVerdict] at hok hbad
    split
    · rename_i hh
      rw [hh] at hok hbad
      simp only at hok hbad
      have hc := encCheck_ok.1 hh
      have hb : ∃ e', packCode p out (tableEntry p.table (Mem.read m0 (addr msg i).toNat)).code
          (tableEntry p.table (Mem.read m0 (addr msg i).toNat)).len.val e = .ok e' := by
        apply packCode_backed
        intro b h8
        rw [hp.bitpos] at h8
        exact hout b (by omega)
      obtain ⟨e', he⟩ := hb
      rw [he]
      have hp' := packCode_ok he hp (by omega)
      refine ih (bits := _) (by omega) hp' ?_ ?_ ?_ ?_ ?_
      · simp; omega
      · intro j hj; have := hmsg (j+1) (by omega); rwa [show i + (j+1) = i + 1 + j by omega] at this
      · intro j hj; have := hv (j+1) (by omega); rwa [show i + (j+1) = i + 1 + j by omega] at this
      · simpa using hok
      · simpa using hbad
    · exact ⟨_, rfl⟩

/-! ### Reading symbols -/

theorem streamBit_ok {p : Params} {m : Mem} {encoded : Word} {pos : Nat} {bit : Bool} :
    streamBit p m encoded pos = .ok bit ↔
      memValid p (addr encoded (pos / 8)) = true ∧ bit = memBit m encoded pos := by
  unfold streamBit memRead
  cases hv : memValid p (addr encoded (pos / 8)) <;> simp [memBit, eq_comm]

theorem streamBit_error {p : Params} {m : Mem} {encoded : Word} {pos : Nat} {r : Refusal}
    (h : streamBit p m encoded pos = .error r) :
    r = .unbackedAddress ∧ memValid p (addr encoded (pos / 8)) = false := by
  unfold streamBit memRead at h
  cases hv : memValid p (addr encoded (pos / 8)) <;> simp [hv] at h
  exact ⟨h.symm, rfl⟩

/-- One symbol, from an accumulation of `l` bits on: it ends at the first codeword the stream has, or, after
`left` more bits, in a dead end with no codeword; it stops early only at an unbacked byte (R136, R139). -/
theorem decSymbol_result {p : Params} {m : Mem} {encoded : Word} {left l start : Nat} {acc : Word}
    (hshape : ∀ x ∈ p.table, x.2.len.val ≠ 0 ∧ x.2.code.toNat < 2 ^ x.2.len.val)
    (hacc : AccHolds m encoded start l acc) (hl : l + left ≤ 32) :
    (∃ s e, decSymbol p m encoded left acc l (start + l) = .ok (some s, start + e.len.val) ∧
      (s, e) ∈ p.table ∧ l < e.len.val ∧ e.len.val ≤ l + left ∧ StreamHas m encoded start (codeBits e) ∧
      ∀ i, l ≤ i → i < e.len.val → memValid p (addr encoded ((start + i) / 8)) = true) ∨
    (decSymbol p m encoded left acc l (start + l) = .ok (none, start + l + left) ∧
      (∀ x ∈ p.table, l < x.2.len.val → x.2.len.val ≤ l + left → ¬ StreamHas m encoded start (codeBits x.2)) ∧
      ∀ i, l ≤ i → i < l + left → memValid p (addr encoded ((start + i) / 8)) = true) ∨
    (decSymbol p m encoded left acc l (start + l) = .error .unbackedAddress ∧
      ∃ i, l ≤ i ∧ i < l + left ∧ memValid p (addr encoded ((start + i) / 8)) = false ∧
      ∀ x ∈ p.table, l < x.2.len.val → x.2.len.val ≤ i → ¬ StreamHas m encoded start (codeBits x.2)) := by
  induction left generalizing l acc with
  | zero =>
    refine .inr (.inl ⟨rfl, fun x _ h1 h2 => by omega, fun i h1 h2 => by omega⟩)
  | succ left ih =>
    simp only [decSymbol]
    split
    · next r hr =>
      obtain ⟨rfl, hv⟩ := streamBit_error hr
      exact .inr (.inr ⟨rfl, l, Nat.le_refl _, by omega, hv, fun x _ h1 h2 => by omega⟩)
    · next bit hb =>
      obtain ⟨hv, hbit⟩ := streamBit_ok.mp hb
      have hacc' := hacc.step (by omega) hbit
      split
      · next s hs =>
        obtain ⟨e, he, hlen, hcode, _⟩ := tableMatch_some hs
        refine .inl ⟨s, e, by rw [hlen, Nat.add_assoc], he, by omega, by omega, ?_, ?_⟩
        · rw [← hlen] at hacc'
          exact (hacc'.code_iff (hshape _ he).2).mp hcode
        · intro i h1 h2
          rw [show i = l by omega]; exact hv
      · next hs =>
        have hno : ∀ x ∈ p.table, x.2.len.val = l + 1 → ¬ StreamHas m encoded start (codeBits x.2) := by
          intro x hx hlen hst
          refine tableMatch_none hs x hx ⟨(hshape x hx).1, hlen, ?_⟩
          rw [← hlen] at hacc'
          exact (hacc'.code_iff (hshape x hx).2).mpr hst
        rcases ih hacc' (by omega) with ⟨s, e, h1, h2, h3, h4, h5, h6⟩ | ⟨h1, h2, h3⟩ | ⟨h1, i, h2, h3, h4, h5⟩
        · refine .inl ⟨s, e, h1, h2, by omega, by omega, h5, fun i hi hi' => ?_⟩
          by_cases hil : i = l
          · rw [hil]; exact hv
          · exact h6 i (by omega) hi'
        · refine .inr (.inl ⟨by rw [show start + l + (left + 1) = start + (l + 1) + left by omega]; exact h1,
            fun x hx hx1 hx2 => ?_, fun i hi hi' => ?_⟩)
          · by_cases hxl : x.2.len.val = l + 1
            · exact hno x hx hxl
            · exact h2 x hx (by omega) (by omega)
          · by_cases hil : i = l
            · rw [hil]; exact hv
            · exact h3 i (by omega) (by omega)
        · refine .inr (.inr ⟨h1, i, by omega, by omega, h4, fun x hx hx1 hx2 => ?_⟩)
          by_cases hxl : x.2.len.val = l + 1
          · exact hno x hx hxl
          · exact h5 x hx (by omega) hx2

/-- The codeword at the front of the stream is the symbol read, if its bytes are backed (R136, R140). -/
theorem decSymbol_reads {p : Params} (hwf : tableWf p.table = true) {m : Mem} {encoded : Word} {start : Nat} {s : Byte}
    (hs : isPresent p.table s = true) (hst : StreamHas m encoded start (codeBits (tableEntry p.table s)))
    (hv : ∀ i < (tableEntry p.table s).len.val, memValid p (addr encoded ((start + i) / 8)) = true) :
    decSymbol p m encoded (lmax p.table) 0 0 start = .ok (some s, start + (tableEntry p.table s).len.val) := by
  obtain ⟨_, hrise, hshape, _⟩ := tableWf_iff.mp hwf
  have hmem := mem_of_present hs
  have hle := le_lmax hmem
  have hne := (hshape _ hmem).1
  simp only at hle hne
  rcases decSymbol_result (p := p) (m := m) (encoded := encoded) (left := lmax p.table) (l := 0) (start := start)
      hshape (AccHolds.zero m encoded start) (by have := lmax_le p.table; omega) with
    ⟨s', e, h1, h2, _, _, h5, _⟩ | ⟨_, h2, _⟩ | ⟨_, i, _, hi, hi', h5⟩
  · have := codeword_unique hwf h2 hmem h5 hst
    cases this; exact h1
  · exact absurd hst (h2 _ hmem (Nat.pos_of_ne_zero hne) (by simp only; omega))
  · by_cases hil : i < (tableEntry p.table s).len.val
    · rw [hv i hil] at hi'; cases hi'
    · exact absurd hst (h5 _ hmem (Nat.pos_of_ne_zero hne) (by simp only; omega))

/-- As long as the stream goes on with codewords in backed bytes, their symbols are what is read (R136). -/
theorem decLoop_reads {p : Params} (hwf : tableWf p.table = true) {m : Mem} {encoded : Word} {left pos : Nat}
    {found ms : List Byte} (hp : AllPresent p.table ms)
    (hst : StreamHas m encoded pos (messageBits p.table ms))
    (hv : ∀ i < bitCount p.table ms, memValid p (addr encoded ((pos + i) / 8)) = true) :
    decLoop p m encoded (ms.length + left) found pos =
      decLoop p m encoded left (found ++ ms) (pos + bitCount p.table ms) := by
  induction ms generalizing found pos with
  | nil => simp
  | cons s ms ih =>
    rw [messageBits_cons, streamHas_append, codeBits_length] at hst
    rw [bitCount_cons] at hv
    have h1 := decSymbol_reads hwf (hp s (List.mem_cons_self ..)) hst.1 fun i hi => hv i (by omega)
    rw [List.length_cons, show ms.length + 1 + left = (ms.length + left) + 1 by omega]
    simp only [decLoop, h1]
    rw [ih (fun x hx => hp x (List.mem_cons_of_mem _ hx)) hst.2 fun i hi => by
      rw [Nat.add_assoc]; exact hv _ (by omega)]
    simp [Nat.add_assoc]

/-- `DEC`'s reading: the symbols found are present, their codewords are what the stream holds, and the reading
ends with as many symbols as asked for or in a dead end; it stops early only at an unbacked byte (R136, R139,
R146, R147). -/
theorem decLoop_result {p : Params} (hwf : tableWf p.table = true) {m : Mem} {encoded : Word} {left : Nat}
    {found : List Byte} {pos : Nat} :
    (∃ run, decLoop p m encoded left found pos = .ok run ∧
      ∃ syms, run.symbols = found ++ syms ∧ AllPresent p.table syms ∧
        StreamHas m encoded pos (messageBits p.table syms) ∧
        (run.deadEnd = false → syms.length = left ∧ run.bitpos = pos + bitCount p.table syms) ∧
        (run.deadEnd = true → syms.length < left ∧
          run.bitpos = pos + bitCount p.table syms + lmax p.table ∧
          NoCodeword p.table m encoded (pos + bitCount p.table syms)) ∧
        ∀ i, pos ≤ i → i < run.bitpos → memValid p (addr encoded (i / 8)) = true) ∨
    decLoop p m encoded left found pos = .error .unbackedAddress := by
  obtain ⟨_, hrise, hshape, _⟩ := tableWf_iff.mp hwf
  induction left generalizing found pos with
  | zero =>
    refine .inl ⟨⟨found, pos, false⟩, rfl, [], by simp, (fun _ h => by cases h), fun i hi => absurd hi (Nat.not_lt_zero i),
      by simp, by simp, ?_⟩
    intro i h1 h2
    exact absurd h2 (Nat.not_lt.mpr h1)
  | succ left ih =>
    rcases decSymbol_result (p := p) (m := m) (encoded := encoded) (left := lmax p.table) (l := 0)
        (start := pos) hshape (AccHolds.zero m encoded pos) (by have := lmax_le p.table; omega) with
      ⟨s, e, h1, h2, _, _, h5, h6⟩ | ⟨h1, h2, h3⟩ | ⟨h1, _⟩
    · rw [Nat.add_zero] at h1
      have hentry : tableEntry p.table s = e := tableEntry_of_mem hrise h2
      simp only [decLoop, h1]
      rcases ih (found := found ++ [s]) (pos := pos + e.len.val) with
        ⟨run, hr, syms, g1, g2, g3, g4, g5, g6⟩ | hr
      · refine .inl ⟨run, hr, s :: syms, by rw [g1, List.append_assoc]; rfl, ?_, ?_, ?_, ?_, ?_⟩
        · intro x hx
          rcases List.mem_cons.mp hx with rfl | hx
          · simp [isPresent, hentry, (hshape _ h2).1]
          · exact g2 x hx
        · rw [messageBits_cons, streamHas_append, hentry, codeBits_length]
          exact ⟨h5, g3⟩
        · intro hd
          obtain ⟨a, b⟩ := g4 hd
          rw [bitCount_cons, hentry]
          exact ⟨by simp [a], by omega⟩
        · intro hd
          obtain ⟨a, b, c⟩ := g5 hd
          rw [bitCount_cons, hentry, ← Nat.add_assoc]
          exact ⟨by simp [a], b, c⟩
        · intro i hi hi'
          by_cases hie : i < pos + e.len.val
          · have := h6 (i - pos) (by omega) (by omega)
            rwa [show pos + (i - pos) = i by omega] at this
          · exact g6 i (by omega) hi'
      · exact .inr hr
    · rw [Nat.add_zero] at h1
      simp only [decLoop, h1]
      refine .inl ⟨⟨found, pos + lmax p.table, true⟩, rfl, [], by simp, (fun _ h => by cases h),
        fun i hi => absurd hi (Nat.not_lt_zero i), by simp, ?_, ?_⟩
      · intro _
        refine ⟨by simp, by simp, fun x hx => ?_⟩
        have := h2 x hx (Nat.pos_of_ne_zero (hshape x hx).1) (by have := le_lmax hx; omega)
        simpa using this
      · intro i hi hi'
        have := h3 (i - pos) (by omega) (by simp only at hi'; omega)
        rwa [show pos + (i - pos) = i by omega] at this
    · rw [Nat.add_zero] at h1
      exact .inr (by simp only [decLoop, h1])

/-- Two messages of the same length whose bits the stream begins with are the same message (R140, R147). -/
theorem parse_unique {t : CodeTable} (hwf : tableWf t = true) {m : Mem} {base : Word} {start : Nat}
    {xs ys : List Byte} (hx : AllPresent t xs) (hy : AllPresent t ys) (hl : xs.length = ys.length)
    (sx : StreamHas m base start (messageBits t xs)) (sy : StreamHas m base start (messageBits t ys)) :
    xs = ys := by
  induction xs generalizing ys start with
  | nil => exact (List.length_eq_zero_iff.mp hl.symm).symm
  | cons x xs ih =>
    cases ys with
    | nil => cases hl
    | cons y ys =>
      rw [messageBits_cons, streamHas_append, codeBits_length] at sx sy
      have hxy := codeword_unique hwf (mem_of_present (hx x (List.mem_cons_self ..)))
        (mem_of_present (hy y (List.mem_cons_self ..))) sx.1 sy.1
      have h1 : x = y := congrArg Prod.fst hxy
      subst h1
      rw [ih (fun s hs => hx s (List.mem_cons_of_mem _ hs)) (fun s hs => hy s (List.mem_cons_of_mem _ hs))
        (by simpa using hl) sx.2 sy.2]

/-! ### What a reading depends on -/

/-- The two memories have the same bits in the stream at `base`, from bit `lo` up to bit `hi`. -/
abbrev SameBits (m m' : Mem) (base : Word) (lo hi : Nat) : Prop :=
  ∀ i, lo ≤ i → i < hi → memBit m' base i = memBit m base i

/-- All bits from `lo` up to `hi` lie in backed bytes of the stream at `base`. -/
abbrev BackedBits (p : Params) (base : Word) (lo hi : Nat) : Prop :=
  ∀ i, lo ≤ i → i < hi → memValid p (addr base (i / 8)) = true

/-- One symbol, in whichever way it ends: it has read all bits up to where it ends, or up to the unbacked byte it
stopped at, and any memory with those bits gives the same (R136, R146). -/
theorem decSymbol_reads_upto {p : Params} {m : Mem} {encoded : Word} {left l pos : Nat} {acc : Word} :
    (∃ o e, pos ≤ e ∧ e ≤ pos + left ∧ BackedBits p encoded pos e ∧
      ∀ m', SameBits m m' encoded pos e → decSymbol p m' encoded left acc l pos = .ok (o, e)) ∨
    (∃ q, pos ≤ q ∧ q < pos + left ∧ BackedBits p encoded pos q ∧ memValid p (addr encoded (q / 8)) = false ∧
      ∀ m', SameBits m m' encoded pos q →
        decSymbol p m' encoded left acc l pos = .error .unbackedAddress) := by
  induction left generalizing l pos acc with
  | zero => exact .inl ⟨none, pos, Nat.le_refl _, Nat.le_refl _, fun i h h' => by omega, fun _ _ => rfl⟩
  | succ left ih =>
    cases hv : memValid p (addr encoded (pos / 8))
    · refine .inr ⟨pos, Nat.le_refl _, by omega, fun i h h' => by omega, hv, fun m' _ => ?_⟩
      simp [decSymbol, streamBit, memRead, hv]
    have step : ∀ m' q, SameBits m m' encoded pos q → pos < q →
        streamBit p m' encoded pos = .ok (memBit m encoded pos) := fun m' q h hq =>
      streamBit_ok.mpr ⟨hv, (h pos (Nat.le_refl _) hq).symm⟩
    cases hm : tableMatch p.table
        ((acc <<< 1) ||| (BitVec.ofBool (memBit m encoded pos)).setWidth 32) (l + 1) with
    | some s =>
      refine .inl ⟨some s, pos + 1, by omega, by omega, fun i h h' => ?_, fun m' h => ?_⟩
      · rw [show i = pos by omega]; exact hv
      · simp [decSymbol, step m' _ h (Nat.lt_succ_self _), hm]
    | none =>
      have rest : ∀ q, pos + 1 ≤ q → BackedBits p encoded (pos + 1) q → BackedBits p encoded pos q :=
        fun q _ hb i h h' => by
          by_cases hi : i = pos
          · rw [hi]; exact hv
          · exact hb i (by omega) h'
      rcases ih (l := l + 1) (pos := pos + 1)
          (acc := (acc <<< 1) ||| (BitVec.ofBool (memBit m encoded pos)).setWidth 32) with
        ⟨o, e, h1, h2, h3, h4⟩ | ⟨q, h1, h2, h3, h4, h5⟩
      · refine .inl ⟨o, e, by omega, by omega, rest e h1 h3, fun m' h => ?_⟩
        simp only [decSymbol, step m' e h (by omega), hm]
        exact h4 m' fun i hi hi' => h i (by omega) hi'
      · refine .inr ⟨q, by omega, by omega, rest q h1 h3, h4, fun m' h => ?_⟩
        simp only [decSymbol, step m' q h (by omega), hm]
        exact h5 m' fun i hi hi' => h i (by omega) hi'

/-- `DEC`'s reading, in whichever way it ends: it has read all bits up to where it ends, or up to the unbacked byte
it stopped at, and any memory with those bits gives the same reading (R136, R146). -/
theorem decLoop_reads_upto {p : Params} {m : Mem} {encoded : Word} {left pos : Nat} {found : List Byte} :
    (∃ run, pos ≤ run.bitpos ∧ run.bitpos ≤ pos + left * lmax p.table ∧ BackedBits p encoded pos run.bitpos ∧
      ∀ m', SameBits m m' encoded pos run.bitpos → decLoop p m' encoded left found pos = .ok run) ∨
    (∃ q, pos ≤ q ∧ q < pos + left * lmax p.table ∧ BackedBits p encoded pos q ∧
      memValid p (addr encoded (q / 8)) = false ∧
      ∀ m', SameBits m m' encoded pos q → decLoop p m' encoded left found pos = .error .unbackedAddress) := by
  induction left generalizing pos found with
  | zero => exact .inl ⟨⟨found, pos, false⟩, Nat.le_refl _, by simp, fun i h h' => by simp at h'; omega, fun _ _ => rfl⟩
  | succ left ih =>
    rw [Nat.succ_mul]
    rcases decSymbol_reads_upto (p := p) (m := m) (encoded := encoded) (left := lmax p.table) (l := 0) (pos := pos)
        (acc := 0) with ⟨o, e, h1, h2, h3, h4⟩ | ⟨q, h1, h2, h3, h4, h5⟩
    · cases o with
      | none =>
        refine .inl ⟨⟨found, e, true⟩, h1, by simp only; omega, h3, fun m' h => ?_⟩
        simp only [decLoop, h4 m' h]
      | some s =>
        have join : ∀ q, e ≤ q → BackedBits p encoded e q → BackedBits p encoded pos q := fun q _ hb i h h' => by
          by_cases hi : i < e
          · exact h3 i h hi
          · exact hb i (by omega) h'
        rcases ih (pos := e) (found := found ++ [s]) with ⟨run, g1, g2, g3, g4⟩ | ⟨q, g1, g2, g3, g4, g5⟩
        · refine .inl ⟨run, by omega, by omega, join _ g1 g3, fun m' h => ?_⟩
          simp only [decLoop, h4 m' fun i hi hi' => h i hi (by omega)]
          exact g4 m' fun i hi hi' => h i (by omega) hi'
        · refine .inr ⟨q, by omega, by omega, join q g1 g3, g4, fun m' h => ?_⟩
          simp only [decLoop, h4 m' fun i hi hi' => h i hi (by omega)]
          exact g5 m' fun i hi hi' => h i (by omega) hi'
    · refine .inr ⟨q, h1, by omega, h3, h4, fun m' h => ?_⟩
      simp only [decLoop, h5 m' h]

/-- `backedRun` finds the first unbacked byte, if it looks that far. -/
theorem backedRun_eq {p : Params} {base : Word} {left i b : Nat} (hi : i ≤ b) (hb : b < i + left)
    (hv : ∀ j, i ≤ j → j < b → memValid p (addr base j) = true) (hn : memValid p (addr base b) = false) :
    backedRun p base left i = b := by
  induction left generalizing i with
  | zero => omega
  | succ left ih =>
    by_cases h : i = b
    · simp [backedRun, h, hn]
    · simp only [backedRun, hv i (Nat.le_refl _) (by omega), if_true]
      exact ih (by omega) (by omega) fun j h1 h2 => hv j (by omega) h2

/-- The bytes a `DEC` reads determine its whole reading, and which bytes they are: a memory that agrees on them
gives the same reading and the same span (R146, R210). -/
theorem readSpan_agree {p : Params} {m m' : Mem} {encoded count : Word}
    (h : ∀ a : Word, (readSpan p m encoded count).holds a = true → Mem.read m' a.toNat = Mem.read m a.toNat) :
    decLoop p m' encoded count.toNat [] 0 = decLoop p m encoded count.toNat [] 0 ∧
      readSpan p m' encoded count = readSpan p m encoded count := by
  have bits : ∀ {n q : Nat}, readSpan p m encoded count = ⟨encoded, n⟩ → q ≤ 8 * n →
      SameBits m m' encoded 0 q := fun {n q} he hq i _ hi => by
    rw [memBit, memBit, h]
    rw [he]
    exact holds_iff.mpr ⟨i / 8, by show i / 8 < n; omega, rfl⟩
  have loop : decLoop p m' encoded count.toNat [] 0 = decLoop p m encoded count.toNat [] 0 := by
    rcases decLoop_reads_upto (p := p) (m := m) (encoded := encoded) (left := count.toNat) (pos := 0)
        (found := []) with ⟨run, -, -, -, g⟩ | ⟨q, -, g2, g3, g4, g⟩
    · have hm := g m fun _ _ _ => rfl
      rw [hm]
      refine g m' (bits (n := bytesOfBits run.bitpos) (by simp only [readSpan, hm]) ?_)
      unfold bytesOfBits; omega
    · have hm := g m fun _ _ _ => rfl
      rw [hm]
      have hrun : backedRun p encoded (bytesOfBits (count.toNat * lmax p.table)) 0 = q / 8 :=
        backedRun_eq (Nat.zero_le _) (by unfold bytesOfBits; omega)
          (fun j _ hj => by
            have := g3 (8 * j) (Nat.zero_le _) (by omega)
            rwa [Nat.mul_div_cancel_left _ (by decide)] at this) g4
      refine g m' (bits (n := q / 8 + 1) (by simp only [readSpan, hm, hrun]) (by omega))
  exact ⟨loop, by simp only [readSpan, loop]⟩

end Sys2Proof.Machine
end

