-- ==== Sys2Proof/Laws/Decode.lean ====
section
/-! SUPPORT. What rejects a request (spec/30_encoding.md R87). -/

namespace Sys2Proof

/-- A reserved bit set in the command word is enough. -/
theorem decode_reservedBits {q : Request} (h : q.reserved ≠ 0) : decode q = .error .reservedBits := if_pos h

end Sys2Proof
end

