-- ==== Sys2Proof/Laws/Ring.lean ====
section
/-! SUPPORT. The laws of the ring buffer operations: one byte in, one byte out, and the two transfer loops. -/

namespace Sys2Proof.Machine

/-! ### Capacity and cursors -/

theorem capacity_pos (p : Params) : 0 < capacity p := Nat.two_pow_pos _

/-- `C <= 2^31`, so every count fits a result word (R6, R104). -/
theorem capacity_le (p : Params) : capacity p ≤ 2 ^ 31 :=
  Nat.pow_le_pow_right (by decide) (Nat.lt_succ_iff.mp p.k.isLt)

/-- The mask operation is `(cursor + 1) mod C` (R55, R105). -/
theorem advance_eq (p : Params) (c : Nat) : advance p c = (c + 1) % capacity p := by
  simp only [advance, capacity]
  exact Nat.and_two_pow_sub_one_eq_mod _ _

theorem advance_lt (p : Params) (c : Nat) : advance p c < capacity p := by
  rw [advance_eq]; exact Nat.mod_lt _ (capacity_pos p)

/-- Slots less than `C` apart are different. -/
theorem slot_inj {C r i j : Nat} (hi : i < C) (hj : j < C) (h : (r + i) % C = (r + j) % C) : i = j := by
  have h' : i ≡ j [MOD C] := Nat.ModEq.add_left_cancel' r h
  rwa [Nat.ModEq, Nat.mod_eq_of_lt hi, Nat.mod_eq_of_lt hj] at h'

/-- The tie between the cursors and the length (R23), as the place of the write cursor. -/
theorem cursors_iff {C w r n : Nat} (hw : w < C) (hr : r < C) :
    (w + C - r) % C = n % C ↔ w = (r + n) % C := by
  constructor
  · intro h
    have h1 : (r + (w + C - r)) % C = (r + n) % C := by rw [Nat.add_mod, h, ← Nat.add_mod]
    rw [← h1, show r + (w + C - r) = w + C by omega, Nat.add_mod_right, Nat.mod_eq_of_lt hw]
  · intro h
    have h1 : (r + (w + C - r)) % C = (r + n) % C := by
      rw [show r + (w + C - r) = w + C by omega, Nat.add_mod_right, Nat.mod_eq_of_lt hw, h]
    exact Nat.ModEq.add_left_cancel' r h1

theorem RingBuffer.Inv.write_slot {C : Nat} {b : RingBuffer} (h : b.Inv C) : b.w = (b.r + b.n) % C :=
  (cursors_iff h.1 h.2.1).mp h.2.2.2.2.2.1

theorem RingBuffer.Inv.not_full {C : Nat} {b : RingBuffer} (h : b.Inv C) (hf : b.state ≠ .full) : b.n < C :=
  Nat.lt_of_le_of_ne h.2.2.1 fun e => hf (h.2.2.2.2.1.mpr e)

theorem RingBuffer.Inv.not_empty {C : Nat} {b : RingBuffer} (h : b.Inv C) (hf : b.state ≠ .empty) : 0 < b.n :=
  Nat.pos_of_ne_zero fun e => hf (h.2.2.2.1.mpr e)

theorem RingBuffer.reset_inv {C : Nat} (hC : 0 < C) : RingBuffer.reset.Inv C := by
  refine ⟨hC, hC, Nat.zero_le _, ?_, ?_, ?_, rfl, rfl⟩
  · simp [RingBuffer.reset]
  · simp [RingBuffer.reset]; omega
  · simp [RingBuffer.reset]

/-! ### One byte in -/

@[simp] theorem RingBuffer.push_r (p : Params) (b : RingBuffer) (v : Byte) : (b.push p v).r = b.r := rfl
@[simp] theorem RingBuffer.push_w (p : Params) (b : RingBuffer) (v : Byte) : (b.push p v).w = advance p b.w := rfl
@[simp] theorem RingBuffer.push_n (p : Params) (b : RingBuffer) (v : Byte) : (b.push p v).n = b.n + 1 := rfl
@[simp] theorem RingBuffer.push_store (p : Params) (b : RingBuffer) (v : Byte) :
    (b.push p v).store = Mem.write b.store b.w v := rfl
@[simp] theorem RingBuffer.push_state (p : Params) (b : RingBuffer) (v : Byte) :
    (b.push p v).state = flagAfterEnq (advance p b.w) b.r := rfl

theorem flagAfterEnq_ne_empty (w r : Nat) : flagAfterEnq w r ≠ .empty := by
  unfold flagAfterEnq; split <;> simp

theorem flagAfterDeq_ne_full (w r : Nat) : flagAfterDeq w r ≠ .full := by
  unfold flagAfterDeq; split <;> simp

/-- After a byte went in, the cursors meet exactly when the buffer filled (R108). -/
theorem RingBuffer.Inv.push_meets {p : Params} {b : RingBuffer} (h : b.Inv (capacity p))
    (hn : b.n < capacity p) : advance p b.w = b.r ↔ b.n + 1 = capacity p := by
  have hw : advance p b.w = (b.r + (b.n + 1)) % capacity p := by
    rw [advance_eq, h.write_slot, Nat.mod_add_mod, Nat.add_assoc]
  rw [hw]
  constructor
  · intro e
    by_contra hne
    have e' : (b.r + (b.n + 1)) % capacity p = (b.r + 0) % capacity p := by
      rw [e, Nat.add_zero, Nat.mod_eq_of_lt h.2.1]
    have := slot_inj (by omega) (capacity_pos p) e'
    omega
  · intro e
    rw [e, Nat.add_mod_right, Nat.mod_eq_of_lt h.2.1]

/-- One byte into a buffer that is not full keeps its invariant (R22, R23). -/
theorem RingBuffer.Inv.push {p : Params} {b : RingBuffer} (h : b.Inv (capacity p)) (v : Byte)
    (hf : b.state ≠ .full) : (b.push p v).Inv (capacity p) := by
  have hn := h.not_full hf
  have hmeet := h.push_meets hn
  refine ⟨advance_lt p _, h.2.1, hn, ?_, ?_, ?_, Mem.wf_write _ _ h.2.2.2.2.2.2.1,
    Mem.below_write _ h.2.2.2.2.2.2.2 h.1⟩
  · simp [flagAfterEnq_ne_empty]
  · simp only [push_state, push_n, flagAfterEnq, hmeet]
    split <;> simp_all
  · refine (cursors_iff (advance_lt p _) h.2.1).mpr ?_
    show advance p b.w = (b.r + (b.n + 1)) % capacity p
    rw [advance_eq, h.write_slot, Nat.mod_add_mod, Nat.add_assoc]

/-- A byte put in is the youngest of the live region (R107). -/
theorem RingBuffer.Inv.live_push {p : Params} {b : RingBuffer} (h : b.Inv (capacity p)) (v : Byte)
    (hf : b.state ≠ .full) : (b.push p v).live (capacity p) = b.live (capacity p) ++ [v] := by
  have hn := h.not_full hf
  simp only [RingBuffer.live, push_n, push_r, push_store, List.range_succ, List.map_append, List.map_cons,
    List.map_nil, ← h.write_slot, Mem.read_write_same]
  congr 1
  refine List.map_congr_left fun j hj => ?_
  have hj : j < b.n := List.mem_range.mp hj
  refine Mem.read_write_other _ _ fun e => ?_
  rw [h.write_slot] at e
  have := slot_inj (by omega) hn e
  omega

/-! ### One byte out -/

@[simp] theorem RingBuffer.pop_w (p : Params) (b : RingBuffer) : (b.pop p).w = b.w := rfl
@[simp] theorem RingBuffer.pop_r (p : Params) (b : RingBuffer) : (b.pop p).r = advance p b.r := rfl
@[simp] theorem RingBuffer.pop_n (p : Params) (b : RingBuffer) : (b.pop p).n = b.n - 1 := rfl
@[simp] theorem RingBuffer.pop_store (p : Params) (b : RingBuffer) : (b.pop p).store = b.store := rfl
@[simp] theorem RingBuffer.pop_state (p : Params) (b : RingBuffer) :
    (b.pop p).state = flagAfterDeq b.w (advance p b.r) := rfl

/-- After a byte went out, the cursors meet exactly when the buffer drained (R108). -/
theorem RingBuffer.Inv.pop_meets {p : Params} {b : RingBuffer} (h : b.Inv (capacity p)) (hn : 0 < b.n) :
    b.w = advance p b.r ↔ b.n - 1 = 0 := by
  have hle := h.2.2.1
  rw [advance_eq, h.write_slot]
  constructor
  · intro e
    have e' : (b.r + 1 + (b.n - 1)) % capacity p = (b.r + 1 + 0) % capacity p := by
      rw [show b.r + 1 + (b.n - 1) = b.r + b.n by omega, e, Nat.add_zero]
    exact slot_inj (by omega) (capacity_pos p) e'
  · intro e
    rw [show b.n = 1 by omega]

/-- One byte out of a buffer that is not empty keeps its invariant (R22, R23). -/
theorem RingBuffer.Inv.pop {p : Params} {b : RingBuffer} (h : b.Inv (capacity p)) (hf : b.state ≠ .empty) :
    (b.pop p).Inv (capacity p) := by
  have hn := h.not_empty hf
  have hmeet := h.pop_meets hn
  have hle := h.2.2.1
  refine ⟨h.1, advance_lt p _, show b.n - 1 ≤ _ by omega, ?_, ?_, ?_, h.2.2.2.2.2.2.1, h.2.2.2.2.2.2.2⟩
  · simp only [pop_state, pop_n, flagAfterDeq, hmeet]
    split <;> simp_all
  · simp only [pop_state, flagAfterDeq_ne_full, pop_n, false_iff]
    omega
  · refine (cursors_iff h.1 (advance_lt p _)).mpr ?_
    show b.w = (advance p b.r + (b.n - 1)) % capacity p
    rw [advance_eq, Nat.mod_add_mod, show b.r + 1 + (b.n - 1) = b.r + b.n by omega]
    exact h.write_slot

/-- The byte taken out is the oldest of the live region (R107). -/
theorem RingBuffer.Inv.live_pop {p : Params} {b : RingBuffer} (h : b.Inv (capacity p))
    (hf : b.state ≠ .empty) :
    b.live (capacity p) = b.front :: (b.pop p).live (capacity p) := by
  obtain ⟨n, hn⟩ : ∃ n, b.n = n + 1 := ⟨b.n - 1, by have := h.not_empty hf; omega⟩
  simp only [RingBuffer.live, RingBuffer.front, pop_n, pop_r, pop_store, hn, Nat.add_sub_cancel,
    List.range_succ_eq_map, List.map_cons, List.map_map, Nat.add_zero, Nat.mod_eq_of_lt h.2.1]
  congr 1
  refine List.map_congr_left fun j _ => ?_
  simp only [Function.comp_apply, advance_eq, Nat.mod_add_mod, Nat.succ_eq_add_one]
  rw [show b.r + (j + 1) = b.r + 1 + j by omega]

/-! ### The transfer loops -/

/-- What `ENQ`'s loop can do, in any state: it moves at most the bytes asked for, leaves `r` alone, keeps the
invariant, and stops only at an unbacked source byte. -/
theorem enqLoop_result {p : Params} {m : Mem} {src : Word} {left i : Nat} {b : RingBuffer} :
    (∃ b' i', enqLoop p m src left i b = .ok (b', i') ∧ i ≤ i' ∧ i' ≤ i + left ∧ b'.r = b.r ∧
      b'.n = b.n + (i' - i) ∧
      (b'.state = .empty → b.state = .empty) ∧ (b.Inv (capacity p) → b'.Inv (capacity p))) ∨
    enqLoop p m src left i b = .error .unbackedAddress := by
  induction left generalizing i b with
  | zero => exact .inl ⟨b, i, rfl, Nat.le_refl _, Nat.le_refl _, rfl, by omega, id, id⟩
  | succ left ih =>
    simp only [enqLoop]
    split
    · exact .inl ⟨b, i, rfl, Nat.le_refl _, by omega, rfl, by omega, id, id⟩
    · next hf =>
      split
      · next he => exact .inr (by rw [(memRead_error.mp he).2])
      · next v _ =>
        rcases ih (i := i + 1) (b := b.push p v) with ⟨b', i', h, h1, h2, h3, h4, h5, h6⟩ | h
        · refine .inl ⟨b', i', h, by omega, by omega, h3, ?_, ?_, fun hi => h6 (hi.push v hf)⟩
          · rw [h4, RingBuffer.push_n]; omega
          · intro e; exact absurd (h5 e) (flagAfterEnq_ne_empty _ _)
        · exact .inr h

/-- `ENQ`'s loop on a well-formed buffer with its source backed: it moves `min(left, C - n)` bytes, which become
the youngest of the live region in source order; `w` advances by as many slots, `r` stays (R101, R106, R107). -/
theorem enqLoop_moves {p : Params} {m : Mem} {src : Word} {left i : Nat} {b : RingBuffer}
    (h : b.Inv (capacity p))
    (hb : ∀ j < min left (capacity p - b.n), memValid p (addr src (i + j)) = true) :
    ∃ b', enqLoop p m src left i b = .ok (b', i + min left (capacity p - b.n)) ∧
      b'.Inv (capacity p) ∧ b'.n = b.n + min left (capacity p - b.n) ∧ b'.r = b.r ∧
      b'.w = (b.w + min left (capacity p - b.n)) % capacity p ∧
      (min left (capacity p - b.n) = 0 → b' = b) ∧
      b'.live (capacity p) = b.live (capacity p) ++
        (List.range (min left (capacity p - b.n))).map (fun j => Mem.read m (addr src (i + j)).toNat) ∧
      (∀ a, (∀ j < min left (capacity p - b.n), a ≠ (b.w + j) % capacity p) →
        Mem.read b'.store a = Mem.read b.store a) := by
  induction left generalizing i b with
  | zero =>
    exact ⟨b, by simp [enqLoop], h, by simp, rfl, by simp [Nat.mod_eq_of_lt h.1], fun _ => rfl, by simp,
      fun a _ => rfl⟩
  | succ left ih =>
    by_cases hf : b.state = .full
    · have hn : capacity p - b.n = 0 := by have := h.2.2.2.2.1.mp hf; omega
      exact ⟨b, by simp [enqLoop, hf, hn], h, by simp [hn], rfl, by simp [hn, Nat.mod_eq_of_lt h.1],
        fun _ => rfl, by simp [hn], fun a _ => rfl⟩
    · have hn := h.not_full hf
      obtain ⟨k, hk⟩ : ∃ k, min (left + 1) (capacity p - b.n) = k + 1 :=
        ⟨min (left + 1) (capacity p - b.n) - 1, by omega⟩
      have hk' : min left (capacity p - (b.push p (Mem.read m (addr src i).toNat)).n) = k := by
        rw [RingBuffer.push_n]; omega
      rw [hk] at hb ⊢
      have hread : memRead p m (addr src i) = .ok (Mem.read m (addr src i).toNat) :=
        memRead_ok.mpr ⟨by simpa using hb 0 (by omega), rfl⟩
      have hw : (b.push p (Mem.read m (addr src i).toNat)).w = (b.w + 1) % capacity p := advance_eq p _
      obtain ⟨b', e, hi, e1, e2, e3, _, e5, e6⟩ := ih (i := i + 1) (h.push (Mem.read m (addr src i).toNat) hf)
        (by
          rw [hk']
          intro j hj
          have := hb (j + 1) (by omega)
          rwa [show i + (j + 1) = i + 1 + j by omega] at this)
      rw [hk'] at e e1 e3 e5 e6
      refine ⟨b', ?_, hi, ?_, e2, ?_, by omega, ?_, ?_⟩
      · simp only [enqLoop, hf, if_false, hread]
        rw [e, show i + 1 + k = i + (k + 1) by omega]
      · rw [e1, RingBuffer.push_n]; omega
      · rw [e3, hw, Nat.mod_add_mod, show b.w + 1 + k = b.w + (k + 1) by omega]
      · rw [e5, h.live_push _ hf, List.append_assoc, List.range_succ_eq_map, List.map_cons, List.map_map]
        congr 1
        simp only [List.cons_append, List.nil_append, Nat.add_zero, List.cons.injEq, true_and]
        refine List.map_congr_left fun j _ => ?_
        simp only [Function.comp_apply, Nat.succ_eq_add_one]
        rw [show i + 1 + j = i + (j + 1) by omega]
      · intro a ha
        rw [e6 a, RingBuffer.push_store]
        · refine Mem.read_write_other _ _ ?_
          have := ha 0 (by omega)
          rwa [Nat.add_zero, Nat.mod_eq_of_lt h.1] at this
        · intro j hj
          rw [hw, Nat.mod_add_mod, show b.w + 1 + j = b.w + (j + 1) by omega]
          exact ha (j + 1) (by omega)

/-- What `DEQ`'s loop can do, in any state: it moves at most the bytes asked for, leaves `w` and `store` alone,
writes no byte of memory but those it delivers, keeps the invariants, and stops only at an unbacked byte. -/
theorem deqLoop_result {p : Params} {dst : Word} {left i : Nat} {b : RingBuffer} {m : Mem} :
    (∃ b' m' i', deqLoop p dst left i b m = .ok (b', m', i') ∧ i ≤ i' ∧ i' ≤ i + left ∧ b'.w = b.w ∧
      b'.store = b.store ∧ b'.n = b.n - (i' - i) ∧
      (b'.state = .full → b.state = .full) ∧ (b.Inv (capacity p) → b'.Inv (capacity p) ∧ i' - i ≤ b.n) ∧
      (MemOk m → MemOk m') ∧
      (∀ a, (∀ j, i ≤ j → j < i' → a ≠ (addr dst j).toNat) → Mem.read m' a = Mem.read m a)) ∨
    deqLoop p dst left i b m = .error .unbackedAddress := by
  induction left generalizing i b m with
  | zero =>
    exact .inl ⟨b, m, i, rfl, Nat.le_refl _, Nat.le_refl _, rfl, rfl, by omega, id,
      fun h => ⟨h, by omega⟩, id, fun a _ => rfl⟩
  | succ left ih =>
    simp only [deqLoop]
    split
    · exact .inl ⟨b, m, i, rfl, Nat.le_refl _, by omega, rfl, rfl, by omega, id,
        fun h => ⟨h, by omega⟩, id, fun a _ => rfl⟩
    · next hf =>
      split
      · next he => exact .inr (by rw [(memWrite_error.mp he).2])
      · next m1 hw =>
        obtain ⟨_, rfl⟩ := memWrite_ok.mp hw
        rcases ih (i := i + 1) (b := b.pop p) (m := Mem.write m (addr dst i).toNat b.front) with
          ⟨b', m', i', h, h1, h2, h3, h4, h5, h6, h7, h8, h9⟩ | h
        · refine .inl ⟨b', m', i', h, by omega, by omega, h3, h4, ?_, ?_, ?_,
            fun hm => h8 (memOk_write _ _ hm), ?_⟩
          · rw [h5, RingBuffer.pop_n]; omega
          · intro e; exact absurd (h6 e) (flagAfterDeq_ne_full _ _)
          · intro hi
            obtain ⟨hi', hle⟩ := h7 (hi.pop hf)
            have := hi.not_empty hf
            rw [RingBuffer.pop_n] at hle
            exact ⟨hi', by omega⟩
          · intro a ha
            rw [h9 a fun j hj hj' => ha j (by omega) hj']
            exact Mem.read_write_other _ _ (ha i (Nat.le_refl _) (by omega))
        · exact .inr h

/-- `DEQ`'s loop on a well-formed buffer with its destination backed: it moves `min(left, n)` bytes, the oldest
of the live region in order; `r` advances by as many slots, `w` stays (R102, R106, R107). -/
theorem deqLoop_moves {p : Params} {dst : Word} {left i : Nat} {b : RingBuffer} {m : Mem}
    (h : b.Inv (capacity p)) (hi32 : i + min left b.n ≤ 2 ^ 32)
    (hb : ∀ j < min left b.n, memValid p (addr dst (i + j)) = true) :
    ∃ b' m', deqLoop p dst left i b m = .ok (b', m', i + min left b.n) ∧
      b'.Inv (capacity p) ∧ b'.n = b.n - min left b.n ∧ b'.w = b.w ∧ b'.store = b.store ∧
      b'.r = (b.r + min left b.n) % capacity p ∧ (min left b.n = 0 → b' = b ∧ m' = m) ∧
      b'.live (capacity p) = (b.live (capacity p)).drop (min left b.n) ∧
      (∀ j < min left b.n, Mem.read m' (addr dst (i + j)).toNat = Mem.read b.store ((b.r + j) % capacity p)) ∧
      (∀ a, (∀ j < min left b.n, a ≠ (addr dst (i + j)).toNat) → Mem.read m' a = Mem.read m a) := by
  induction left generalizing i b m with
  | zero =>
    exact ⟨b, m, by simp [deqLoop], h, by simp, rfl, rfl, by simp [Nat.mod_eq_of_lt h.2.1],
      fun _ => ⟨rfl, rfl⟩, by simp, by simp, fun a _ => rfl⟩
  | succ left ih =>
    by_cases hf : b.state = .empty
    · have hn : b.n = 0 := h.2.2.2.1.mp hf
      exact ⟨b, m, by simp [deqLoop, hf, hn], h, by simp [hn], rfl, rfl, by simp [hn, Nat.mod_eq_of_lt h.2.1],
        fun _ => ⟨rfl, rfl⟩, by simp [hn], by simp [hn], fun a _ => rfl⟩
    · have hn := h.not_empty hf
      obtain ⟨k, hk⟩ : ∃ k, min (left + 1) b.n = k + 1 := ⟨min (left + 1) b.n - 1, by omega⟩
      have hk' : min left (b.pop p).n = k := by rw [RingBuffer.pop_n]; omega
      rw [hk] at hb hi32 ⊢
      have hwrite : memWrite p m (addr dst i) b.front = .ok (Mem.write m (addr dst i).toNat b.front) :=
        memWrite_ok.mpr ⟨by simpa using hb 0 (by omega), rfl⟩
      have hr : (b.pop p).r = (b.r + 1) % capacity p := advance_eq p _
      obtain ⟨b', m', e, hi, e1, e2, e3, e4, _, e6, e7, e8⟩ := ih (i := i + 1) (h.pop hf)
        (m := Mem.write m (addr dst i).toNat b.front) (by rw [hk']; omega)
        (by
          rw [hk']
          intro j hj
          have := hb (j + 1) (by omega)
          rwa [show i + (j + 1) = i + 1 + j by omega] at this)
      rw [hk'] at e e1 e4 e6 e7 e8
      refine ⟨b', m', ?_, hi, ?_, e2, e3, ?_, by omega, ?_, ?_, ?_⟩
      · simp only [deqLoop, hf, if_false, hwrite]
        rw [e, show i + 1 + k = i + (k + 1) by omega]
      · rw [e1, RingBuffer.pop_n]; omega
      · rw [e4, hr, Nat.mod_add_mod, show b.r + 1 + k = b.r + (k + 1) by omega]
      · rw [e6, h.live_pop hf, List.drop_succ_cons]
      · rintro (_ | j) hj
        · rw [e8, Nat.add_zero, Mem.read_write_same, Nat.add_zero, Nat.mod_eq_of_lt h.2.1]
          · rfl
          · intro j hj heq
            have := addr_inj (by omega) (by omega) heq
            omega
        · have := e7 j (by omega)
          rw [show i + (j + 1) = i + 1 + j by omega, this, hr, Nat.mod_add_mod, RingBuffer.pop_store,
            show b.r + 1 + j = b.r + (j + 1) by omega]
      · intro a ha
        rw [e8 a fun j hj => by
          rw [show i + 1 + j = i + (j + 1) by omega]; exact ha (j + 1) (by omega)]
        exact Mem.read_write_other _ _ (by simpa using ha 0 (by omega))

/-- Where `ENQ`'s loop answers, the bytes it moved were backed, and only those had to be (R54, R101). -/
theorem enqLoop_backed {p : Params} {m : Mem} {src : Word} {left i : Nat} {b : RingBuffer}
    {x : RingBuffer × Nat} (h : enqLoop p m src left i b = .ok x) (hi : b.Inv (capacity p)) :
   ∀ j < min left (capacity p - b.n), memValid p (addr src (i + j)) = true := by
  induction left generalizing i b with
  | zero => intro j hj; simp at hj
  | succ n ih =>
    intro j hj
    simp only [enqLoop] at h
    split at h
    · rename_i hf
      have := hi.2.2.2.2.1.1 hf; omega
    · rename_i hf
      split at h
      · cases h
      · rename_i v hv
        have h1 := ih h (hi.push v hf)
        cases j with
        | zero => exact (memRead_ok.1 hv).1
        | succ j =>
          have := h1 j (by simp; omega)
          rwa [show i + (j+1) = i + 1 + j by omega]

/-- Where `DEQ`'s loop answers, the bytes it moved were backed, and only those had to be (R54, R102). -/
theorem deqLoop_backed {p : Params} {dst : Word} {left i : Nat} {b : RingBuffer} {m : Mem}
    {r : RingBuffer × Mem × Nat} (h : deqLoop p dst left i b m = .ok r) (hi : b.Inv (capacity p)) :
   ∀ j < min left b.n, memValid p (addr dst (i + j)) = true := by
  induction left generalizing i b m with
  | zero => intro j hj; simp at hj
  | succ n ih =>
    intro j hj
    simp only [deqLoop] at h
    split at h
    · rename_i hf
      have := hi.2.2.2.1.1 hf; omega
    · rename_i hf
      split at h
      · cases h
      · rename_i v hv
        have h1 := ih h (hi.pop hf)
        cases j with
        | zero => exact (memWrite_ok.1 hv).1
        | succ j =>
          have := h1 j (by simp; omega)
          rwa [show i + (j+1) = i + 1 + j by omega]

/-! ### The code table is not looked at (R27, R35) -/

/-- `ENQ`'s transfer does not depend on the code table. -/
theorem enqLoop_table (p : Params) (T : CodeTable) (m : Mem) (src : Word) (left i : Nat) (b : RingBuffer) :
    enqLoop { p with table := T } m src left i b = enqLoop p m src left i b := by
  induction left generalizing i b with
  | zero => rfl
  | succ left ih => simp only [enqLoop, ih]; rfl

/-- `DEQ`'s transfer does not depend on the code table. -/
theorem deqLoop_table (p : Params) (T : CodeTable) (dst : Word) (left i : Nat) (b : RingBuffer) (m : Mem) :
    deqLoop { p with table := T } dst left i b m = deqLoop p dst left i b m := by
  induction left generalizing i b m with
  | zero => rfl
  | succ left ih => simp only [deqLoop, ih]; rfl

end Sys2Proof.Machine
end

