-- ==== Sys2Proof/Laws/Exec.lean ====
section
/-! SUPPORT. What each meaning can answer, said once: the cases of a command's outcome in any state, and from
them what any command can do. -/

namespace Sys2Proof.Machine

/-- `ENQ` answers a null error, a clipped transfer, or has no meaning at an unbacked byte (R101, R110, R54). -/
theorem execEnq_cases (ch : Channel) (src k : Word) (s : State) :
    (src = null ∧ execEnq ch src k s = .next (s.respond .invalidArgument 0)) ∨
    (src ≠ null ∧ ∃ b i, execEnq ch src k s = .next ((s.setRb ch b).respond .ok (BitVec.ofNat 32 i)) ∧
      i ≤ k.toNat ∧ b.r = (s.rb ch).r ∧ b.n = (s.rb ch).n + i ∧
      (b.state = .empty → (s.rb ch).state = .empty) ∧
      ((s.rb ch).Inv (capacity s.params) → b.Inv (capacity s.params))) ∨
    (src ≠ null ∧ execEnq ch src k s = .refused .unbackedAddress) := by
  unfold execEnq
  split
  · next h => exact .inl ⟨h, rfl⟩
  · next h =>
    rcases enqLoop_result (p := s.params) (m := s.mem) (src := src) (left := k.toNat) (i := 0) (b := s.rb ch) with
      ⟨b, i, he, _, h2, h3, h4, h5, h6⟩ | he
    · rw [he]
      exact .inr (.inl ⟨h, b, i, rfl, by omega, h3, by omega, h5, h6⟩)
    · rw [he]
      exact .inr (.inr ⟨h, rfl⟩)

/-- `DEQ` answers a null error, a clipped transfer, or has no meaning at an unbacked byte (R102, R110, R54). -/
theorem execDeq_cases (ch : Channel) (dst k : Word) (s : State) :
    (dst = null ∧ execDeq ch dst k s = .next (s.respond .invalidArgument 0)) ∨
    (dst ≠ null ∧ ∃ b m i,
      execDeq ch dst k s = .next (((s.setRb ch b).setMem m).respond .ok (BitVec.ofNat 32 i)) ∧
      i ≤ k.toNat ∧ b.w = (s.rb ch).w ∧ b.store = (s.rb ch).store ∧ b.n = (s.rb ch).n - i ∧
      (b.state = .full → (s.rb ch).state = .full) ∧
      ((s.rb ch).Inv (capacity s.params) → b.Inv (capacity s.params) ∧ i ≤ (s.rb ch).n) ∧
      (MemOk s.mem → MemOk m) ∧ (∀ a, Outside dst i a → Mem.read m a = Mem.read s.mem a)) ∨
    (dst ≠ null ∧ execDeq ch dst k s = .refused .unbackedAddress) := by
  unfold execDeq
  split
  · next h => exact .inl ⟨h, rfl⟩
  · next h =>
    rcases deqLoop_result (p := s.params) (dst := dst) (left := k.toNat) (i := 0) (b := s.rb ch) (m := s.mem) with
      ⟨b, m, i, he, _, h2, h3, h4, h5, h6, h7, h8, h9⟩ | he
    · rw [he]
      exact .inr (.inl ⟨h, b, m, i, rfl, by omega, h3, h4, by omega, h6, h7, h8,
        fun a ha => h9 a fun j _ hj => ha j hj⟩)
    · rw [he]
      exact .inr (.inr ⟨h, rfl⟩)

/-- `ENC` has no meaning for an ill-formed table, overlapping buffers or an unbacked byte; otherwise it answers OK
with the message's bits in place, or the error of the first symbol that has one, and then only bytes of
`outBuffer` differ (R131, R138, R145). -/
theorem execEnc_cases (msg mlen out cap : Word) (s : State) :
    (tableWf s.params.table = false ∧ execEnc msg mlen out cap s = .refused .illFormedTable) ∨
    (tableWf s.params.table = true ∧ (Span.mk msg mlen.toNat).overlaps ⟨out, cap.toNat⟩ = true ∧
      execEnc msg mlen out cap s = .refused .overlappingBuffers) ∨
    (tableWf s.params.table = true ∧ (Span.mk msg mlen.toNat).overlaps ⟨out, cap.toNat⟩ = false ∧
      ((encVerdict s.params.table cap.toNat (memBytes s.mem msg mlen.toNat) 0 = .ok ∧ ∃ m,
          execEnc msg mlen out cap s = .next ((s.setMem m).respond .ok
            (BitVec.ofNat 32 (bitCount s.params.table (memBytes s.mem msg mlen.toNat)))) ∧
          (∀ i < 8 * bytesOfBits (bitCount s.params.table (memBytes s.mem msg mlen.toNat)),
            memBit m out i = (messageBits s.params.table (memBytes s.mem msg mlen.toNat)).getD i false) ∧
          (∀ a, Outside out (bytesOfBits (bitCount s.params.table (memBytes s.mem msg mlen.toNat))) a →
            Mem.read m a = Mem.read s.mem a) ∧
          (MemOk s.mem → MemOk m) ∧ Backed s.params msg mlen.toNat ∧
          Backed s.params out (bytesOfBits (bitCount s.params.table (memBytes s.mem msg mlen.toNat)))) ∨
        (encVerdict s.params.table cap.toNat (memBytes s.mem msg mlen.toNat) 0 ≠ .ok ∧
          execEnc msg mlen out cap s = .next ((s.freeBytes out cap.toNat).respond
            (encVerdict s.params.table cap.toNat (memBytes s.mem msg mlen.toNat) 0) 0)) ∨
        execEnc msg mlen out cap s = .refused .unbackedAddress)) := by
  cases hwf : tableWf s.params.table
  · exact .inl ⟨rfl, by simp [execEnc, hwf]⟩
  cases hov : (Span.mk msg mlen.toNat).overlaps ⟨out, cap.toNat⟩
  swap
  · exact .inr (.inl ⟨rfl, rfl, by simp [execEnc, hwf, hov]⟩)
  refine .inr (.inr ⟨rfl, rfl, ?_⟩)
  have hcap : cap.toNat ≤ 2 ^ 32 := Nat.le_of_lt cap.isLt
  have hmsg : ∀ j < mlen.toNat, Outside out cap.toNat (addr msg (0 + j)).toNat := fun j hj => by
    rw [Nat.zero_add]; exact outside_of_disjoint hov hj
  have hbytes : (List.range mlen.toNat).map (fun j => Mem.read s.mem (addr msg (0 + j)).toNat) =
      memBytes s.mem msg mlen.toNat := by simp [memBytes]
  cases hl : encLoop s.params msg out cap.toNat mlen.toNat 0 (packingStart s.mem) with
  | error r =>
    refine .inr (.inr ?_)
    simp [execEnc, hwf, hov, hl, encLoop_error hl]
  | ok v =>
    obtain ⟨st, e⟩ := v
    obtain ⟨h1, h2, h3, -⟩ := encLoop_ok hl (Packed.start s.params out s.mem) hcap (by simp) hmsg
    rw [hbytes] at h1 h2
    by_cases hst : st = .ok
    · subst hst
      have hp := h2 rfl
      rw [List.nil_append] at hp
      have hv := (encVerdict_ok (t := s.params.table) (m := memBytes s.mem msg mlen.toNat)
        (Nat.zero_le (8 * cap.toNat)) (Nat.zero_le _)).mp h1.symm
      cases hf : flush s.params out e with
      | error r =>
        refine .inr (.inr ?_)
        simp [execEnc, hwf, hov, hl, hf, flush_error hf]
      | ok e' =>
        obtain ⟨g1, g2, g3, g4, g5⟩ := flush_ok hf hp (by rw [messageBits_length]; omega)
        rw [messageBits_length] at g1 g2 g3 g5
        refine .inl ⟨h1.symm, e'.mem, ?_, g2, g3, g4, fun j hj => ?_, g5⟩
        · simp [execEnc, hwf, hov, hl, hf, g1]
        · have := h3 j hj rfl
          rwa [Nat.zero_add] at this
    · refine .inr (.inl ⟨by rw [List.length_nil] at h1; rw [← h1]; exact hst, ?_⟩)
      rw [List.length_nil] at h1
      rw [← h1]
      simp only [execEnc, hwf, hov, hl, Bool.true_eq_false, if_false, Bool.false_eq_true]
      cases st <;> first | exact absurd rfl hst | rfl

/-- `DEC` has no meaning for an ill-formed table, an output that overlaps the bytes it reads, or an unbacked byte;
otherwise it answers OK and 0: with the symbols the stream holds, or, after a dead end, with only bytes of its
output differing (R136, R139, R145). -/
theorem execDec_cases (encoded count out : Word) (s : State) :
    (tableWf s.params.table = false ∧ execDec encoded count out s = .refused .illFormedTable) ∨
    (tableWf s.params.table = true ∧ (execDec encoded count out s = .refused .unbackedAddress ∨
      ∃ run syms, decLoop s.params s.mem encoded count.toNat [] 0 = .ok run ∧ run.symbols = syms ∧
        AllPresent s.params.table syms ∧ StreamHas s.mem encoded 0 (messageBits s.params.table syms) ∧
        Backed s.params encoded (bytesOfBits run.bitpos) ∧
        ((Span.mk encoded (bytesOfBits run.bitpos)).overlaps ⟨out, count.toNat⟩ = true ∧
            execDec encoded count out s = .refused .overlappingBuffers ∨
         (Span.mk encoded (bytesOfBits run.bitpos)).overlaps ⟨out, count.toNat⟩ = false ∧
          (run.deadEnd = false ∧ syms.length = count.toNat ∧ run.bitpos = bitCount s.params.table syms ∧
            (∃ m, execDec encoded count out s = .next ((s.setMem m).respond .ok 0) ∧
              memBytes m out count.toNat = syms ∧
              (∀ a, Outside out count.toNat a → Mem.read m a = Mem.read s.mem a) ∧
              (MemOk s.mem → MemOk m) ∧ Backed s.params out count.toNat) ∨
           run.deadEnd = true ∧ syms.length < count.toNat ∧
            run.bitpos = bitCount s.params.table syms + lmax s.params.table ∧
            NoCodeword s.params.table s.mem encoded (bitCount s.params.table syms) ∧
            Backed s.params out syms.length ∧
            execDec encoded count out s = .next ((s.freeBytes out count.toNat).respond .ok 0))))) := by
  cases hwf : tableWf s.params.table
  · exact .inl ⟨rfl, by simp [execDec, hwf]⟩
  refine .inr ⟨rfl, ?_⟩
  rcases decLoop_result hwf (m := s.mem) (encoded := encoded) (left := count.toNat) (found := []) (pos := 0) with
    ⟨run, hr, syms, g1, g2, g3, g4, g5, g6⟩ | hr
  swap
  · exact .inl (by simp [execDec, hwf, hr])
  rw [List.nil_append] at g1
  rw [Nat.zero_add] at g4 g5
  have hback : Backed s.params encoded (bytesOfBits run.bitpos) := fun b hb => by
    have := g6 (8 * b) (Nat.zero_le _) (by unfold bytesOfBits at hb; omega)
    rwa [Nat.mul_div_cancel_left _ (by decide)] at this
  have hlen : syms.length ≤ count.toNat := by
    cases hd : run.deadEnd
    · exact Nat.le_of_eq (g4 hd).1
    · exact Nat.le_of_lt (g5 hd).1
  have hlt : count.toNat < 2 ^ 32 := count.isLt
  cases hov : (Span.mk encoded (bytesOfBits run.bitpos)).overlaps ⟨out, count.toNat⟩
  swap
  · exact .inr ⟨run, syms, hr, g1, g2, g3, hback, .inl ⟨hov, by simp [execDec, hwf, hr, hov]⟩⟩
  cases hw : memWriteList s.params out 0 run.symbols s.mem with
  | error r =>
    refine .inl ?_
    have hrr : r = .unbackedAddress := by
      by_contra hne
      have : ∀ (vs : List Byte) (i : Nat) (m : Mem), memWriteList s.params out i vs m = .error r → False := by
        intro vs
        induction vs with
        | nil => intro i m h; cases h
        | cons v vs ih =>
          intro i m h
          simp only [memWriteList] at h
          split at h
          · next he => cases h; exact hne (memWrite_error.mp he).2
          · exact ih _ _ h
      exact this _ _ _ hw
    simp [execDec, hwf, hr, hov, hw, hrr]
  | ok m =>
    rw [g1] at hw
    obtain ⟨w1, w2, w3, w4⟩ := memWriteList_ok hw (by omega)
    simp only [Nat.zero_add] at w1 w3 w4
    refine .inr ⟨run, syms, hr, g1, g2, g3, hback, .inr ⟨hov, ?_⟩⟩
    cases hd : run.deadEnd
    · obtain ⟨hl, hb⟩ := g4 hd
      refine .inl ⟨rfl, hl, hb, m, by simp [execDec, hwf, hr, hov, g1, hw, hd], ?_, ?_, w2, hl ▸ w1⟩
      · refine List.ext_getElem (by simp [memBytes, hl]) fun j hj hj' => ?_
        simp only [memBytes, List.getElem_map, List.getElem_range]
        exact w3 j hj'
      · intro a ha
        exact w4 a fun j hj => ha j (by omega)
    · obtain ⟨hl, hb, hno⟩ := g5 hd
      exact .inr ⟨rfl, hl, hb, hno, w1, by simp [execDec, hwf, hr, hov, g1, hw, hd]⟩

/-- What any command does when it answers a next state: it changes at most its channels, memory and the count of
free values, and then delivers one response, of a status the command may answer and with result 0 on an
error. The invariants hold again (R22, R23, R83, R171). -/
theorem exec_next {i : Instr} {s t : State} (h : exec i s = .next t) :
    ∃ (u : State) (st : Status) (v : Word), t = u.respond st v ∧ st ∈ mayAnswer i ∧ (st ≠ .ok → v = 0) ∧
      u = { s with outbound := u.outbound, inbound := u.inbound, mem := u.mem, draws := u.draws } ∧
      (s.Inv → u.Inv) := by
  have invMem : ∀ m, (MemOk s.mem → MemOk m) → s.Inv → (s.setMem m).Inv :=
    fun m hm hi => ⟨hi.1, hi.2.1, hm hi.2.2⟩
  have invRb : ∀ ch b, ((s.rb ch).Inv (capacity s.params) → b.Inv (capacity s.params)) → s.Inv →
      (s.setRb ch b).Inv := by
    intro ch b hb hi
    cases ch
    · exact ⟨hb hi.1, hi.2.1, hi.2.2⟩
    · exact ⟨hi.1, hb hi.2.1, hi.2.2⟩
  cases i with
  | enq ch src k =>
    rcases execEnq_cases ch src k s with ⟨_, e⟩ | ⟨_, b, n, e, _, _, _, _, hi⟩ | ⟨_, e⟩
    · rw [exec, e] at h; cases h
      exact ⟨s, .invalidArgument, 0, rfl, by simp [mayAnswer], fun _ => rfl, rfl, id⟩
    · rw [exec, e] at h; cases h
      exact ⟨_, .ok, _, rfl, by simp [mayAnswer], fun hne => absurd rfl hne, by cases ch <;> rfl,
        invRb ch b hi⟩
    · rw [exec, e] at h; cases h
  | deq ch dst k =>
    rcases execDeq_cases ch dst k s with ⟨_, e⟩ | ⟨_, b, m, n, e, _, _, _, _, _, hi, hm, _⟩ | ⟨_, e⟩
    · rw [exec, e] at h; cases h
      exact ⟨s, .invalidArgument, 0, rfl, by simp [mayAnswer], fun _ => rfl, rfl, id⟩
    · rw [exec, e] at h; cases h
      refine ⟨_, .ok, _, rfl, by simp [mayAnswer], fun hne => absurd rfl hne, by cases ch <;> rfl, ?_⟩
      intro hs
      have := invRb ch b (fun hb => (hi hb).1) hs
      exact ⟨by cases ch <;> exact this.1, by cases ch <;> exact this.2.1, hm hs.2.2⟩
    · rw [exec, e] at h; cases h
  | len ch =>
    cases h
    exact ⟨s, .ok, _, rfl, by simp [mayAnswer], fun hne => absurd rfl hne, rfl, id⟩
  | cap ch =>
    cases h
    exact ⟨s, .ok, _, rfl, by simp [mayAnswer], fun hne => absurd rfl hne, rfl, id⟩
  | enc msg mlen out cap =>
    rcases execEnc_cases msg mlen out cap s with ⟨_, e⟩ | ⟨_, _, e⟩ |
      ⟨_, _, ⟨_, m, e, _, _, hm, _⟩ | ⟨hne, e⟩ | e⟩
    · rw [exec, e] at h; cases h
    · rw [exec, e] at h; cases h
    · rw [exec, e] at h; cases h
      exact ⟨_, .ok, _, rfl, by simp [mayAnswer], fun hne => absurd rfl hne, rfl, invMem m hm⟩
    · rw [exec, e] at h; cases h
      refine ⟨s.freeBytes out cap.toNat, _, _, rfl, ?_, fun _ => rfl, rfl,
        fun hi => ⟨hi.1, hi.2.1, memOk_freeFill _ _ _ hi.2.2⟩⟩
      have hv : ∀ (ms : List Byte) (n : Nat), encVerdict s.params.table cap.toNat ms n ∈
          mayAnswer (Instr.enc msg mlen out cap) := by
        intro ms
        induction ms with
        | nil => intro n; simp [encVerdict, mayAnswer]
        | cons x ms ih =>
          intro n
          simp only [encVerdict]
          split
          · exact ih _
          · unfold encCheck
            repeat' split
            all_goals simp [mayAnswer]
      exact hv _ _
    · rw [exec, e] at h; cases h
  | dec encoded count out =>
    rcases execDec_cases encoded count out s with ⟨_, e⟩ | ⟨_, e | ⟨run, syms, _, _, _, _, _,
      ⟨_, e⟩ | ⟨_, ⟨_, _, _, m, e, _, _, hm, _⟩ | ⟨_, _, _, _, _, e⟩⟩⟩⟩
    · rw [exec, e] at h; cases h
    · rw [exec, e] at h; cases h
    · rw [exec, e] at h; cases h
    · rw [exec, e] at h; cases h
      exact ⟨_, .ok, _, rfl, by simp [mayAnswer], fun _ => rfl, rfl, invMem m hm⟩
    · rw [exec, e] at h; cases h
      exact ⟨s.freeBytes out count.toNat, .ok, 0, rfl, by simp [mayAnswer], fun _ => rfl, rfl,
        fun hi => ⟨hi.1, hi.2.1, memOk_freeFill _ _ _ hi.2.2⟩⟩

/-- A command never stops with a fault: every error is a status (R170, R175). -/
theorem exec_ne_fault (i : Instr) (s : State) (f : Fault) : exec i s ≠ .fault f := nomatch f

end Sys2Proof.Machine
end

