-- ==== Sys2Proof/Laws/PerInstr.lean ====
section
/-! SUPPORT. A fact about every command as syntax, one lemma per constructor: its encoding is a legal request. -/

namespace Sys2Proof.Laws.LegalEncoding

/-- The request that carries the command passes R87's checks, and its word is one the row of the command's own
mnemonic covers (R84, R88). -/
def Statement (i : Instr) : Prop :=
  (encode i).wellFormed = true ∧ ∃ row ∈ opcodeTable, row.mnemonic = i.mnemonic ∧ row.covers (encode i).cmd = true

theorem enq (ch : Channel) (src k : Word) : Statement (.enq ch src k) := by
  cases ch <;> exact ⟨by simp [Request.wellFormed, Request.opcodeKnown, Request.reservedZero, Request.codecChannelZero,
    encode, Instr.cmdWord, Channel.bits], ⟨"ENQ", 0x00000001, 0xFFFFFEFF⟩, by decide, rfl,
      by simp [OpcodeRow.covers, encode, Instr.cmdWord, Channel.bits]⟩

theorem deq (ch : Channel) (dst k : Word) : Statement (.deq ch dst k) := by
  cases ch <;> exact ⟨by simp [Request.wellFormed, Request.opcodeKnown, Request.reservedZero, Request.codecChannelZero,
    encode, Instr.cmdWord, Channel.bits], ⟨"DEQ", 0x00000002, 0xFFFFFEFF⟩, by decide, rfl,
      by simp [OpcodeRow.covers, encode, Instr.cmdWord, Channel.bits]⟩

theorem len (ch : Channel) : Statement (.len ch) := by
  cases ch <;> exact ⟨by simp [Request.wellFormed, Request.opcodeKnown, Request.reservedZero, Request.codecChannelZero,
    encode, Instr.cmdWord, Channel.bits], ⟨"LEN", 0x00000003, 0xFFFFFEFF⟩, by decide, rfl,
      by simp [OpcodeRow.covers, encode, Instr.cmdWord, Channel.bits]⟩

theorem cap (ch : Channel) : Statement (.cap ch) := by
  cases ch <;> exact ⟨by simp [Request.wellFormed, Request.opcodeKnown, Request.reservedZero, Request.codecChannelZero,
    encode, Instr.cmdWord, Channel.bits], ⟨"CAP", 0x00000004, 0xFFFFFEFF⟩, by decide, rfl,
      by simp [OpcodeRow.covers, encode, Instr.cmdWord, Channel.bits]⟩

theorem enc (msg mlen out cap : Word) : Statement (.enc msg mlen out cap) :=
  ⟨by simp [Request.wellFormed, Request.opcodeKnown, Request.reservedZero, Request.codecChannelZero,
    encode, Instr.cmdWord], ⟨"ENC", 0x00000008, 0xFFFFFFFF⟩, by decide, rfl,
      by simp [OpcodeRow.covers, encode, Instr.cmdWord]⟩

theorem dec (encoded count out : Word) : Statement (.dec encoded count out) :=
  ⟨by simp [Request.wellFormed, Request.opcodeKnown, Request.reservedZero, Request.codecChannelZero,
    encode, Instr.cmdWord], ⟨"DEC", 0x00000009, 0xFFFFFFFF⟩, by decide, rfl,
      by simp [OpcodeRow.covers, encode, Instr.cmdWord]⟩

end Sys2Proof.Laws.LegalEncoding
end

