-- ==== Sys2Proof/Laws/Ports.lean ====
section
/-! SUPPORT. What the ports, the agents and reset can do in one step, said once. -/

namespace Sys2Proof.Machine

/-- A memory that agrees on the bytes a command reads names the same bytes as read (R146, R210). -/
theorem sourceSpan_agree {s t : State} (hp : t.params = s.params) (i : Instr)
    (h : ∀ a : Word, (sourceSpan s i).holds a = true → Mem.read t.mem a.toNat = Mem.read s.mem a.toNat) :
    sourceSpan t i = sourceSpan s i := by
  cases i with
  | dec encoded count out => simp only [sourceSpan, hp]; exact (readSpan_agree h).2
  | _ => rfl

/-- A command that goes on writes no byte outside its destination buffer, in every state (R130, R201). -/
theorem exec_writes_only_dest {i : Instr} {s t : State} (h : exec i s = .next t) {a : Word}
    (ha : (destSpan i).holds a = false) : Mem.read t.mem a.toNat = Mem.read s.mem a.toNat := by
  cases i with
  | enq ch src k =>
    rcases execEnq_cases ch src k s with ⟨_, e⟩ | ⟨_, b, n, e, _⟩ | ⟨_, e⟩ <;> rw [exec, e] at h <;> cases h <;> simp
  | deq ch dst k =>
    rcases execDeq_cases ch dst k s with ⟨_, e⟩ | ⟨hne, b, m, n, e, hn, _, _, _, _, _, _, hf⟩ | ⟨_, e⟩ <;>
      rw [exec, e] at h <;> cases h
    · simp
    · simp only [destSpan, hne, if_false] at ha
      simpa using hf _ (outside_of_not_holds ha hn)
  | len ch => cases h; simp
  | cap ch => cases h; simp
  | enc msg mlen out cap =>
    rcases execEnc_cases msg mlen out cap s with ⟨_, e⟩ | ⟨_, _, e⟩ |
      ⟨_, _, ⟨hv, m, e, _, hf, _, _⟩ | ⟨_, e⟩ | e⟩ <;> rw [exec, e] at h <;> cases h
    · have := (encVerdict_ok (Nat.zero_le _) (Nat.zero_le _)).mp hv
      simpa using hf _ (outside_of_not_holds ha (by unfold bytesOfBits; omega))
    · simpa [State.freeBytes] using read_freeFill_outside _ _ _ _ (outside_of_not_holds ha (Nat.le_refl _))
  | dec encoded count out =>
    rcases execDec_cases encoded count out s with ⟨_, e⟩ | ⟨_, e | ⟨run, syms, _, _, _, _, _,
      ⟨_, e⟩ | ⟨_, ⟨_, _, _, m, e, _, hf, _, _⟩ | ⟨_, _, _, _, _, e⟩⟩⟩⟩ <;> rw [exec, e] at h <;> cases h
    · simpa using hf _ (outside_of_not_holds ha (Nat.le_refl _))
    · simpa [State.freeBytes] using read_freeFill_outside _ _ _ _ (outside_of_not_holds ha (Nat.le_refl _))

/-- Where outstanding requests do not conflict, neither writes a byte the other names (R210). -/
theorem not_dest_of_named {s : State} {p : PortId} {i j : Instr} {a : Word} (hc : s.clash = false)
    (hi : s.outstanding p = some i) (hj : s.outstanding p.other = some j)
    (ha : (destSpan i).holds a = true ∨ (sourceSpan s i).holds a = true) : (destSpan j).holds a = false := by
  by_contra hne
  have share : ∀ x y : Span, x.holds a = true → y.holds a = true → x.overlaps y = true :=
    fun x y h h' => overlaps_iff.mpr ⟨a, h, h'⟩
  have hd : (destSpan j).holds a = true := by simpa using hne
  rw [State.clash] at hc
  cases p
  · have hj : s.outstanding .interrupt = some j := hj
    rcases ha with h | h <;> simp [hi, hj, conflicts, share _ _ h hd] at hc
  · have hj : s.outstanding .foreground = some j := hj
    rcases ha with h | h <;> simp [hi, hj, conflicts, share _ _ hd h] at hc

theorem Port.move_of_pending {x : Port} {q : Request} (h : x.pending = some q) : x.move = some (.accept q) := by
  simp [Port.move, h]

theorem Port.move_of_todo {x : Port} {a : AgentAct} {rest : List AgentAct} (h : x.pending = none)
    (ht : x.todo = a :: rest) : x.move = some (.act a rest) := by
  simp [Port.move, h, ht]

theorem Port.move_accept_iff {x : Port} {q : Request} : x.move = some (.accept q) ↔ x.pending = some q := by
  unfold Port.move
  split
  · next h => simp [h]
  · next h => split <;> simp [h]

theorem Port.move_act_iff {x : Port} {a : AgentAct} {rest : List AgentAct} :
    x.move = some (.act a rest) ↔ x.pending = none ∧ x.todo = a :: rest := by
  unfold Port.move
  split
  · next h => simp [h]
  · next h => split <;> simp_all

theorem Port.move_none_iff {x : Port} : x.move = none ↔ x.pending = none ∧ x.todo = [] := by
  unfold Port.move
  split
  · next h => simp [h]
  · next h => split <;> simp_all

/-- The one port that can move does (R65). -/
theorem portsMove_single {s : State} {p : PortId} {mv : Move} (h : (s.port p).move = some mv)
    (ho : (s.port p.other).move = none) : portsMove s = perform p mv s := by
  cases p
  · have h : s.portF.move = some mv := h
    have ho : s.portI.move = none := ho
    simp [portsMove, h, ho]
  · have h : s.portI.move = some mv := h
    have ho : s.portF.move = none := ho
    simp [portsMove, h, ho]

/-- When both ports can move, one of them does; which one is not fixed (R65, U10). -/
theorem portsMove_both {s : State} {a b : Move} (ha : s.portF.move = some a) (hb : s.portI.move = some b) :
    portsMove s = perform .foreground a s.drawn ∨ portsMove s = perform .interrupt b s.drawn := by
  simp only [portsMove, ha, hb]
  split
  · exact .inl rfl
  · exact .inr rfl

/-- A move at the ports is none at all, or one port's move (R65, R182). -/
theorem portsMove_cases (s : State) :
    (s.portF.move = none ∧ s.portI.move = none ∧ portsMove s = .next s) ∨
    ∃ p mv s', (s' = s ∨ s' = s.drawn) ∧ (s.port p).move = some mv ∧ portsMove s = perform p mv s' := by
  cases hF : s.portF.move with
  | none =>
    cases hI : s.portI.move with
    | none => exact .inl ⟨rfl, rfl, by simp [portsMove, hF, hI]⟩
    | some b => exact .inr ⟨.interrupt, b, s, .inl rfl, hI, portsMove_single (p := .interrupt) hI hF⟩
  | some a =>
    cases hI : s.portI.move with
    | none => exact .inr ⟨.foreground, a, s, .inl rfl, hF, portsMove_single (p := .foreground) hF hI⟩
    | some b =>
      rcases portsMove_both hF hI with h | h
      · exact .inr ⟨.foreground, a, _, .inr rfl, hF, h⟩
      · exact .inr ⟨.interrupt, b, _, .inr rfl, hI, h⟩

/-- Accepting a request answers an illegal one with IllegalCommand alone, and runs a legal one's command (R87,
R178). -/
theorem runRequest_next {p : PortId} {q : Request} {s t : State} (h : runRequest p q s = .next t) :
    s.clash = false ∧
      ((∃ r, decode q = .error r ∧ t = (s.accept p).respond .illegalCommand 0) ∨
       ∃ i, decode q = .ok i ∧ exec i (s.accept p) = .next t) := by
  unfold runRequest at h
  split at h
  · cases h
  · next hc =>
    refine ⟨by simpa using hc, ?_⟩
    split at h
    · next r hr => cases h; exact .inl ⟨r, hr, rfl⟩
    · next i hi => exact .inr ⟨i, hi, h⟩

/-- What an agent's own action does when it has a meaning: it presents its request, or makes one access outside
the buffers R67 keeps from it (R67, R178, R210). -/
theorem agentAct_next {p : PortId} {act : AgentAct} {rest : List AgentAct} {s t : State}
    (h : agentAct p act rest s = .next t) :
    (∃ q, act = .present q ∧ t = s.setPort p { s.port p with pending := some q, todo := rest }) ∨
    (∃ a v, act = .store a v ∧ s.namedByOther p a = false ∧ memValid s.params a = true ∧
      t = (s.setMem (Mem.write s.mem a.toNat v)).setPort p { s.port p with todo := rest }) ∨
    (∃ a, act = .load a ∧ s.writtenByOther p a = false ∧ memValid s.params a = true ∧
      t = s.setPort p { s.port p with todo := rest, seen := some (Mem.read s.mem a.toNat) }) := by
  cases act with
  | present q => cases h; exact .inl ⟨q, rfl, rfl⟩
  | store a v =>
    simp only [agentAct] at h
    split at h
    · cases h
    · next hn =>
      split at h
      · cases h
      · next m hm =>
        obtain ⟨hv, rfl⟩ := memWrite_ok.mp hm
        cases h
        exact .inr (.inl ⟨a, v, rfl, by simpa using hn, hv, rfl⟩)
  | load a =>
    simp only [agentAct] at h
    split at h
    · cases h
    · next hn =>
      split at h
      · cases h
      · next v hm =>
        obtain ⟨hv, rfl⟩ := memRead_ok.mp hm
        cases h
        exact .inr (.inr ⟨a, rfl, by simpa using hn, hv, rfl⟩)

/-- `rst` answers both channels at their reset values and no request pending; `MEM` differs at most by free values
in the bytes a command cut short could write (R200, R201). -/
theorem resetMove_next {s t : State} (h : resetMove s = .next t) :
    s.clash = false ∧
      ((s.outstanding .foreground = none ∧ s.outstanding .interrupt = none ∧ t = s.afterRst) ∨
       t = s.drawn.afterRst ∨
       ∃ p i, s.outstanding p = some i ∧
         t = (s.drawn.freeBytes (destSpan i).base (destSpan i).size).afterRst) := by
  unfold resetMove at h
  split at h
  · cases h
  · next hc =>
    refine ⟨by simpa using hc, ?_⟩
    split at h
    · next ho => cases h; exact .inl ⟨ho.1, ho.2, rfl⟩
    · cases hcaught : s.caught with
      | none => rw [hcaught] at h; cases h; exact .inr (.inl rfl)
      | some i =>
        rw [hcaught] at h
        cases h
        refine .inr (.inr ?_)
        unfold State.caught at hcaught
        split at hcaught
        · cases hcaught
        · exact ⟨_, i, hcaught, rfl⟩
        · exact ⟨_, i, hcaught, rfl⟩

/-- One step that goes on: a reset, an idle step, an accepted request, or an agent's action (R65, R178, R200). -/
theorem step_next {s t : State} (h : step s = .next t) :
    (s.rst = true ∧ resetMove s = .next t) ∨
    (s.rst = false ∧
      ((s.portF.move = none ∧ s.portI.move = none ∧ t = s) ∨
       ∃ p s', (s' = s ∨ s' = s.drawn) ∧
        ((∃ q, (s.port p).pending = some q ∧ runRequest p q s' = .next t) ∨
         ∃ a rest, (s.port p).pending = none ∧ (s.port p).todo = a :: rest ∧
           agentAct p a rest s' = .next t))) := by
  unfold step at h
  split at h
  · next hr => exact .inl ⟨hr, h⟩
  · next hr =>
    refine .inr ⟨by simpa using hr, ?_⟩
    rcases portsMove_cases s with ⟨hF, hI, e⟩ | ⟨p, mv, s', hs', hm, e⟩
    · rw [e] at h; cases h
      exact .inl ⟨hF, hI, rfl⟩
    · refine .inr ⟨p, s', hs', ?_⟩
      rw [e] at h
      cases mv with
      | accept q => exact .inl ⟨q, Port.move_accept_iff.mp hm, h⟩
      | act a rest => exact .inr ⟨a, rest, (Port.move_act_iff.mp hm).1, (Port.move_act_iff.mp hm).2, h⟩

end Sys2Proof.Machine
end

