-- ==== Sys2Proof/Tests/Slice0.lean ====
section
/-! SUPPORT. The model's own tests, with expected values from spec/95_test_vectors.md, and a witness for every
obligation that has hypotheses. -/

namespace Sys2Proof.Machine

/-! ### Helpers -/

/-- The parameters of the vectors: `C = 8`, `TABLE_EX`, every address backed. -/
def vecParams : Params := ⟨3, Config.tableEx, []⟩

/-- `TABLE_INC` of the vectors: `TABLE_EX` without 'D'. -/
def tableInc : CodeTable := [(0x41, ⟨1, 2⟩), (0x42, ⟨1, 1⟩), (0x43, ⟨0, 3⟩)]

/-- A machine after reset with these parameters and this memory. -/
def vec (p : Params) (m : Mem) : State := { State.resetWith p with mem := m }

/-- One step that accepts this request, alone on port F. -/
def accepts (s : State) (q : Request) : Host.Outcome State Fault Refusal := step (s.presentAlone q)

/-- The step went on. -/
def goesOn : Host.Outcome State Fault Refusal → Bool
  | .next _ => true
  | _ => false

theorem goesOn_next {o : Host.Outcome State Fault Refusal} (h : goesOn o = true) : ∃ t, o = .next t := by
  cases o with
  | next t => exact ⟨t, rfl⟩
  | fault _ => cases h
  | refused _ => cases h

/-- The last response on port F: status code and result. -/
def answer : Host.Outcome State Fault Refusal → Option (Nat × Nat)
  | .next t => t.portF.responses.getLast?.map fun r => (r.status.code.toNat, r.result.toNat)
  | _ => none

/-- Bytes of `MEM` afterwards. -/
def bytesAfter (o : Host.Outcome State Fault Refusal) (base : Word) (size : Nat) : Option (List Byte) :=
  match o with
  | .next t => some (memBytes t.mem base size)
  | _ => none

/-- A channel afterwards, as the vectors write it. -/
def channelAfter (o : Host.Outcome State Fault Refusal) (ch : Channel) : Option (Nat × Nat × Nat × Fullness) :=
  match o with
  | .next t => some ((t.rb ch).w, (t.rb ch).r, (t.rb ch).n, (t.rb ch).state)
  | _ => none

/-- Why the step has no meaning. -/
def stopOf : Host.Outcome State Fault Refusal → Option Refusal
  | .refused r => some r
  | _ => none

/-- `MEM[0x1000..0x100B] = [10 .. 1B]`, and `EE` at the places the vectors look at afterwards. -/
def ringMem : Mem :=
  [(0x1000, 0x10), (0x1001, 0x11), (0x1002, 0x12), (0x1003, 0x13), (0x1004, 0x14), (0x1005, 0x15),
   (0x1006, 0x16), (0x1007, 0x17), (0x1008, 0x18), (0x1009, 0x19), (0x100A, 0x1A), (0x100B, 0x1B),
   (0x2003, 0xEE), (0x200C, 0xEE)]

/-- The store after V12: `18 19 1A 1B 14 15 16 17`. -/
def fullStore : Mem :=
  [(0, 0x18), (1, 0x19), (2, 0x1A), (3, 0x1B), (4, 0x14), (5, 0x15), (6, 0x16), (7, 0x17)]

/-- The vectors' machine with channel 0 as given. -/
def ringVec (b : RingBuffer) : State := (vec vecParams ringMem).setRb .outbound b

/-- Channel 0 of V12: two bytes live, `w = 6`. -/
def ringTwo : RingBuffer := ⟨[(4, 0x14), (5, 0x15)], 6, 4, 2, .part⟩

/-- Channel 0 of V13: full. -/
def ringFull : RingBuffer := ⟨fullStore, 4, 4, 8, .full⟩

/-- The empty channel of V20. -/
def ringEmpty : RingBuffer := ⟨[], 5, 5, 0, .empty⟩

/-- "ABCD" at `0x1100`, "ABE" at `0x1110`, the stream of "ABCD" at `0x1300`, and `EE` bytes. -/
def codecMem : Mem :=
  [(0x1100, 0x41), (0x1101, 0x42), (0x1102, 0x43), (0x1103, 0x44), (0x1110, 0x41), (0x1111, 0x42),
   (0x1112, 0x45), (0x1202, 0xEE), (0x1204, 0xEE), (0x1300, 0x60), (0x1301, 0x80), (0x1404, 0xEE)]

/-- The vectors' machine with the codec's memory. -/
def codecVec : State := vec vecParams codecMem

/-- The vectors' machine with `TABLE_INC`. -/
def incVec (m : Mem) : State := vec ⟨3, tableInc, []⟩ m

/-! ### Well-formedness: one ill-formed request per check (R87) -/

theorem test_wf_opcode : Request.wellFormed ⟨0x00000005, 0, 0, 0, 0⟩ = false := by decide
theorem test_wf_reserved : Request.wellFormed ⟨0x00000201, 0, 0, 0, 0⟩ = false := by decide
theorem test_wf_codec_channel : Request.wellFormed ⟨0x00000108, 0, 0, 0, 0⟩ = false := by decide
theorem test_wf_legal : Request.wellFormed ⟨0x00000101, 0x1000, 4, 0, 0⟩ = true := by decide

/-! ### Decoding, from the encoding written out bit by bit (R81, R84, R85) -/

/-- `ENQ 1, 0x1000, 4`: `cmd[7:0] = 00000001`, `cmd[8] = 1`, `cmd[31:9] = 0`. -/
theorem test_decode_enq :
    decode ⟨0b00000000000000000000000100000001, 0x1000, 4, 0, 0⟩ = .ok (.enq .inbound 0x1000 4) := rfl
/-- `DEQ 0, 0x2000, 3`: the ignored words hold anything (R86). -/
theorem test_decode_deq :
    decode ⟨0b00000000000000000000000000000010, 0x2000, 3, 7, 9⟩ = .ok (.deq .outbound 0x2000 3) := rfl
/-- `LEN 1` -/
theorem test_decode_len :
    decode ⟨0b00000000000000000000000100000011, 5, 6, 7, 8⟩ = .ok (.len .inbound) := rfl
/-- `CAP 0` -/
theorem test_decode_cap :
    decode ⟨0b00000000000000000000000000000100, 0, 0, 0, 0⟩ = .ok (.cap .outbound) := rfl
/-- `ENC 0x1100, 4, 0x1203, 8` (P3 step 1) -/
theorem test_decode_enc :
    decode ⟨0b00000000000000000000000000001000, 0x1100, 4, 0x1203, 8⟩ = .ok (.enc 0x1100 4 0x1203 8) := rfl
/-- `DEC 0x1310, 4, 0x1400` (P3 step 17) -/
theorem test_decode_dec :
    decode ⟨0b00000000000000000000000000001001, 0x1310, 4, 0x1400, 0⟩ = .ok (.dec 0x1310 4 0x1400) := rfl

/-- The words of the opcode table's rows, as the host numbers them, decode and run as the first command after
reset. -/
theorem test_table_words :
    [0x1, 0x2, 0x3, 0x4, 0x8, 0x9].map (decodeTableWord 32) =
      [some (.enq .outbound 0 0), some (.deq .outbound 0 0), some (.len .outbound), some (.cap .outbound),
       some (.enc 0 0 0 0), some (.dec 0 0 0)] := by decide
theorem test_table_words_run :
    [0x1, 0x2, 0x3, 0x4, 0x8, 0x9].map (fun w => answer (step (State.reset.withFetchWord 32 w))) =
      [some (1, 0), some (1, 0), some (0, 0), some (0, 256), some (0, 0), some (0, 0)] := by decide

/-! ### Commands, one step each (spec/95_test_vectors.md sections 3, 4 and 6) -/

/-- V12: clipped at the capacity, the cursor wraps, the flag goes FULL. -/
theorem test_enq_clips :
    answer (accepts (ringVec ringTwo) ⟨1, 0x1006, 8, 0, 0⟩) = some (0, 6) ∧
    channelAfter (accepts (ringVec ringTwo) ⟨1, 0x1006, 8, 0, 0⟩) .outbound = some (4, 4, 8, .full) := by
  decide
/-- P4 step 1: a null pointer. -/
theorem test_enq_null : answer (accepts (ringVec ringTwo) ⟨1, 0, 4, 0, 0⟩) = some (1, 0) := by decide
/-- V13: clipped at the length, in order, across the wrap; the byte after is untouched. -/
theorem test_deq_clips :
    answer (accepts (ringVec ringFull) ⟨2, 0x2004, 10, 0, 0⟩) = some (0, 8) ∧
    bytesAfter (accepts (ringVec ringFull) ⟨2, 0x2004, 10, 0, 0⟩) 0x2004 9 =
      some [0x14, 0x15, 0x16, 0x17, 0x18, 0x19, 0x1A, 0x1B, 0xEE] := by decide
/-- V13: the cursors stay where they are. -/
theorem test_deq_drains :
    channelAfter (accepts (ringVec ringFull) ⟨2, 0x2004, 10, 0, 0⟩) .outbound = some (4, 4, 0, .empty) := by
  decide
/-- V21: the channel bit selects the channel. -/
theorem test_len :
    answer (accepts (ringVec ringTwo) ⟨0x003, 0, 0, 0, 0⟩) = some (0, 2) ∧
    answer (accepts (ringVec ringTwo) ⟨0x103, 0, 0, 0, 0⟩) = some (0, 0) := by decide
/-- V21: the capacity. -/
theorem test_cap : answer (accepts (ringVec ringTwo) ⟨0x104, 0, 0, 0, 0⟩) = some (0, 8) := by decide
/-- V31: "ABCD" in nine bits; the byte past the stream is untouched. -/
theorem test_enc_straddles :
    answer (accepts codecVec ⟨8, 0x1100, 4, 0x1200, 3⟩) = some (0, 9) ∧
    bytesAfter (accepts codecVec ⟨8, 0x1100, 4, 0x1200, 3⟩) 0x1200 3 = some [0x60, 0x80, 0xEE] := by
  decide
/-- V44 and V46's rule: "ABE" ends at the absent 'E', but at the capacity first when `cap = 0`. -/
theorem test_enc_errors :
    answer (accepts codecVec ⟨8, 0x1110, 3, 0x1200, 4⟩) = some (3, 0) ∧
    answer (accepts codecVec ⟨8, 0x1110, 3, 0x1200, 0⟩) = some (2, 0) := by decide
/-- V63: the same stream back; the byte past the output is untouched. -/
theorem test_dec_reads :
    answer (accepts codecVec ⟨9, 0x1300, 4, 0x1400, 0⟩) = some (0, 0) ∧
    bytesAfter (accepts codecVec ⟨9, 0x1300, 4, 0x1400, 0⟩) 0x1400 5 =
      some [0x41, 0x42, 0x43, 0x44, 0xEE] := by decide
/-- V70: a dead end still answers OK and 0. -/
theorem test_dec_dead_end :
    answer (accepts (incVec [(0x1300, 0x20)]) ⟨9, 0x1300, 2, 0x1400, 0⟩) = some (0, 0) := by decide
/-- P4 step 6: an illegal word is answered IllegalCommand and not executed. -/
theorem test_illegal :
    answer (accepts codecVec ⟨0x108, 0x1100, 4, 0x1200, 2⟩) = some (4, 0) ∧
    bytesAfter (accepts codecVec ⟨0x108, 0x1100, 4, 0x1200, 2⟩) 0x1200 2 = some [0, 0] := by decide

/-! ### Witnesses: for each obligation with hypotheses, a state and operands that meet them -/

/-- Byte `0x1001` alone is not backed. -/
def holeParams : Params := ⟨3, Config.tableEx, [⟨0x1001, 1⟩]⟩

/-- A machine whose ports have these requests presented. -/
def pending (s : State) (qF qI : Option Request) : State :=
  { s with portF := { s.portF with pending := qF }, portI := { s.portI with pending := qI } }

/-- An `ENQ` of `0x1000..0x1003` on port F and a `DEQ` to `0x1004..0x1007` on port I: adjacent, no conflict. -/
def adjacent : State := pending (ringVec ringTwo) (some ⟨1, 0x1000, 4, 0, 0⟩) (some ⟨2, 0x1004, 4, 0, 0⟩)

/-- The same, one byte lower: they share `0x1003`. -/
def clashing : State := pending (ringVec ringTwo) (some ⟨1, 0x1000, 4, 0, 0⟩) (some ⟨2, 0x1003, 4, 0, 0⟩)

/-- Port F presents `LEN 0`, then its agent stores a byte and presents `CAP 1`. -/
def scripted : State :=
  let s := pending (ringVec ringTwo) (some ⟨3, 0, 0, 0, 0⟩) none
  { s with portF := { s.portF with todo := [.store 0x3000 1, .present ⟨0x104, 0, 0, 0, 0⟩] } }

/-- The invariant of the empty, the partial and the full channel, and of the smallest buffer, full. -/
theorem witness_invariants_of_channels :
    ringEmpty.Inv 8 ∧ ringTwo.Inv 8 ∧ ringFull.Inv 8 ∧ (RingBuffer.mk [(0, 0x77)] 0 0 1 .full).Inv 1 :=
  ⟨by decide, by decide, by decide, by decide⟩

theorem witness_invariant_of_machines : (ringVec ringEmpty).Inv ∧ (ringVec ringFull).Inv :=
  ⟨by decide, by decide⟩

theorem witness_LegalExactlyWhenATableRowMatches :
    decode ⟨0x101, 0, 0, 0, 0⟩ = .ok (.enq .inbound 0 0) ∧ (⟨"ENQ", 0x1, 0xFFFFFEFF⟩ : OpcodeRow) ∈ opcodeTable :=
  ⟨rfl, by decide⟩

/-- One request per fault of R87, next to a legal word. -/
theorem witness_IllegalRequestAnswersIllegalCommandOnly :
    [(⟨0x00A, 1, 2, 3, 4⟩ : Request), ⟨0x201, 1, 2, 3, 4⟩, ⟨0x108, 1, 2, 3, 4⟩].all (fun q =>
      let s := pending codecVec (some q) none
      (match decode q with | .error _ => true | .ok _ => false) &&
      s.portF.pending == some q && s.rst == false && s.portI.move == none) = true := by decide

theorem witness_StepRunsTheDecodedCommand :
    (pending codecVec none (some ⟨2, 0x2000, 3, 0, 0⟩)).Alone .interrupt ⟨2, 0x2000, 3, 0, 0⟩ ∧
    decode ⟨2, 0x2000, 3, 0, 0⟩ = .ok (.deq .outbound 0x2000 3) ∧
    adjacent.clash = false ∧ (adjacent.port .interrupt).pending = some ⟨2, 0x1004, 4, 0, 0⟩ ∧
    decode ⟨2, 0x1004, 4, 0, 0⟩ = .ok (.deq .outbound 0x1004 4) ∧
    decodeTableWord 96 0x000000030000200000000002 = some (.deq .outbound 0x2000 3) :=
  ⟨by decide, rfl, by decide, rfl, rfl, by decide⟩

theorem witness_EitherPendingRequestMayGoFirst :
    adjacent.rst = false ∧ adjacent.portF.pending = some ⟨1, 0x1000, 4, 0, 0⟩ ∧
    adjacent.portI.pending = some ⟨2, 0x1004, 4, 0, 0⟩ ∧
    decode ⟨1, 0x1000, 4, 0, 0⟩ = .ok (.enq .outbound 0x1000 4) ∧
    decode ⟨2, 0x1004, 4, 0, 0⟩ = .ok (.deq .outbound 0x1004 4) ∧
    conflicts adjacent (.enq .outbound 0x1000 4) (.deq .outbound 0x1004 4) = false :=
  ⟨rfl, rfl, rfl, rfl, rfl, by decide⟩

theorem witness_OverlappingOutstandingRequestsHaveNoMeaning :
    clashing.rst = false ∧ clashing.portF.pending = some ⟨1, 0x1000, 4, 0, 0⟩ ∧
    clashing.portI.pending = some ⟨2, 0x1003, 4, 0, 0⟩ ∧
    decode ⟨1, 0x1000, 4, 0, 0⟩ = .ok (.enq .outbound 0x1000 4) ∧
    decode ⟨2, 0x1003, 4, 0, 0⟩ = .ok (.deq .outbound 0x1003 4) ∧
    conflicts clashing (.enq .outbound 0x1000 4) (.deq .outbound 0x1003 4) = true :=
  ⟨rfl, rfl, rfl, rfl, rfl, by decide⟩

theorem witness_IdleMachineKeepsAllState :
    codecVec.rst = false ∧ codecVec.portF.move = none ∧ codecVec.portI.move = none := ⟨rfl, rfl, rfl⟩

theorem witness_OneRequestOutstandingUntilItsResponse :
    scripted.rst = false ∧ (scripted.port .foreground).pending = some ⟨3, 0, 0, 0, 0⟩ ∧
    ∃ t, step scripted = .next t := ⟨rfl, rfl, goesOn_next (by decide)⟩

/-- Five moves at most; the two requests of port F are answered. -/
theorem witness_EveryPresentedRequestIsAnsweredOnce :
    scripted.rst = false ∧ scripted.work = 5 ∧ ∃ t, core.run scripted.work scripted = .next t :=
  ⟨rfl, rfl, goesOn_next (by decide)⟩

theorem witness_OneResponseOnTheServingPort :
    ∃ t, exec (.enc 0x1110 3 0x1200 0) codecVec = .next t := goesOn_next (by decide)

/-- The other port idle; a store at the bytes next to `0x1000..0x1003`, the source of the other port's `ENQ`, and a
load of its first and last byte; a load at the bytes next to `0x1004..0x1007`, the destination of the other port's
`DEQ`; and the first and last bytes of both, where an access has no meaning. -/
theorem witness_AgentsOwnAccessesAreByteAccesses :
    memValid codecVec.params 0xFFFFFFFF = true ∧ codecVec.outstanding .interrupt = none ∧
    adjacent.outstanding .foreground = some (.enq .outbound 0x1000 4) ∧
    destSpan (.enq .outbound 0x1000 4) = Span.none ∧ Span.none.holds 0x1000 = false ∧
    [0x0FFF, 0x1000, 0x1003, 0x1004].map (sourceSpan adjacent (.enq .outbound 0x1000 4)).holds =
      [false, true, true, false] ∧
    adjacent.outstanding .interrupt = some (.deq .outbound 0x1004 4) ∧
    sourceSpan adjacent (.deq .outbound 0x1004 4) = Span.none ∧
    [0x1003, 0x1004, 0x1007, 0x1008].map (destSpan (.deq .outbound 0x1004 4)).holds =
      [false, true, true, false] := by decide

/-- Port F's agent has a store to do while port I has nothing; then port I has a request presented, or an agent that
will present one. -/
theorem witness_StepPerformsAPortsNextMove :
    let s := ringVec ringTwo
    let f := { s with portF := { s.portF with todo := [.store 0x3000 1] } }
    f.rst = false ∧ f.portF.pending = none ∧ f.portF.todo = [.store 0x3000 1] ∧ f.portI.move = none ∧
    f.portF.move = some (.act (.store 0x3000 1) []) ∧
    (pending f none (some ⟨3, 0, 0, 0, 0⟩)).portI.move = some (.accept ⟨3, 0, 0, 0, 0⟩) ∧
    (Port.mk none [] [.present ⟨3, 0, 0, 0, 0⟩] none).move = some (.act (.present ⟨3, 0, 0, 0, 0⟩) []) := by decide

/-- A `DEC` of three symbols pending on port I: `00` at `0x1000` asks for a ninth bit, and byte `0x1001` is not
backed. Port F's agent has this to do. -/
def halfRead (todo : List AgentAct) : State :=
  let s := pending (vec holeParams []) none (some ⟨9, 0x1000, 3, 0x1400, 0⟩)
  { s with portF := { s.portF with todo := todo } }

/-- A `DEC` that meets an unbacked byte names the bytes up to it (R54, R146): a store of `FF` at `0x1000`, which would
let it decode "BBB" from one byte, has no meaning, nor has a `DEQ` into that byte (R67, R210); a load of it and a
store past the unbacked byte do. -/
theorem test_stopped_reading_names_its_bytes :
    sourceSpan (halfRead []) (.dec 0x1000 3 0x1400) = ⟨0x1000, 2⟩ ∧
    stopOf (perform .foreground (.act (.store 0x1000 0xFF) []) (halfRead [])) = some .agentTouchesBuffer ∧
    (pending (halfRead []) (some ⟨2, 0x1000, 1, 0, 0⟩) (some ⟨9, 0x1000, 3, 0x1400, 0⟩)).clash = true ∧
    goesOn (perform .foreground (.act (.load 0x1000) []) (halfRead [])) = true ∧
    goesOn (perform .foreground (.act (.store 0x1002 0xFF) []) (halfRead [])) = true ∧
    stopOf (exec (.dec 0x1000 3 0x1400) (halfRead [])) = some .unbackedAddress ∧
    answer (exec (.dec 0x1000 3 0x1400) ((halfRead []).setMem [(0x1000, 0xFF)])) = some (0, 0) := by decide

/-- The other agent presents a request, while the `DEC` of `halfRead` is outstanding; and the `DEC` of V63 is
outstanding alone, and is answered. -/
theorem witness_NamedBuffersStayUntilTheResponse :
    (halfRead []).outstanding .interrupt = some (.dec 0x1000 3 0x1400) ∧
    goesOn (perform .foreground (.act (.present ⟨3, 0, 0, 0, 0⟩) []) (halfRead [.present ⟨3, 0, 0, 0, 0⟩])) = true ∧
    (codecVec.presentAlone ⟨9, 0x1300, 4, 0x1400, 0⟩).outstanding .foreground = some (.dec 0x1300 4 0x1400) ∧
    ∃ t, step (codecVec.presentAlone ⟨9, 0x1300, 4, 0x1400, 0⟩) = .next t :=
  ⟨by decide, by decide, by decide, goesOn_next (by decide)⟩

/-- As the step meets it: an illegal request on port F goes on or the legal one on port I does, whichever is first. -/
theorem witness_NamedBuffersStayUntilTheResponse_beside :
    let s := pending (ringVec ringTwo) (some ⟨0, 0, 0, 0, 0⟩) (some ⟨2, 0x2000, 2, 0, 0⟩)
    s.rst = false ∧ s.outstanding .interrupt = some (.deq .outbound 0x2000 2) ∧ ∃ t, step s = .next t := by
  intro s
  have h : goesOn (step s) = true := by
    have : ∀ b : Bool, goesOn (if b then perform .foreground (.accept ⟨0, 0, 0, 0, 0⟩) s.drawn
        else perform .interrupt (.accept ⟨2, 0x2000, 2, 0, 0⟩) s.drawn) = true := by decide
    exact this (Config.foregroundFirst s.draws)
  exact ⟨rfl, rfl, goesOn_next h⟩

theorem witness_NoStepChangesTheParameters : ∃ t, step scripted = .next t := goesOn_next (by decide)

theorem witness_EveryStepKeepsTheInvariant :
    ((ringVec ringTwo).presentAlone ⟨1, 0x1006, 8, 0, 0⟩).Inv ∧
    ∃ t, step ((ringVec ringTwo).presentAlone ⟨1, 0x1006, 8, 0, 0⟩) = .next t :=
  ⟨by decide, goesOn_next (by decide)⟩

theorem witness_ResetLeavesBothChannelsEmpty :
    let s := { ringVec ringTwo with rst := true }
    s.rst = true ∧ s.portF.pending = none ∧ s.portI.pending = none := ⟨rfl, rfl, rfl⟩

/-- Reset with a request outstanding on each port; an address outside the destination of the one that writes. -/
theorem witness_ResetAbandonsOutstandingCommands :
    let s := { adjacent with rst := true }
    s.rst = true ∧ s.clash = false ∧ s.outstanding .foreground = some (.enq .outbound 0x1000 4) ∧
    s.outstanding .interrupt = some (.deq .outbound 0x1004 4) ∧ Outside 0x1004 4 0x1008 ∧
    Outside 0x1004 4 0x1003 := by decide

theorem witness_LevelOutputsFollowTheLength : ringEmpty.Inv 8 ∧ ringFull.Inv 8 ∧ ringTwo.Inv 8 := by
  decide

/-- A clipped transfer, one that exactly fills the buffer, and one into a full buffer. -/
theorem witness_EnqMovesWhatFits :
    (ringVec ringTwo).outbound.Inv (capacity vecParams) ∧ (0x1006 : Word) ≠ 0 ∧
    Backed vecParams 0x1006 (min (8 : Word).toNat (capacity vecParams - ringTwo.n)) ∧
    min (6 : Word).toNat (capacity vecParams - ringTwo.n) = 6 ∧
    ringFull.Inv (capacity vecParams) ∧ min (6 : Word).toNat (capacity vecParams - ringFull.n) = 0 := by
  decide

/-- A clipped transfer, one that exactly drains the buffer, and one from an empty buffer. -/
theorem witness_DeqMovesWhatIsThere :
    (ringVec ringTwo).outbound.Inv (capacity vecParams) ∧ (0x2000 : Word) ≠ 0 ∧
    Backed vecParams 0x2000 (min (8 : Word).toNat ringTwo.n) ∧ min (2 : Word).toNat ringTwo.n = 2 ∧
    ringEmpty.Inv (capacity vecParams) ∧ min (6 : Word).toNat ringEmpty.n = 0 := by decide

/-- The first clause: a `DEQ 1, 0, 0` that went on and whose one response is InvalidArgument. -/
theorem witness_InvalidArgumentChangesNothing :
    ∃ t, exec (.deq .inbound 0 0) codecVec = .next t ∧
      (t.port codecVec.serving).responses = (codecVec.port codecVec.serving).responses ++ [⟨.invalidArgument, 0⟩] :=
  ⟨_, rfl, rfl⟩

/-- Each clause: null with count 0 and with a full buffer; count 0; full; empty; neither. -/
theorem witness_ChecksOfEnqAndDeqComeInOrder :
    ((ringVec ringFull).rb .outbound).state = .full ∧ ((ringVec ringEmpty).rb .outbound).state = .empty ∧
    ((ringVec ringTwo).rb .outbound).Inv (capacity vecParams) ∧
    ((ringVec ringTwo).rb .outbound).state ≠ .full ∧ ((ringVec ringTwo).rb .outbound).state ≠ .empty ∧
    (1 : Word) ≠ 0 ∧ (∃ t, exec (.enq .outbound 0x1000 1) (ringVec ringTwo) = .next t) ∧
    ∃ t, exec (.deq .outbound 0x2000 1) (ringVec ringTwo) = .next t :=
  ⟨rfl, rfl, by decide, by decide, by decide, by decide, goesOn_next (by decide),
    goesOn_next (by decide)⟩

theorem witness_LenAnswersTheLength :
    ((ringVec ringFull).rb .outbound).Inv (capacity (ringVec ringFull).params) ∧
    ((ringVec ringEmpty).rb .outbound).Inv (capacity (ringVec ringEmpty).params) := by decide

theorem witness_CapAnswersTheCapacity : ∃ t, step (codecVec.presentAlone ⟨4, 0, 0, 0, 0⟩) = .next t :=
  goesOn_next (by decide)

theorem witness_FirstInFirstOut :
    ((ringVec ringTwo).rb .outbound).Inv (capacity (ringVec ringTwo).params) ∧ (0x1006 : Word) ≠ 0 ∧
    (∃ t, exec (.enq .outbound 0x1006 8) (ringVec ringTwo) = .next t) ∧
    ∃ t, exec (.deq .outbound 0x1006 8) (ringVec ringTwo) = .next t :=
  ⟨by decide, by decide, goesOn_next (by decide), goesOn_next (by decide)⟩

/-- The largest count, the capacity itself, with the cursors at 5. -/
theorem witness_EnqThenDeqReturnsTheSameBytes :
    ((ringVec ringEmpty).rb .outbound).Inv (capacity (ringVec ringEmpty).params) ∧
    ((ringVec ringEmpty).rb .outbound).state = .empty ∧ (8 : Word).toNat ≤ capacity (ringVec ringEmpty).params ∧
    (0x1000 : Word) ≠ 0 ∧ (0x2000 : Word) ≠ 0 ∧ Backed (ringVec ringEmpty).params 0x1000 8 ∧
    Backed (ringVec ringEmpty).params 0x2000 8 := by decide

/-- The two live bytes of V12, held elsewhere in the store and with other bytes beside them. -/
theorem witness_WrapAroundIsInvisible :
    (ringVec ringTwo).Alike (ringVec ⟨[(0, 0x15), (3, 0x99), (7, 0x14)], 1, 7, 2, .part⟩) :=
  ⟨⟨by decide, by decide, rfl, by decide⟩,
    ⟨by decide, by decide, rfl, by decide⟩, rfl⟩

theorem witness_LengthCountsWhatCommandsAnswer :
    (ringVec ringTwo).Inv ∧ (∃ t, exec (.enq .outbound 0x1006 8) (ringVec ringTwo) = .next t) ∧
    ∃ t, exec (.deq .outbound 0x2000 8) (ringVec ringTwo) = .next t :=
  ⟨by decide, goesOn_next (by decide), goesOn_next (by decide)⟩

/-- An `ENQ` that fills the channel and moves `w`, and a `DEQ` that empties it and moves `r`. -/
theorem witness_OnlyEnqAndDeqTouchAChannel :
    channelAfter (exec (.enq .outbound 0x1006 8) (ringVec ringTwo)) .outbound = some (4, 4, 8, .full) ∧
    channelAfter (exec (.deq .outbound 0x2000 2) (ringVec ringTwo)) .outbound = some (6, 6, 0, .empty) := by
  decide

/-- Byte 1 is not backed: a transfer of two bytes reaches it, a transfer of one does not. -/
theorem witness_UnbackedByteStopsARingCommand :
    let s := (vec holeParams ringMem).setRb .outbound ringTwo
    (s.rb .outbound).Inv (capacity s.params) ∧ (0x1000 : Word) ≠ 0 ∧
    ¬ Backed s.params 0x1000 (min (2 : Word).toNat (capacity s.params - (s.rb .outbound).n)) ∧
    ¬ Backed s.params 0x1000 (min (2 : Word).toNat (s.rb .outbound).n) ∧
    Backed s.params 0x1000 (min (1 : Word).toNat (s.rb .outbound).n) ∧
    stopOf (exec (.enq .outbound 0x1000 2) s) = some .unbackedAddress ∧
    stopOf (exec (.enq .outbound 0x1000 1) s) = none := by decide

theorem witness_RingCommandsFrame :
    (∃ t, exec (.enq .outbound 0x1006 8) (ringVec ringTwo) = .next t) ∧
    (∃ t, exec (.deq .outbound 0x1006 8) (ringVec ringTwo) = .next t) ∧
    (∃ t, exec (.len .outbound) (ringVec ringTwo) = .next t) ∧
    ∃ t, exec (.cap .outbound) (ringVec ringTwo) = .next t :=
  ⟨goesOn_next (by decide), goesOn_next (by decide), ⟨_, rfl⟩, ⟨_, rfl⟩⟩

/-- "ABCD" into two bytes, as in V31, and V34's shape: a stream that fills its buffer to the last bit. -/
theorem witness_EncWritesTheEncodedStream :
    tableWf codecVec.params.table = true ∧ (Span.mk 0x1100 4).overlaps ⟨0x1200, 2⟩ = false ∧
    AllPresent codecVec.params.table (memBytes codecVec.mem 0x1100 4) ∧
    bitCount codecVec.params.table (memBytes codecVec.mem 0x1100 4) ≤ 8 * (2 : Word).toNat ∧
    bitCount codecVec.params.table (memBytes codecVec.mem 0x1100 4) ≤ 2 ^ 32 - 1 ∧
    Backed codecVec.params 0x1100 4 ∧ Backed codecVec.params 0x1200 2 ∧
    AllPresent Config.tableEx [0x41, 0x41, 0x41, 0x41] ∧ bitCount Config.tableEx [0x41, 0x41, 0x41, 0x41] = 8 := by
  decide

/-- V44 for the absent symbol and V32 for the capacity: symbol 2 of "ABE", and symbol 3 of "ABCD", the first bit
past one byte. -/
theorem witness_EncStopsAtTheFirstBadSymbol :
    tableWf codecVec.params.table = true ∧ (Span.mk 0x1110 3).overlaps ⟨0x1200, 4⟩ = false ∧
    Backed codecVec.params 0x1110 3 ∧ Backed codecVec.params 0x1200 4 ∧
    AllPresent codecVec.params.table (memBytes codecVec.mem 0x1110 2) ∧
    (tableEntry codecVec.params.table (Mem.read codecVec.mem (addr 0x1110 2).toNat)).len.val = 0 ∧
    (Span.mk 0x1100 4).overlaps ⟨0x1200, 1⟩ = false ∧ Backed codecVec.params 0x1100 4 ∧
    AllPresent codecVec.params.table (memBytes codecVec.mem 0x1100 3) ∧
    bitCount codecVec.params.table (memBytes codecVec.mem 0x1100 3) ≤ 8 * 1 ∧
    (tableEntry codecVec.params.table (Mem.read codecVec.mem (addr 0x1100 3).toNat)).len.val ≠ 0 ∧
    bitCount codecVec.params.table (memBytes codecVec.mem 0x1100 4) > 8 * 1 := by decide

/-- `TABLE_W` of the vectors, over a memory of zeros. -/
def wideVec : State := vec ⟨3, [(0x00, ⟨0xDEADBEEF, 32⟩), (0x01, ⟨0, 1⟩)], []⟩ []

theorem wide_message (base : Word) (n : Nat) :
    AllPresent wideVec.params.table (memBytes wideVec.mem base n) ∧
    bitCount wideVec.params.table (memBytes wideVec.mem base n) = 32 * n := by
  have h : memBytes wideVec.mem base n = List.replicate n 0 := by
    simp [memBytes, wideVec, vec, Mem.read, Mem.blank]
  rw [h]
  refine ⟨fun s hs => ?_, ?_⟩
  · rw [List.eq_of_mem_replicate hs]; decide
  · simp only [bitCount, List.map_replicate, List.sum_replicate_nat]
    rw [show (tableEntry wideVec.params.table 0).len.val = 32 by decide, Nat.mul_comm]

theorem wide_backed (base : Word) (n : Nat) : Backed wideVec.params base n := fun _ _ => rfl

/-- R134: the `2^27`-th symbol of 32 bits takes the count from `2^32 - 32` to `2^32`, with room for it. -/
theorem witness_EncStopsAtTheFirstBadSymbol_count :
    tableWf wideVec.params.table = true ∧
    (Span.mk 0 (2 ^ 27)).overlaps ⟨0x20000000, 2 ^ 29⟩ = false ∧ 2 ^ 27 - 1 < (0x08000000 : Word).toNat ∧
    Backed wideVec.params 0 (2 ^ 27) ∧ Backed wideVec.params 0x20000000 (2 ^ 29) ∧
    AllPresent wideVec.params.table (memBytes wideVec.mem 0 (2 ^ 27 - 1)) ∧
    bitCount wideVec.params.table (memBytes wideVec.mem 0 (2 ^ 27 - 1)) ≤ 8 * 2 ^ 29 ∧
    bitCount wideVec.params.table (memBytes wideVec.mem 0 (2 ^ 27 - 1)) ≤ 2 ^ 32 - 1 ∧
    (tableEntry wideVec.params.table (Mem.read wideVec.mem (addr 0 (2 ^ 27 - 1)).toNat)).len.val ≠ 0 ∧
    bitCount wideVec.params.table (memBytes wideVec.mem 0 (2 ^ 27)) > 2 ^ 32 - 1 := by
  rw [(wide_message 0 (2 ^ 27 - 1)).2, (wide_message 0 (2 ^ 27)).2]
  exact ⟨by decide, by decide, by decide, wide_backed _ _, wide_backed _ _,
    (wide_message 0 _).1, by decide, by decide, by decide, by decide⟩

theorem witness_EncOfTheEmptyMessage : tableWf codecVec.params.table = true := by decide

/-- The same message at two places, with capacities that both suffice and with equal ones that do not. -/
theorem witness_EncDependsOnlyOnTheMessage :
    let t := vec ⟨8, Config.tableEx, []⟩ [(0, 0x41), (1, 0x42), (2, 0x43), (3, 0x44)]
    codecVec.params.table = t.params.table ∧ memBytes codecVec.mem 0x1100 4 = memBytes t.mem 0 4 ∧
    goesOn (exec (.enc 0x1100 4 0x1200 2) codecVec) = true ∧ goesOn (exec (.enc 0 4 0x9000 7) t) = true ∧
    answer (exec (.enc 0x1100 4 0x1200 2) codecVec) = some (0, 9) ∧
    answer (exec (.enc 0 4 0x9000 7) t) = some (0, 9) ∧
    answer (exec (.enc 0x1100 4 0x1200 1) codecVec) = some (2, 0) ∧
    answer (exec (.enc 0 4 0x9000 1) t) = some (2, 0) := by decide

/-- V63. -/
theorem witness_DecReadsTheMessageInTheStream :
    tableWf codecVec.params.table = true ∧ AllPresent codecVec.params.table [0x41, 0x42, 0x43, 0x44] ∧
    StreamHas codecVec.mem 0x1300 0 (messageBits codecVec.params.table [0x41, 0x42, 0x43, 0x44]) ∧
    (Span.mk 0x1300 2).overlaps ⟨0x1302, 4⟩ = false ∧ Backed codecVec.params 0x1300 2 ∧
    Backed codecVec.params 0x1302 4 := by decide

/-- V71: 'A', then the dead end `001`. -/
theorem witness_DecDeadEndAnswersOk :
    let s := incVec [(0x1300, 0x48)]
    tableWf s.params.table = true ∧ ([0x41] : List Byte).length < (3 : Word).toNat ∧
    AllPresent s.params.table [0x41] ∧ StreamHas s.mem 0x1300 0 (messageBits s.params.table [0x41]) ∧
    NoCodeword s.params.table s.mem 0x1300 (bitCount s.params.table [0x41]) ∧
    (Span.mk 0x1300 (bytesOfBits (bitCount s.params.table [0x41] + lmax s.params.table))).overlaps ⟨0x1400, 3⟩ =
      false ∧
    Backed s.params 0x1300 (bytesOfBits (bitCount s.params.table [0x41] + lmax s.params.table)) ∧
    Backed s.params 0x1400 1 := by decide

theorem witness_DecodingUndoesEncoding :
    tableWf codecVec.params.table = true ∧ AllPresent codecVec.params.table (memBytes codecVec.mem 0x1100 4) ∧
    bitCount codecVec.params.table (memBytes codecVec.mem 0x1100 4) ≤ 2 ^ 32 - 1 ∧
    bytesOfBits (bitCount codecVec.params.table (memBytes codecVec.mem 0x1100 4)) ≤ (2 : Word).toNat ∧
    (Span.mk 0x1100 4).overlaps ⟨0x1104, 2⟩ = false ∧ (Span.mk 0x1104 2).overlaps ⟨0x1100, 4⟩ = false ∧
    Backed codecVec.params 0x1100 4 ∧ Backed codecVec.params 0x1104 2 ∧ Backed codecVec.params 0x1100 4 := by
  decide

/-- 'A', 'B' and 'D' have the same code and are told apart by the length. -/
theorem witness_TheMatchIsUnambiguous :
    tableWf Config.tableEx = true ∧ tableMatch Config.tableEx 1 1 = some 0x42 ∧
    tableMatch Config.tableEx 1 2 = some 0x41 ∧ tableMatch Config.tableEx 1 3 = some 0x44 ∧
    tableMatch Config.tableEx (1 >>> 0) 2 = some 0x41 ∧ tableMatch Config.tableEx 1 (2 + 0) = some 0x41 := by
  decide

/-- The last byte of the one buffer is the first of the other. -/
theorem witness_OverlappingCodecBuffersHaveNoMeaning :
    tableWf codecVec.params.table = true ∧ (∃ i < 4, ∃ j < 2, addr 0x1100 i = addr 0x1103 j) ∧
    AllPresent codecVec.params.table [0x41, 0x42, 0x43, 0x44] ∧
    StreamHas codecVec.mem 0x1300 0 (messageBits codecVec.params.table [0x41, 0x42, 0x43, 0x44]) ∧
    Backed codecVec.params 0x1300 2 ∧ ∃ i < 2, ∃ j < 4, addr 0x1300 i = addr 0x1301 j := by decide

/-- No symbol present; two symbols with one codeword; a codeword that begins another; a code too long for its
length. -/
theorem witness_IllFormedTableStopsTheCodecOnly :
    tableWf (vec ⟨3, [], []⟩ []).params.table = false ∧ tableWf [(1, ⟨0, 1⟩), (2, ⟨0, 1⟩)] = false ∧
    tableWf [(1, ⟨0, 1⟩), (2, ⟨1, 2⟩)] = false ∧ tableWf [(1, ⟨2, 1⟩)] = false := by decide

/-- The second clause, where the commands go on: with a table that is not well formed they answer as with `TABLE_EX`,
and change the channel alike. -/
theorem witness_IllFormedTableStopsTheCodecOnly_ring :
    let s := { ringVec ringTwo with params := { vecParams with table := [(1, ⟨2, 1⟩)] } }
    tableWf s.params.table = false ∧
    [Instr.enq .outbound 0x1006 8, .deq .outbound 0x2000 8, .len .outbound, .cap .outbound].all
      (fun i => (answer (exec i s)).isSome && answer (exec i s) == answer (exec i (ringVec ringTwo)) &&
        channelAfter (exec i s) .outbound == channelAfter (exec i (ringVec ringTwo)) .outbound) = true := by decide

/-- A message with an unbacked byte, and a stream with one. -/
theorem witness_UnbackedByteStopsACodecCommand :
    let s := vec holeParams [(0x1000, 0x60), (0x1001, 0x80), (0x1100, 0x41), (0x1101, 0x41)]
    let t := vec holeParams [(0x1000, 0x41), (0x1001, 0x41)]
    tableWf s.params.table = true ∧ (Span.mk 0x1000 2).overlaps ⟨0x1200, 1⟩ = false ∧
    AllPresent t.params.table (memBytes t.mem 0x1000 2) ∧
    bitCount t.params.table (memBytes t.mem 0x1000 2) ≤ 8 * 1 ∧ ¬ Backed t.params 0x1000 2 ∧
    AllPresent s.params.table [0x41, 0x42, 0x43, 0x44] ∧
    StreamHas s.mem 0x1000 0 (messageBits s.params.table [0x41, 0x42, 0x43, 0x44]) ∧
    (Span.mk 0x1000 2).overlaps ⟨0x1400, 4⟩ = false ∧ ¬ Backed s.params 0x1000 2 := by decide

theorem witness_CodecCommandsFrame :
    (∃ t, exec (.enc 0x1110 3 0x1200 4) codecVec = .next t) ∧
    ∃ t, exec (.dec 0x1300 4 0x1400) codecVec = .next t :=
  ⟨goesOn_next (by decide), goesOn_next (by decide)⟩

/-- Every operand may be 0 and every pointer may wrap. -/
theorem witness_EveryCommandCompletes :
    codecVec.params.holes = [] ∧ tableWf codecVec.params.table = true ∧
    [Instr.enq .outbound 0xFFFFFFFE 4, .deq .inbound 0 0, .len .outbound, .cap .inbound,
      .enc 0x1100 4 0xFFFFFFFF 3, .dec 0x1300 4 0].all
      (fun i => !((sourceSpan codecVec i).overlaps (destSpan i))) = true := by decide

end Sys2Proof.Machine
end

section
/-! The parameters of R6 are constants (R41): a command, an accepted request, an agent's action and `rst` each keep
them, and so does a step, which is one of these or idle. -/

namespace Sys2Proof.Machine

theorem exec_params {i : Instr} {s t : State} (h : exec i s = .next t) : t.params = s.params := by
  obtain ⟨u, st, v, rfl, -, -, hu, -⟩ := exec_next h
  calc (u.respond st v).params
      _ = u.params := State.respond_params u st v
      _ = s.params := by rw [hu]

theorem runRequest_params {p : PortId} {q : Request} {s t : State} (h : runRequest p q s = .next t) :
    t.params = s.params := by
  obtain ⟨-, ⟨r, -, rfl⟩ | ⟨i, -, hi⟩⟩ := runRequest_next h
  · simp
  · rw [exec_params hi, State.accept_params]

theorem agentAct_params {p : PortId} {act : AgentAct} {rest : List AgentAct} {s t : State}
    (h : agentAct p act rest s = .next t) : t.params = s.params := by
  obtain ⟨q, -, rfl⟩ | ⟨a, v, -, -, -, rfl⟩ | ⟨a, -, -, -, rfl⟩ := agentAct_next h <;> simp

theorem resetMove_params {s t : State} (h : resetMove s = .next t) : t.params = s.params := by
  obtain ⟨-, ⟨-, -, rfl⟩ | rfl | ⟨p, i, -, rfl⟩⟩ := resetMove_next h <;> simp

theorem step_params {s t : State} (h : step s = .next t) : t.params = s.params := by
  obtain ⟨-, hreset⟩ | ⟨-, ⟨-, -, rfl⟩ | ⟨p, s', hs', hmove⟩⟩ := step_next h
  · exact resetMove_params hreset
  · rfl
  · have hparams : s'.params = s.params := by rcases hs' with rfl | rfl <;> simp
    rw [← hparams]
    obtain ⟨q, -, hrun⟩ | ⟨a, rest, -, -, hact⟩ := hmove
    · exact runRequest_params hrun
    · exact agentAct_params hact

/-- Settles O14: every kind of step, a reset included, keeps the parameters. -/
theorem noStepChangesTheParameters : Obligations.NoStepChangesTheParameters :=
  fun _ _ h => step_params h

end Sys2Proof.Machine
end

section
/-! The invariant of the state (R21 to R23, R50, R55) holds after reset and is kept by every step: a command keeps it
by the laws of its operation, every other move leaves channels alone, or puts them at their reset values, and writes
`MEM` byte by byte. -/

namespace Sys2Proof.Machine

/-- The invariant looks at the parameters, the channels and `MEM` only, so an update of anything else keeps it. -/
theorem State.Inv.of_same_memory {s t : State} (h : s.Inv) (hp : t.params = s.params := by simp)
    (ho : t.outbound = s.outbound := by simp) (hi : t.inbound = s.inbound := by simp)
    (hm : t.mem = s.mem := by simp) : t.Inv := by
  unfold State.Inv
  rw [hp, ho, hi, hm]
  exact h

/-- A new `MEM` in canonical form keeps the invariant. -/
theorem State.Inv.setMem {s : State} (h : s.Inv) {m : Mem} (hm : MemOk m) : (s.setMem m).Inv :=
  let ⟨hout, hin, _⟩ := h
  ⟨hout, hin, hm⟩

theorem State.Inv.memOk {s : State} (h : s.Inv) : MemOk s.mem :=
  let ⟨_, _, hmem⟩ := h
  hmem

/-- After reset both channels are empty, so only `MEM` matters for the invariant. -/
theorem State.afterRst_inv {s : State} (hm : MemOk s.mem) : s.afterRst.Inv :=
  ⟨RingBuffer.reset_inv (capacity_pos _), RingBuffer.reset_inv (capacity_pos _), hm⟩

theorem exec_inv {i : Instr} {s t : State} (hs : s.Inv) (h : exec i s = .next t) : t.Inv := by
  obtain ⟨u, st, v, rfl, -, -, -, hu⟩ := exec_next h
  exact (hu hs).of_same_memory

theorem runRequest_inv {p : PortId} {q : Request} {s t : State} (hs : s.Inv) (h : runRequest p q s = .next t) :
    t.Inv := by
  have haccept : (s.accept p).Inv := hs.of_same_memory
  obtain ⟨-, ⟨r, -, rfl⟩ | ⟨i, -, hi⟩⟩ := runRequest_next h
  · exact haccept.of_same_memory
  · exact exec_inv haccept hi

theorem agentAct_inv {p : PortId} {act : AgentAct} {rest : List AgentAct} {s t : State} (hs : s.Inv)
    (h : agentAct p act rest s = .next t) : t.Inv := by
  obtain ⟨q, -, rfl⟩ | ⟨a, v, -, -, -, rfl⟩ | ⟨a, -, -, -, rfl⟩ := agentAct_next h
  · exact hs.of_same_memory
  · exact (hs.setMem (memOk_write a v hs.memOk)).of_same_memory
  · exact hs.of_same_memory

theorem resetMove_inv {s t : State} (hs : s.Inv) (h : resetMove s = .next t) : t.Inv := by
  obtain ⟨-, ⟨-, -, rfl⟩ | rfl | ⟨p, i, -, rfl⟩⟩ := resetMove_next h
  · exact State.afterRst_inv hs.memOk
  · exact State.afterRst_inv hs.memOk
  · exact State.afterRst_inv (memOk_freeFill _ _ _ hs.memOk)

theorem step_inv {s t : State} (hs : s.Inv) (h : step s = .next t) : t.Inv := by
  obtain ⟨-, hreset⟩ | ⟨-, ⟨-, -, rfl⟩ | ⟨p, s', hs', hmove⟩⟩ := step_next h
  · exact resetMove_inv hs hreset
  · exact hs
  · have hinv : s'.Inv := by
      rcases hs' with rfl | rfl
      · exact hs
      · exact hs.of_same_memory
    obtain ⟨q, -, hrun⟩ | ⟨a, rest, -, -, hact⟩ := hmove
    · exact runRequest_inv hinv hrun
    · exact agentAct_inv hinv hact

/-- Settles O15: every kind of step keeps the invariant. -/
theorem everyStepKeepsTheInvariant : Obligations.EveryStepKeepsTheInvariant :=
  fun _ _ hs h => step_inv hs h

/-- Settles O16: two reset channels meet the invariant at every capacity, and an empty memory is canonical. -/
theorem resetMeetsTheInvariant : Obligations.ResetMeetsTheInvariant :=
  fun p => ⟨RingBuffer.reset_inv (capacity_pos p), RingBuffer.reset_inv (capacity_pos p), rfl, rfl⟩

end Sys2Proof.Machine
end

section
/-! What ENQ and DEQ move, as effects on the channel, its live region and `MEM` (R28, R101, R102, R107). -/

namespace Sys2Proof.Machine

/-! ### The live region as a list -/

@[simp] theorem RingBuffer.live_length (C : Nat) (b : RingBuffer) : (b.live C).length = b.n := by
  simp [RingBuffer.live]

/-- The oldest `min(k, n)` bytes are the first slots of the live region. -/
theorem RingBuffer.live_take (C k : Nat) (b : RingBuffer) :
    (b.live C).take k = (List.range (min k b.n)).map fun j => Mem.read b.store ((b.r + j) % C) := by
  rw [RingBuffer.live, ← List.map_take, List.take_range]

/-- On a buffer that is not full the flag says whether it is empty (R22). -/
theorem RingBuffer.Inv.state_of_lt {C : Nat} {b : RingBuffer} (h : b.Inv C) (hn : b.n < C) :
    b.state = if b.n = 0 then .empty else .part := by
  obtain ⟨-, -, -, hempty, hfull, -⟩ := h
  cases hst : b.state with
  | empty => rw [if_pos (hempty.mp hst)]
  | part => rw [if_neg fun h0 => by simp [hempty.mpr h0] at hst]
  | full => exact absurd (hfull.mp hst) (Nat.ne_of_lt hn)

/-! ### From the loops to the commands -/

/-- With a pointer that is not null, ENQ goes on exactly when its loop does. -/
theorem exec_enq_next_iff {s t : State} {ch : Channel} {src k : Word} (hsrc : src ≠ 0) :
    exec (.enq ch src k) s = .next t ↔
      ∃ b i, enqLoop s.params s.mem src k.toNat 0 (s.rb ch) = .ok (b, i) ∧
        t = (s.setRb ch b).respond .ok (BitVec.ofNat 32 i) := by
  have hnull : src ≠ null := hsrc
  rcases hloop : enqLoop s.params s.mem src k.toNat 0 (s.rb ch) with e | ⟨b, i⟩ <;>
    simp [exec, execEnq, hnull, hloop, eq_comm, and_assoc]

/-- With a pointer that is not null, DEQ goes on exactly when its loop does. -/
theorem exec_deq_next_iff {s t : State} {ch : Channel} {dst k : Word} (hdst : dst ≠ 0) :
    exec (.deq ch dst k) s = .next t ↔
      ∃ b m i, deqLoop s.params dst k.toNat 0 (s.rb ch) s.mem = .ok (b, m, i) ∧
        t = ((s.setRb ch b).setMem m).respond .ok (BitVec.ofNat 32 i) := by
  have hnull : dst ≠ null := hdst
  rcases hloop : deqLoop s.params dst k.toNat 0 (s.rb ch) s.mem with e | ⟨b, m, i⟩ <;>
    simp [exec, execDeq, hnull, hloop, eq_comm, and_assoc]

/-- Settles O22: DEQ's loop from byte 0 moves `min(k, n)` bytes; the flag follows from the length left. -/
theorem deqMovesWhatIsThere : Obligations.DeqMovesWhatIsThere := by
  intro s ch dst k hinv hdst hback
  have hlt : k.toNat < 2 ^ 32 := k.isLt
  obtain ⟨b, m, hloop, hb, hn, hw, hstore, hr, hnone, -, hin, hout⟩ :=
    deqLoop_moves (p := s.params) (dst := dst) (left := k.toNat) (i := 0) (m := s.mem) hinv (by omega)
      (by simpa only [Nat.zero_add] using hback)
  simp only [Nat.zero_add] at hloop hin hout
  refine ⟨b, m, (exec_deq_next_iff hdst).mpr ⟨b, m, _, hloop, rfl⟩, hr, hw, hstore, hn, ?_, hin, hout⟩
  split
  · next h0 => rw [(hnone h0).1]
  · next hmoved =>
    obtain ⟨-, -, hle, -⟩ := hinv
    exact hb.state_of_lt (by omega)

/-- What an ENQ that goes on does to the live region: the source's bytes come after the youngest (R107). -/
theorem exec_enq_live {s t : State} {ch : Channel} {src k : Word} (hinv : (s.rb ch).Inv (capacity s.params))
    (hsrc : src ≠ 0) (h : exec (.enq ch src k) s = .next t) :
    (t.rb ch).live (capacity s.params) = (s.rb ch).live (capacity s.params) ++
      memBytes s.mem src (min k.toNat (capacity s.params - (s.rb ch).n)) := by
  obtain ⟨b, i, hloop, rfl⟩ := (exec_enq_next_iff hsrc).mp h
  obtain ⟨b', hloop', -, -, -, -, -, hlive, -⟩ := enqLoop_moves hinv (enqLoop_backed hloop hinv)
  obtain rfl : b = b' := congrArg Prod.fst (Except.ok.inj (hloop.symm.trans hloop'))
  simpa [memBytes] using hlive

/-- What a DEQ that goes on does to the live region: the oldest bytes leave it, in order, for the destination
(R107). -/
theorem exec_deq_live {s t : State} {ch : Channel} {dst k : Word} (hinv : (s.rb ch).Inv (capacity s.params))
    (hdst : dst ≠ 0) (h : exec (.deq ch dst k) s = .next t) :
    memBytes t.mem dst (min k.toNat (s.rb ch).n) = ((s.rb ch).live (capacity s.params)).take k.toNat ∧
    (t.rb ch).live (capacity s.params) = ((s.rb ch).live (capacity s.params)).drop k.toNat := by
  have hlt : k.toNat < 2 ^ 32 := k.isLt
  obtain ⟨b, m, i, hloop, rfl⟩ := (exec_deq_next_iff hdst).mp h
  obtain ⟨b', m', hloop', -, -, -, -, -, -, hlive, hin, -⟩ :=
    deqLoop_moves (i := 0) (m := s.mem) hinv (by omega) (deqLoop_backed hloop hinv)
  have heq := Except.ok.inj (hloop.symm.trans hloop')
  obtain rfl : b = b' := congrArg Prod.fst heq
  obtain rfl : m = m' := congrArg (·.2.1) heq
  constructor
  · rw [RingBuffer.live_take, memBytes]
    exact List.map_congr_left fun j hj => by simpa using hin j (List.mem_range.mp hj)
  · simp [hlive, List.drop_eq_drop_iff]

/-- Settles O27: ENQ appends to the live region and DEQ takes from its front. -/
theorem firstInFirstOut : Obligations.FirstInFirstOut :=
  fun _ _ _ _ _ hinv hp => ⟨exec_enq_live hinv hp, exec_deq_live hinv hp⟩

end Sys2Proof.Machine
end

section
/-! Which command may change what of a channel (R21, R100, R105, R202). -/

namespace Sys2Proof.Machine

/-- An ENQ that goes on never moves `r` and never empties a channel, its own or the other (R105). -/
theorem exec_enq_keeps {s t : State} {c : Channel} {src k : Word} (h : exec (.enq c src k) s = .next t)
    (ch : Channel) :
    (t.rb ch).r = (s.rb ch).r ∧ ((t.rb ch).state = .empty → (s.rb ch).state = .empty) ∧
      (ch ≠ c → t.rb ch = s.rb ch) := by
  rcases execEnq_cases c src k s with ⟨-, e⟩ | ⟨-, b, n, e, -, hr, -, hempty, -⟩ | ⟨-, e⟩ <;>
    rw [exec, e] at h <;> cases h
  · simp
  · by_cases hch : ch = c
    · subst hch; simpa [hr] using hempty
    · simp [State.setRb_rb_other _ _ hch]

/-- A DEQ that goes on never moves `w`, never writes a store and never fills a channel, its own or the other (R29,
R105). -/
theorem exec_deq_keeps {s t : State} {c : Channel} {dst k : Word} (h : exec (.deq c dst k) s = .next t)
    (ch : Channel) :
    (t.rb ch).w = (s.rb ch).w ∧ (t.rb ch).store = (s.rb ch).store ∧
      ((t.rb ch).state = .full → (s.rb ch).state = .full) ∧ (ch ≠ c → t.rb ch = s.rb ch) := by
  rcases execDeq_cases c dst k s with ⟨-, e⟩ | ⟨-, b, m, n, e, -, hw, hstore, -, hfull, -⟩ | ⟨-, e⟩ <;>
    rw [exec, e] at h <;> cases h
  · simp
  · by_cases hch : ch = c
    · subst hch; simpa [hw, hstore] using hfull
    · simp [State.setRb_rb_other _ _ hch]

theorem exec_enc_rb {s t : State} {msg mlen out cap : Word} (h : exec (.enc msg mlen out cap) s = .next t)
    (ch : Channel) : t.rb ch = s.rb ch := by
  rcases execEnc_cases msg mlen out cap s with ⟨-, e⟩ | ⟨-, -, e⟩ | ⟨-, -, ⟨-, m, e, -⟩ | ⟨-, e⟩ | e⟩ <;>
    rw [exec, e] at h <;> cases h <;> simp

theorem exec_dec_rb {s t : State} {encoded count out : Word} (h : exec (.dec encoded count out) s = .next t)
    (ch : Channel) : t.rb ch = s.rb ch := by
  rcases execDec_cases encoded count out s with ⟨-, e⟩ | ⟨-, e | ⟨run, syms, -, -, -, -, -,
    ⟨-, e⟩ | ⟨-, ⟨-, -, -, m, e, -⟩ | ⟨-, -, -, -, -, e⟩⟩⟩⟩ <;>
    rw [exec, e] at h <;> cases h <;> simp

/-- A command that changes anything of a channel is an ENQ or a DEQ on it (R100). -/
theorem enq_or_deq_of_rb_ne {i : Instr} {s t : State} {ch : Channel} (h : exec i s = .next t)
    (hne : t.rb ch ≠ s.rb ch) : ∃ p k, i = .enq ch p k ∨ i = .deq ch p k := by
  cases i with
  | enq c src k =>
    obtain rfl : ch = c := of_not_not fun hch => hne ((exec_enq_keeps h ch).2.2 hch)
    exact ⟨src, k, .inl rfl⟩
  | deq c dst k =>
    obtain rfl : ch = c := of_not_not fun hch => hne ((exec_deq_keeps h ch).2.2.2 hch)
    exact ⟨dst, k, .inr rfl⟩
  | len c => cases h; simp at hne
  | cap c => cases h; simp at hne
  | enc msg mlen out cap => exact absurd (exec_enc_rb h ch) hne
  | dec encoded count out => exact absurd (exec_dec_rb h ch) hne

/-- Settles O31: a change is by ENQ or DEQ on the channel, and each of the two keeps what only the other changes. -/
theorem onlyEnqAndDeqTouchAChannel : Obligations.OnlyEnqAndDeqTouchAChannel := by
  intro i s t ch h
  refine ⟨fun hchange => ?_, fun hchange => ?_, enq_or_deq_of_rb_ne h⟩
  · have hne : t.rb ch ≠ s.rb ch := fun e => by simp [e] at hchange
    obtain ⟨p, k, rfl | rfl⟩ := enq_or_deq_of_rb_ne h hne
    · exact ⟨p, k, rfl⟩
    · obtain ⟨hw, hstore, hfull, -⟩ := exec_deq_keeps h ch
      rcases hchange with hw' | hstore' | ⟨hfull', hnot⟩
      · exact absurd hw hw'
      · exact absurd hstore hstore'
      · exact absurd (hfull hfull') hnot
  · have hne : t.rb ch ≠ s.rb ch := fun e => by simp [e] at hchange
    obtain ⟨p, k, rfl | rfl⟩ := enq_or_deq_of_rb_ne h hne
    · obtain ⟨hr, hempty, -⟩ := exec_enq_keeps h ch
      rcases hchange with hr' | ⟨hempty', hnot⟩
      · exact absurd hr hr'
      · exact absurd (hempty hempty') hnot
    · exact ⟨p, k, rfl⟩

end Sys2Proof.Machine
end

section
/-! The match of accumulated bits in a well-formed code table (R34, R35, R140). -/

namespace Sys2Proof.Machine

/-- Of two listed entries, one whose codeword begins the other's is that other (R35). -/
theorem eq_of_entry_begins {t : CodeTable} (hwf : tableWf t = true) {x y : Byte × CodeEntry} (hx : x ∈ t)
    (hy : y ∈ t) (hlen : x.2.len.val ≤ y.2.len.val)
    (hcode : y.2.code >>> (y.2.len.val - x.2.len.val) = x.2.code) : x = y := by
  obtain ⟨-, hrise, -, hfree⟩ := tableWf_iff.mp hwf
  have hsym : x.1 = y.1 := of_not_not fun hne => hfree x hx y hy hne ⟨hlen, hcode⟩
  exact Prod.ext hsym (by rw [← tableEntry_of_mem hrise hx, ← tableEntry_of_mem hrise hy, hsym])

/-- The match is the present symbol whose entry is the accumulated pair (R136, R140). -/
theorem tableMatch_iff {t : CodeTable} (hwf : tableWf t = true) {acc : Word} {l : Nat} {s : Byte} :
    tableMatch t acc l = some s ↔
      isPresent t s = true ∧ (tableEntry t s).code = acc ∧ (tableEntry t s).len.val = l := by
  obtain ⟨-, hrise, hshape, -⟩ := tableWf_iff.mp hwf
  constructor
  · intro h
    obtain ⟨e, hmem, hlen, hcode, hpos⟩ := tableMatch_some h
    have hentry : tableEntry t s = e := tableEntry_of_mem hrise hmem
    exact ⟨by simpa [isPresent, hentry] using hpos, by rw [hentry, hcode], by rw [hentry, hlen]⟩
  · rintro ⟨hpresent, rfl, rfl⟩
    have hmem := mem_of_present hpresent
    cases hmatch : tableMatch t (tableEntry t s).code (tableEntry t s).len.val with
    | none => exact absurd ⟨(hshape _ hmem).1, rfl, rfl⟩ (tableMatch_none hmatch _ hmem)
    | some s' =>
      obtain ⟨e, hmem', hlen, hcode, -⟩ := tableMatch_some hmatch
      have heq := eq_of_entry_begins hwf hmem' hmem (Nat.le_of_eq hlen) (by simp [hlen, hcode])
      exact congrArg (some ·.1) heq

/-- No match at a length goes before one at a longer length (R35, R140). -/
theorem tableMatch_begins {t : CodeTable} (hwf : tableWf t = true) {acc : Word} {l d : Nat} {x y : Byte}
    (hx : tableMatch t (acc >>> d) l = some x) (hy : tableMatch t acc (l + d) = some y) : d = 0 ∧ x = y := by
  obtain ⟨ex, hmemx, rfl, hcodex, -⟩ := tableMatch_some hx
  obtain ⟨ey, hmemy, hleny, rfl, -⟩ := tableMatch_some hy
  have heq : (x, ex) = (y, ey) :=
    eq_of_entry_begins hwf hmemx hmemy (by simp [hleny]) (by simp [hleny, hcodex])
  obtain ⟨rfl, rfl⟩ := Prod.mk.inj heq
  exact ⟨by omega, rfl⟩

/-- Settles O41: the match is the present symbol with that entry, and no codeword begins another's. -/
theorem theMatchIsUnambiguous : Obligations.TheMatchIsUnambiguous :=
  fun _ hwf => ⟨fun _ _ _ => tableMatch_iff hwf, fun _ _ _ _ _ => tableMatch_begins hwf⟩

end Sys2Proof.Machine
end

section
/-! A machine with another code table in the place of its own: the ring buffer commands do not look at it (R27, R34,
R35). -/

namespace Sys2Proof.Machine

/-- The same machine with another code table. -/
def State.withTable (s : State) (T : CodeTable) : State := { s with params := { s.params with table := T } }

@[simp] theorem State.withTable_params (s : State) (T : CodeTable) :
    (s.withTable T).params = { s.params with table := T } := rfl
@[simp] theorem State.withTable_mem (s : State) (T : CodeTable) : (s.withTable T).mem = s.mem := rfl
@[simp] theorem State.withTable_rb (s : State) (T : CodeTable) (ch : Channel) : (s.withTable T).rb ch = s.rb ch := by
  cases ch <;> rfl

theorem State.setRb_withTable (s : State) (T : CodeTable) (ch : Channel) (b : RingBuffer) :
    (s.withTable T).setRb ch b = (s.setRb ch b).withTable T := by cases ch <;> rfl

theorem State.setMem_withTable (s : State) (T : CodeTable) (m : Mem) :
    (s.withTable T).setMem m = (s.setMem m).withTable T := rfl

theorem State.respond_withTable (s : State) (T : CodeTable) (st : Status) (v : Word) :
    (s.withTable T).respond st v = (s.respond st v).withTable T := by
  obtain ⟨_, _, _, _, _, _, _, serving, _⟩ := s
  cases serving <;> rfl

/-- Two outcomes stop for the same reason, or go on to states that differ in the table alone. -/
abbrev SameButTable (T : CodeTable) :
    Host.Outcome State Fault Refusal → Host.Outcome State Fault Refusal → Prop :=
  OutcomesAlike fun t u => u = t.withTable T

theorem execEnq_withTable (ch : Channel) (src k : Word) (s : State) (T : CodeTable) :
    SameButTable T (execEnq ch src k s) (execEnq ch src k (s.withTable T)) := by
  simp only [execEnq, State.withTable_params, State.withTable_mem, State.withTable_rb, enqLoop_table]
  split
  · exact State.respond_withTable s T _ _
  · cases enqLoop s.params s.mem src k.toNat 0 (s.rb ch) with
    | error e => rfl
    | ok x => simp only [State.setRb_withTable, State.respond_withTable, OutcomesAlike]

theorem execDeq_withTable (ch : Channel) (dst k : Word) (s : State) (T : CodeTable) :
    SameButTable T (execDeq ch dst k s) (execDeq ch dst k (s.withTable T)) := by
  simp only [execDeq, State.withTable_params, State.withTable_mem, State.withTable_rb, deqLoop_table]
  split
  · exact State.respond_withTable s T _ _
  · cases deqLoop s.params dst k.toNat 0 (s.rb ch) s.mem with
    | error e => rfl
    | ok x => simp only [State.setRb_withTable, State.setMem_withTable, State.respond_withTable, OutcomesAlike]

theorem execLen_withTable (ch : Channel) (s : State) (T : CodeTable) :
    SameButTable T (execLen ch s) (execLen ch (s.withTable T)) := by
  simp only [execLen, State.withTable_rb, State.respond_withTable, OutcomesAlike]

theorem execCap_withTable (ch : Channel) (s : State) (T : CodeTable) :
    SameButTable T (execCap ch s) (execCap ch (s.withTable T)) :=
  State.respond_withTable s T _ _

/-- Settles O43: the codec's first check is the table's; the four ring buffer commands depend on it nowhere. -/
theorem illFormedTableStopsTheCodecOnly : Obligations.IllFormedTableStopsTheCodecOnly := by
  constructor
  · intro s a b c d hwf
    exact ⟨if_pos hwf, if_pos hwf, fun ch => ⟨rfl, rfl⟩⟩
  · intro s ch a b T i hi
    simp only [List.mem_cons, List.not_mem_nil, or_false] at hi
    rcases hi with rfl | rfl | rfl | rfl
    · exact execEnq_withTable ch a b s T
    · exact execDeq_withTable ch a b s T
    · exact execLen_withTable ch s T
    · exact execCap_withTable ch s T

end Sys2Proof.Machine
end

section
/-! Reset leaves both channels empty (R40, R200), and the codes and outputs of flag and status (R25, R26, R170). -/

namespace Sys2Proof.Machine

theorem State.outstanding_of_not_pending {s : State} {p : PortId} (h : (s.port p).pending = none) :
    s.outstanding p = none := by simp [State.outstanding, h]

/-- `rst` with no request outstanding goes on, and cuts no command short (R200). -/
theorem step_rst_idle {s : State} (hrst : s.rst = true) (hF : s.portF.pending = none)
    (hI : s.portI.pending = none) : step s = .next s.afterRst := by
  have hF : s.outstanding .foreground = none := State.outstanding_of_not_pending hF
  have hI : s.outstanding .interrupt = none := State.outstanding_of_not_pending hI
  simp [step, hrst, resetMove, State.clash, hF, hI]

/-- Settles O17: the state after reset is written out by the model, and `rst` with nothing outstanding leads there. -/
theorem resetLeavesBothChannelsEmpty : Obligations.ResetLeavesBothChannelsEmpty := by
  constructor
  · intro p ch
    cases ch <;> exact ⟨rfl, rfl, rfl, rfl, rfl, rfl, rfl, fun port => by cases port <;> rfl⟩
  · intro s hrst hF hI
    refine ⟨s.afterRst, step_rst_idle hrst hF hI, rfl, rfl, rfl, rfl, rfl, fun ch => ?_⟩
    cases ch <;> exact ⟨rfl, rfl, rfl, rfl⟩

/-- Settles O19: each constructor has the code its rule gives it. -/
theorem flagAndStatusCodes : Obligations.FlagAndStatusCodes :=
  ⟨rfl, rfl, rfl, fun f => by cases f <;> decide, rfl, rfl, rfl, rfl, rfl, fun st => by cases st <;> decide⟩

theorem RingBuffer.emptyOut_iff (b : RingBuffer) : b.emptyOut = true ↔ b.state = .empty := beq_iff_eq

theorem RingBuffer.fullOut_iff (b : RingBuffer) : b.fullOut = true ↔ b.state = .full := beq_iff_eq

/-- Settles O20: the outputs read the flag, and the invariant ties the flag to the length (R22). -/
theorem levelOutputsFollowTheLength : Obligations.LevelOutputsFollowTheLength :=
  fun _ b ⟨_, _, _, hempty, hfull, _⟩ => ⟨b.emptyOut_iff.trans hempty, b.fullOut_iff.trans hfull⟩

end Sys2Proof.Machine
end

section
/-! Accepting a request, and the order of the ports (R65, R87, R178, R210). -/

namespace Sys2Proof.Machine

/-! ### Outstanding requests and their conflicts -/

theorem State.outstanding_of_pending {s : State} {p : PortId} {q : Request} {i : Instr}
    (hq : (s.port p).pending = some q) (hi : decode q = .ok i) : s.outstanding p = some i := by
  simp [State.outstanding, hq, hi]

theorem State.clash_of_outstanding {s : State} {i j : Instr} (hF : s.outstanding .foreground = some i)
    (hI : s.outstanding .interrupt = some j) : s.clash = conflicts s i j := by
  simp [State.clash, hF, hI]

/-- A conflict takes two outstanding requests. -/
theorem State.clash_of_not_outstanding {s : State} {p : PortId} (h : s.outstanding p = none) : s.clash = false := by
  cases p <;> cases hF : s.outstanding .foreground <;> simp_all [State.clash]

@[simp] theorem State.drawn_outstanding (s : State) (p : PortId) : s.drawn.outstanding p = s.outstanding p := by
  simp [State.outstanding]

/-- The buffers a command names do not depend on the count of free values. -/
@[simp] theorem sourceSpan_drawn (s : State) (i : Instr) : sourceSpan s.drawn i = sourceSpan s i := rfl

@[simp] theorem State.drawn_clash (s : State) : s.drawn.clash = s.clash := by
  simp [State.clash, conflicts]

/-- Two commands conflict exactly when they share a byte that one of them may write (R210). -/
theorem conflicts_iff {s : State} {i j : Instr} :
    conflicts s i j = true ↔ ∃ a : Word,
      ((destSpan i).holds a = true ∧ ((destSpan j).holds a = true ∨ (sourceSpan s j).holds a = true)) ∨
      ((sourceSpan s i).holds a = true ∧ (destSpan j).holds a = true) := by
  simp only [conflicts, Bool.or_eq_true, overlaps_iff, ← exists_or, and_or_left]

/-! ### Accepting a request -/

theorem runRequest_of_clash {s : State} (p : PortId) (q : Request) (h : s.clash = true) :
    runRequest p q s = .refused .conflictingRequests := by simp [runRequest, h]

/-- Where no requests conflict, a legal request's acceptance is its command's meaning (R65, R178). -/
theorem runRequest_legal {s : State} (p : PortId) {q : Request} {i : Instr} (hi : decode q = .ok i)
    (hc : s.clash = false) : runRequest p q s = exec i (s.accept p) := by simp [runRequest, hi, hc]

/-! ### The step with `rst` released -/

theorem step_of_rst_released {s : State} (h : s.rst = false) : step s = portsMove s := by simp [step, h]

/-- The one port that can move does, and that is the step. -/
theorem step_single {s : State} {p : PortId} {mv : Move} (hrst : s.rst = false) (h : (s.port p).move = some mv)
    (ho : (s.port p.other).move = none) : step s = perform p mv s :=
  (step_of_rst_released hrst).trans (portsMove_single h ho)

/-- When both ports can move, the step is one of the two moves (R65, U10). -/
theorem step_both {s : State} {a b : Move} (hrst : s.rst = false) (ha : s.portF.move = some a)
    (hb : s.portI.move = some b) :
    step s = perform .foreground a s.drawn ∨ step s = perform .interrupt b s.drawn := by
  rw [step_of_rst_released hrst]
  exact portsMove_both ha hb

/-- With a request presented on each port, the step accepts one of the two (R65, U10). -/
theorem step_both_pending {s : State} {qF qI : Request} (hrst : s.rst = false) (hF : s.portF.pending = some qF)
    (hI : s.portI.pending = some qI) :
    step s = runRequest .foreground qF s.drawn ∨ step s = runRequest .interrupt qI s.drawn :=
  step_both hrst (Port.move_of_pending hF) (Port.move_of_pending hI)

/-- Settles O6: whichever port goes first, its acceptance is its command's meaning. -/
theorem eitherPendingRequestMayGoFirst : Obligations.EitherPendingRequestMayGoFirst := by
  intro s qF qI iF iI hrst hF hI hdF hdI hconf
  have hc : s.drawn.clash = false := by
    rw [State.drawn_clash, State.clash_of_outstanding (State.outstanding_of_pending hF hdF)
      (State.outstanding_of_pending hI hdI), hconf]
  rcases step_both_pending hrst hF hI with h | h
  · exact .inl (h.trans (runRequest_legal .foreground hdF hc))
  · exact .inr (h.trans (runRequest_legal .interrupt hdI hc))

/-- Settles O7: the conflict test is one on shared bytes, and either port's acceptance refuses on it. -/
theorem overlappingOutstandingRequestsHaveNoMeaning : Obligations.OverlappingOutstandingRequestsHaveNoMeaning := by
  intro s qF qI iF iI hrst hF hI hdF hdI
  refine ⟨conflicts_iff, fun hconf => ?_⟩
  have hc : s.drawn.clash = true := by
    rw [State.drawn_clash, State.clash_of_outstanding (State.outstanding_of_pending hF hdF)
      (State.outstanding_of_pending hI hdI), hconf]
  rcases step_both_pending hrst hF hI with h | h
  · exact h.trans (runRequest_of_clash .foreground qF hc)
  · exact h.trans (runRequest_of_clash .interrupt qI hc)

theorem decodeTableWord_some {nbits w : Nat} {i : Instr} :
    decodeTableWord nbits w = some i ↔ decode (Request.ofBits nbits w) = .ok i := by
  cases h : decode (Request.ofBits nbits w) <;> simp [decodeTableWord, h]

/-- A request alone at the ports conflicts with none, so the step is its command's meaning. -/
theorem step_alone {s : State} {p : PortId} {q : Request} {i : Instr} (h : s.Alone p q) (hi : decode q = .ok i) :
    step s = exec i (s.accept p) := by
  obtain ⟨hrst, hq, hother⟩ := h
  have hc : s.clash = false :=
    State.clash_of_not_outstanding (State.outstanding_of_not_pending (Port.move_none_iff.mp hother).1)
  rw [step_single hrst (Port.move_of_pending hq) hother]
  exact runRequest_legal p hi hc

/-- Settles O5: a legal request's acceptance runs its command; a request alone at the ports is accepted by the
step, and `withFetchWord` places one so. -/
theorem stepRunsTheDecodedCommand : Obligations.StepRunsTheDecodedCommand := by
  refine ⟨fun s p q i _ hi hc => runRequest_legal p hi hc, fun s p q i halone hi => step_alone halone hi, ?_⟩
  intro s nbits w i hi
  have halone : (s.withFetchWord nbits w).Alone .foreground (Request.ofBits nbits w) := ⟨rfl, rfl, rfl⟩
  exact step_alone halone (decodeTableWord_some.mp hi)

/-- Settles O47: a free port's move is its agent's next act, and presenting is one of the acts. -/
theorem stepPerformsAPortsNextMove : Obligations.StepPerformsAPortsNextMove :=
  ⟨fun _ _ _ _ hrst hq htodo hother => step_single hrst (Port.move_of_todo hq htodo) hother,
    fun _ _ _ hrst ha hb => step_both hrst ha hb, fun _ _ _ _ => rfl⟩

end Sys2Proof.Machine
end

section
/-! The agents' own accesses to `MEM` (R51, R67, R210). -/

namespace Sys2Proof.Machine

/-- An agent's store is kept off the bytes the other port's command reads or writes (R67). -/
theorem State.namedByOther_eq_false_iff {s : State} {p : PortId} {a : Word} :
    s.namedByOther p a = false ↔ ∀ i, s.outstanding p.other = some i →
      (destSpan i).holds a = false ∧ (sourceSpan s i).holds a = false := by
  cases h : s.outstanding p.other <;> simp [State.namedByOther, h]

/-- An agent's load is kept off the bytes the other port's command may write (R67). -/
theorem State.writtenByOther_eq_false_iff {s : State} {p : PortId} {a : Word} :
    s.writtenByOther p a = false ↔ ∀ i, s.outstanding p.other = some i → (destSpan i).holds a = false := by
  cases h : s.outstanding p.other <;> simp [State.writtenByOther, h]

theorem agentAct_store {s : State} {p : PortId} {a : Word} {v : Byte} {rest : List AgentAct}
    (hv : memValid s.params a = true) (hn : s.namedByOther p a = false) :
    agentAct p (.store a v) rest s =
      .next ((s.setMem (Mem.write s.mem a.toNat v)).setPort p { s.port p with todo := rest }) := by
  simp [agentAct, hn, memWrite, hv]

theorem agentAct_load {s : State} {p : PortId} {a : Word} {rest : List AgentAct}
    (hv : memValid s.params a = true) (hn : s.writtenByOther p a = false) :
    agentAct p (.load a) rest s =
      .next (s.setPort p { s.port p with todo := rest, seen := some (Mem.read s.mem a.toNat) }) := by
  simp [agentAct, hn, memRead, hv]

theorem agentAct_store_named {s : State} {p : PortId} {a : Word} {v : Byte} {rest : List AgentAct}
    (hn : s.namedByOther p a = true) : agentAct p (.store a v) rest s = .refused .agentTouchesBuffer := by
  simp [agentAct, hn]

theorem agentAct_load_written {s : State} {p : PortId} {a : Word} {rest : List AgentAct}
    (hn : s.writtenByOther p a = true) : agentAct p (.load a) rest s = .refused .agentTouchesBuffer := by
  simp [agentAct, hn]

/-- Settles O12: a store is one write and a load one read, and the two tests of R67 refuse the rest. -/
theorem agentsOwnAccessesAreByteAccesses : Obligations.AgentsOwnAccessesAreByteAccesses := by
  intro s p a v rest hv
  refine ⟨fun hfree => ?_, fun hfree => agentAct_load hv (State.writtenByOther_eq_false_iff.mpr hfree),
    fun i hi => ⟨fun hnamed => ?_, fun hwritten => ?_⟩⟩
  · refine ⟨_, agentAct_store hv (State.namedByOther_eq_false_iff.mpr hfree), by simp, fun b => ?_⟩
    simpa using Mem.read_write s.mem a.toNat b v
  · exact agentAct_store_named (by simpa [State.namedByOther, hi] using hnamed)
  · exact agentAct_load_written (by simpa [State.writtenByOther, hi] using hwritten)

end Sys2Proof.Machine
end

section
/-! An unbacked byte stops a ring buffer command, and nothing else does (R54, R101, R102). -/

namespace Sys2Proof.Machine

/-- ENQ's loop stops exactly at an unbacked byte among the ones it would move. -/
theorem enqLoop_refuses_iff {p : Params} {m : Mem} {src : Word} {left : Nat} {b : RingBuffer}
    (hinv : b.Inv (capacity p)) :
    enqLoop p m src left 0 b = .error .unbackedAddress ↔ ¬ Backed p src (min left (capacity p - b.n)) := by
  constructor
  · intro herr hback
    obtain ⟨b', hok, -⟩ := enqLoop_moves (m := m) (src := src) (left := left) (i := 0) hinv
      (by simpa only [Nat.zero_add] using hback)
    simp [hok] at herr
  · intro hback
    rcases enqLoop_result (p := p) (m := m) (src := src) (left := left) (i := 0) (b := b) with
      ⟨b', i', hok, -⟩ | herr
    · exact absurd (by simpa only [Nat.zero_add] using enqLoop_backed hok hinv) hback
    · exact herr

/-- DEQ's loop stops exactly at an unbacked byte among the ones it would move. -/
theorem deqLoop_refuses_iff {p : Params} {dst : Word} {left : Nat} {b : RingBuffer} {m : Mem}
    (hinv : b.Inv (capacity p)) (hleft : left ≤ 2 ^ 32) :
    deqLoop p dst left 0 b m = .error .unbackedAddress ↔ ¬ Backed p dst (min left b.n) := by
  constructor
  · intro herr hback
    obtain ⟨b', m', hok, -⟩ := deqLoop_moves (dst := dst) (left := left) (i := 0) (m := m) hinv (by omega)
      (by simpa only [Nat.zero_add] using hback)
    simp [hok] at herr
  · intro hback
    rcases deqLoop_result (p := p) (dst := dst) (left := left) (i := 0) (b := b) (m := m) with
      ⟨b', m', i', hok, -⟩ | herr
    · exact absurd (by simpa only [Nat.zero_add] using deqLoop_backed hok hinv) hback
    · exact herr

/-- With a pointer that is not null, ENQ is refused exactly when its loop stops. -/
theorem exec_enq_refused_iff {s : State} {ch : Channel} {src k : Word} {e : Refusal} (hsrc : src ≠ 0) :
    exec (.enq ch src k) s = .refused e ↔ enqLoop s.params s.mem src k.toNat 0 (s.rb ch) = .error e := by
  have hnull : src ≠ null := hsrc
  rcases hloop : enqLoop s.params s.mem src k.toNat 0 (s.rb ch) with e' | ⟨b, i⟩ <;>
    simp [exec, execEnq, hnull, hloop]

/-- With a pointer that is not null, DEQ is refused exactly when its loop stops. -/
theorem exec_deq_refused_iff {s : State} {ch : Channel} {dst k : Word} {e : Refusal} (hdst : dst ≠ 0) :
    exec (.deq ch dst k) s = .refused e ↔ deqLoop s.params dst k.toNat 0 (s.rb ch) s.mem = .error e := by
  have hnull : dst ≠ null := hdst
  rcases hloop : deqLoop s.params dst k.toNat 0 (s.rb ch) s.mem with e' | ⟨b, m, i⟩ <;>
    simp [exec, execDeq, hnull, hloop]

/-- Settles O32: each command is refused where its loop stops, and that is at an unbacked byte it would move. -/
theorem unbackedByteStopsARingCommand : Obligations.UnbackedByteStopsARingCommand :=
  fun _ _ _ k hinv hp =>
    ⟨(exec_enq_refused_iff hp).trans (enqLoop_refuses_iff hinv),
      (exec_deq_refused_iff hp).trans (deqLoop_refuses_iff hinv (Nat.le_of_lt k.isLt))⟩

end Sys2Proof.Machine
end

section
/-! When the codec commands go on, and when an unbacked byte stops them (R54, R131, R136, R146). -/

namespace Sys2Proof.Machine

/-! ### ENC -/

/-- With a well-formed table and buffers that do not overlap, ENC goes on where the message is backed, and every
byte of `outBuffer` that the message's bits reach (R131, R138). -/
theorem exec_enc_completes {s : State} {msg mlen out cap : Word} (hwf : tableWf s.params.table = true)
    (hov : (Span.mk msg mlen.toNat).overlaps ⟨out, cap.toNat⟩ = false) (hmsg : Backed s.params msg mlen.toNat)
    (hout : ∀ b < bytesOfBits (bitCount s.params.table (memBytes s.mem msg mlen.toNat)), b < cap.toNat →
      memValid s.params (addr out b) = true) :
    ∃ t, exec (.enc msg mlen out cap) s = .next t := by
  have hcap : cap.toNat ≤ 2 ^ 32 := Nat.le_of_lt cap.isLt
  have hstart := Packed.start s.params out s.mem
  have houtside : ∀ j < mlen.toNat, Outside out cap.toNat (addr msg (0 + j)).toNat := fun j hj => by
    rw [Nat.zero_add]; exact outside_of_disjoint hov hj
  have hbytes : (List.range mlen.toNat).map (fun j => Mem.read s.mem (addr msg (0 + j)).toNat) =
      memBytes s.mem msg mlen.toNat := by simp [memBytes]
  obtain ⟨⟨st, e⟩, hloop⟩ := encLoop_backed hstart hcap (Nat.zero_le _) houtside
    (fun j hj => by rw [Nat.zero_add]; exact hmsg j hj)
    (fun b hb h8 => hout b (by rw [hbytes, List.length_nil] at h8; unfold bytesOfBits; omega) hb)
  obtain ⟨hst, hpacked, -, -⟩ := encLoop_ok hloop hstart hcap (Nat.zero_le _) houtside
  rw [hbytes] at hst hpacked
  cases hok : st with
  | ok =>
    subst hok
    obtain ⟨-, hfit, -⟩ := (encVerdict_ok (Nat.zero_le _) (Nat.zero_le _)).mp hst.symm
    have hpos : e.bitpos = bitCount s.params.table (memBytes s.mem msg mlen.toNat) := by
      simpa using (hpacked rfl).bitpos
    obtain ⟨e', hflush⟩ := flush_backed (p := s.params) (out := out) (e := e) fun b hb =>
      hout b (by rwa [← hpos]) (by rw [hpos] at hb; unfold bytesOfBits at hb; omega)
    simp [exec, execEnc, hwf, hov, hloop, hflush]
  | _ => simp [exec, execEnc, hwf, hov, hloop, hok]

/-- `m` is the memory `m0` with the encoded stream of the message `ms` in the bytes at `out`: its bits, zeros below
the last one, and every other byte as it was (R131, R132). -/
structure HoldsStream (t : CodeTable) (ms : List Byte) (out : Word) (m0 m : Mem) : Prop where
  bits  : ∀ i < 8 * bytesOfBits (bitCount t ms), memBit m out i = (messageBits t ms).getD i false
  frame : ∀ a, Outside out (bytesOfBits (bitCount t ms)) a → Mem.read m a = Mem.read m0 a

/-- A message of present symbols that fits: ENC answers OK with the stream in place, every byte it accessed being
backed, or stops at an unbacked byte (R131, R132, R54). -/
theorem exec_enc_of_fits {s : State} {msg mlen out cap : Word} {ms : List Byte}
    (hms : memBytes s.mem msg mlen.toNat = ms) (hwf : tableWf s.params.table = true)
    (hov : (Span.mk msg mlen.toNat).overlaps ⟨out, cap.toNat⟩ = false) (hp : AllPresent s.params.table ms)
    (hcap : bitCount s.params.table ms ≤ 8 * cap.toNat) (hword : bitCount s.params.table ms ≤ 2 ^ 32 - 1) :
    (∃ m, exec (.enc msg mlen out cap) s =
        .next ((s.setMem m).respond .ok (BitVec.ofNat 32 (bitCount s.params.table ms))) ∧
      HoldsStream s.params.table ms out s.mem m ∧ Backed s.params msg mlen.toNat ∧
      Backed s.params out (bytesOfBits (bitCount s.params.table ms))) ∨
    exec (.enc msg mlen out cap) s = .refused .unbackedAddress := by
  subst hms
  have hverdict : encVerdict s.params.table cap.toNat (memBytes s.mem msg mlen.toNat) 0 = .ok :=
    (encVerdict_ok (Nat.zero_le _) (Nat.zero_le _)).mpr ⟨hp, by omega, by omega⟩
  rcases execEnc_cases msg mlen out cap s with ⟨hwf', -⟩ | ⟨-, hov', -⟩ |
    ⟨-, -, ⟨-, m, hnext, hbits, hframe, -, hmsg, hout⟩ | ⟨hbad, -⟩ | hrefused⟩
  · simp [hwf] at hwf'
  · simp [hov] at hov'
  · exact .inl ⟨m, hnext, ⟨hbits, hframe⟩, hmsg, hout⟩
  · exact absurd hverdict hbad
  · exact .inr hrefused

/-- Settles O34: where the bytes are backed ENC goes on, and then it has written the stream. -/
theorem encWritesTheEncodedStream : Obligations.EncWritesTheEncodedStream := by
  intro s msg mlen out cap hwf hov hp hcap hword hmsg hout
  rcases exec_enc_of_fits rfl hwf hov hp hcap hword with ⟨m, hnext, hstream, -, -⟩ | hrefused
  · exact ⟨m, hnext, hstream.bits, hstream.frame⟩
  · obtain ⟨t, hnext⟩ := exec_enc_completes hwf hov hmsg fun b hb _ => hout b hb
    simp [hrefused] at hnext

/-! ### DEC -/

/-- A stream that begins with a message's codewords: the reading is that message, or stops at an unbacked byte
(R136, R140, R147). -/
theorem decLoop_of_stream {p : Params} (hwf : tableWf p.table = true) {m : Mem} {encoded : Word} {pos : Nat}
    {found ms : List Byte} (hp : AllPresent p.table ms) (hst : StreamHas m encoded pos (messageBits p.table ms)) :
    decLoop p m encoded ms.length found pos = .ok ⟨found ++ ms, pos + bitCount p.table ms, false⟩ ∨
    decLoop p m encoded ms.length found pos = .error .unbackedAddress := by
  obtain ⟨-, -, hshape, -⟩ := tableWf_iff.mp hwf
  induction ms generalizing found pos with
  | nil => simp [decLoop]
  | cons x ms ih =>
    obtain ⟨hx, hrest⟩ := List.forall_mem_cons.mp hp
    rw [messageBits_cons, streamHas_append, codeBits_length] at hst
    obtain ⟨hcode, hst⟩ := hst
    have hmem := mem_of_present hx
    rcases decSymbol_result (p := p) (m := m) (encoded := encoded) (left := lmax p.table) (l := 0) (start := pos)
        hshape (AccHolds.zero m encoded pos) (by have := lmax_le p.table; omega) with
      ⟨x', e, hsym, hmem', -, -, hcode', -⟩ | ⟨-, hnone, -⟩ | ⟨herr, -⟩
    · obtain ⟨rfl, rfl⟩ := Prod.mk.inj (codeword_unique hwf hmem' hmem hcode' hcode)
      rw [Nat.add_zero] at hsym
      simp only [List.length_cons, decLoop, hsym]
      simpa [Nat.add_assoc] using ih (found := found ++ [x']) hrest hst
    · exact absurd hcode (hnone _ hmem (Nat.pos_of_ne_zero (hshape _ hmem).1) (by simpa using le_lmax hmem))
    · rw [Nat.add_zero] at herr
      exact .inr (by simp only [List.length_cons, decLoop, herr])

theorem exec_dec_refused_of_reading {s : State} {encoded count out : Word} {e : Refusal}
    (hwf : tableWf s.params.table = true)
    (h : decLoop s.params s.mem encoded count.toNat [] 0 = .error e) :
    exec (.dec encoded count out) s = .refused e := by
  simp [exec, execDec, hwf, h]

/-- Settles O44: ENC of a message that fits, and DEC of a stream that holds its message, either have accessed backed
bytes only or stop at an unbacked one. -/
theorem unbackedByteStopsACodecCommand : Obligations.UnbackedByteStopsACodecCommand := by
  intro s a b c d hwf
  refine ⟨fun hov hp hcap hword hback => ?_, fun m hlen hp hst hov hback => ?_⟩
  · rcases exec_enc_of_fits rfl hwf hov hp hcap hword with ⟨-, -, -, hmsg, hout⟩ | hrefused
    · exact absurd ⟨hmsg, hout⟩ hback
    · exact hrefused
  · rcases decLoop_of_stream hwf (found := []) hp hst with hread | hstop
    · rw [hlen, List.nil_append, Nat.zero_add] at hread
      rcases execDec_cases a b c s with ⟨hwf', -⟩ | ⟨-, hrefused | ⟨run, syms, hrun, -, -, -, henc,
        ⟨hov', -⟩ | ⟨-, ⟨-, -, -, m', -, -, -, -, hout⟩ | ⟨hdead, -⟩⟩⟩⟩
      · simp [hwf] at hwf'
      · exact hrefused
      all_goals obtain rfl := Except.ok.inj (hrun.symm.trans hread)
      · simp [hov] at hov'
      · exact absurd ⟨henc, hout⟩ hback
      · cases hdead
    · rw [hlen] at hstop
      exact exec_dec_refused_of_reading hwf hstop

end Sys2Proof.Machine
end

section
/-! With every address backed, every command completes (R54, R145, R220). -/

namespace Sys2Proof.Machine

theorem memValid_of_no_holes {p : Params} (h : p.holes = []) (a : Word) : memValid p a = true := by
  simp [memValid, h]

/-! ### The loops, where every address is backed -/

theorem enqLoop_completes {p : Params} (hv : ∀ a, memValid p a = true) (m : Mem) (src : Word) (left i : Nat)
    (b : RingBuffer) : ∃ x, enqLoop p m src left i b = .ok x := by
  induction left generalizing i b with
  | zero => exact ⟨_, rfl⟩
  | succ left ih =>
    by_cases hfull : b.state = .full
    · exact ⟨_, if_pos hfull⟩
    · simpa [enqLoop, hfull, memRead, hv] using ih _ _

theorem deqLoop_completes {p : Params} (hv : ∀ a, memValid p a = true) (dst : Word) (left i : Nat)
    (b : RingBuffer) (m : Mem) : ∃ x, deqLoop p dst left i b m = .ok x := by
  induction left generalizing i b m with
  | zero => exact ⟨_, rfl⟩
  | succ left ih =>
    by_cases hempty : b.state = .empty
    · exact ⟨_, if_pos hempty⟩
    · simpa [deqLoop, hempty, memWrite, hv] using ih _ _ _

theorem decLoop_completes {p : Params} (hv : ∀ a, memValid p a = true) (m : Mem) (encoded : Word) (left pos : Nat)
    (found : List Byte) : ∃ run, decLoop p m encoded left found pos = .ok run := by
  rcases decLoop_reads_upto (p := p) (m := m) (encoded := encoded) (left := left) (pos := pos) (found := found) with
    ⟨run, -, -, -, hrun⟩ | ⟨q, -, -, -, hhole, -⟩
  · exact ⟨run, hrun m fun _ _ _ => rfl⟩
  · simp [hv] at hhole

/-! ### The commands -/

theorem exec_enq_completes {s : State} (hv : ∀ a, memValid s.params a = true) (ch : Channel) (src k : Word) :
    ∃ t, exec (.enq ch src k) s = .next t := by
  by_cases hsrc : src = 0
  · exact ⟨_, if_pos hsrc⟩
  · obtain ⟨⟨b, i⟩, hloop⟩ := enqLoop_completes hv s.mem src k.toNat 0 (s.rb ch)
    exact ⟨_, (exec_enq_next_iff hsrc).mpr ⟨b, i, hloop, rfl⟩⟩

theorem exec_deq_completes {s : State} (hv : ∀ a, memValid s.params a = true) (ch : Channel) (dst k : Word) :
    ∃ t, exec (.deq ch dst k) s = .next t := by
  by_cases hdst : dst = 0
  · exact ⟨_, if_pos hdst⟩
  · obtain ⟨⟨b, m, i⟩, hloop⟩ := deqLoop_completes hv dst k.toNat 0 (s.rb ch) s.mem
    exact ⟨_, (exec_deq_next_iff hdst).mpr ⟨b, m, i, hloop, rfl⟩⟩

/-- DEC goes on, in a dead end too, where every address is backed and its output overlaps no byte it reads. -/
theorem exec_dec_completes {s : State} (hv : ∀ a, memValid s.params a = true)
    (hwf : tableWf s.params.table = true) {encoded count out : Word}
    (hov : (readSpan s.params s.mem encoded count).overlaps ⟨out, count.toNat⟩ = false) :
    ∃ t, exec (.dec encoded count out) s = .next t := by
  obtain ⟨run, hrun⟩ := decLoop_completes hv s.mem encoded count.toNat 0 []
  simp only [readSpan, hrun] at hov
  obtain ⟨m, hwrite⟩ := memWriteList_backed (base := out) run.symbols (i := 0) s.mem fun _ _ => hv _
  cases hdead : run.deadEnd <;> simp [exec, execDec, hwf, hrun, hov, hwrite, hdead]

/-- Settles O46: no command meets an unbacked byte, and the codec's other two checks pass. -/
theorem everyCommandCompletes : Obligations.EveryCommandCompletes := by
  intro i s hholes hwf hov
  have hv := memValid_of_no_holes hholes
  cases i with
  | enq ch src k => exact exec_enq_completes hv ch src k
  | deq ch dst k => exact exec_deq_completes hv ch dst k
  | len ch => exact ⟨_, rfl⟩
  | cap ch => exact ⟨_, rfl⟩
  | enc msg mlen out cap => exact exec_enc_completes hwf hov (fun _ _ => hv _) fun _ _ _ => hv _
  | dec encoded count out => exact exec_dec_completes hv hwf hov

end Sys2Proof.Machine
end

section
/-! The bytes an outstanding command names stay as they are until its response (R67, R146, R210): the port's own
move is the response, and a move of the other port touches none of them. -/

namespace Sys2Proof.Machine

theorem PortId.eq_or_eq_other (p p' : PortId) : p' = p ∨ p' = p.other := by
  cases p <;> cases p' <;> simp [PortId.other]

/-! ### What a move does to the two ports -/

/-- A command that goes on adds one response on the port it serves and leaves the other port alone (R83). -/
theorem exec_ports {i : Instr} {s t : State} (h : exec i s = .next t) :
    (∃ r, t.port s.serving = (s.port s.serving).deliver r) ∧
      t.port s.serving.other = s.port s.serving.other := by
  obtain ⟨u, st, v, rfl, -, -, hu, -⟩ := exec_next h
  have hserving : s.serving = u.serving := by rw [hu]
  have hport : ∀ p, u.port p = s.port p := fun p => by rw [hu]; cases p <;> rfl
  rw [hserving, ← hport, ← hport]
  exact ⟨⟨_, State.respond_port u st v⟩, State.respond_port_other u st v⟩

/-- Accepting a request takes it from its port and adds one response there; the other port is left alone (R83,
R178). -/
theorem runRequest_ports {p : PortId} {q : Request} {s t : State} (h : runRequest p q s = .next t) :
    (∃ r, t.port p = { s.port p with pending := none, responses := (s.port p).responses ++ [r] }) ∧
      t.port p.other = s.port p.other := by
  obtain ⟨-, ⟨_, -, rfl⟩ | ⟨i, -, hexec⟩⟩ := runRequest_next h
  · have hown := State.respond_port (s.accept p) .illegalCommand 0
    have hother := State.respond_port_other (s.accept p) .illegalCommand 0
    rw [State.accept_serving] at hown hother
    exact ⟨⟨_, by rw [hown, State.accept_port]; rfl⟩, by rw [hother, State.accept_port_other]⟩
  · obtain ⟨⟨r, hown⟩, hother⟩ := exec_ports hexec
    rw [State.accept_serving] at hown hother
    exact ⟨⟨r, by rw [hown, State.accept_port]; rfl⟩, by rw [hother, State.accept_port_other]⟩

theorem agentAct_port_other {p : PortId} {act : AgentAct} {rest : List AgentAct} {s t : State}
    (h : agentAct p act rest s = .next t) : t.port p.other = s.port p.other := by
  obtain ⟨q, -, rfl⟩ | ⟨a, v, -, -, -, rfl⟩ | ⟨a, -, -, -, rfl⟩ := agentAct_next h <;> simp

/-! ### What the other port's move does to the bytes a command names -/

/-- Every byte that command `i` names in `s`, to read or to write, reads the same in `t`. -/
def State.KeepsNamed (s t : State) (i : Instr) : Prop :=
  ∀ a : Word, (destSpan i).holds a = true ∨ (sourceSpan s i).holds a = true →
    Mem.read t.mem a.toNat = Mem.read s.mem a.toNat

/-- A command of the other port that has a meaning does not conflict, so it writes no byte named (R210). -/
theorem runRequest_other_keepsNamed {s t : State} {p : PortId} {i : Instr} {q : Request}
    (hi : s.outstanding p = some i) (hq : (s.port p.other).pending = some q)
    (h : runRequest p.other q s = .next t) : s.KeepsNamed t i := by
  intro a ha
  obtain ⟨hclash, ⟨_, -, rfl⟩ | ⟨j, hj, hexec⟩⟩ := runRequest_next h
  · simp
  · have hother := State.outstanding_of_pending hq hj
    rw [exec_writes_only_dest hexec (not_dest_of_named hclash hi hother ha), State.accept_mem]

/-- The other port's agent that has a meaning stores to no byte named (R67). -/
theorem agentAct_other_keepsNamed {s t : State} {p : PortId} {i : Instr} {act : AgentAct} {rest : List AgentAct}
    (hi : s.outstanding p = some i) (h : agentAct p.other act rest s = .next t) : s.KeepsNamed t i := by
  intro a ha
  obtain ⟨q, -, rfl⟩ | ⟨b, v, -, hfree, -, rfl⟩ | ⟨b, -, -, -, rfl⟩ := agentAct_next h
  · simp
  · obtain ⟨hdest, hsource⟩ := State.namedByOther_eq_false_iff.mp hfree i (by rwa [PortId.other_other])
    have hne : a ≠ b := by rintro rfl; simp [hdest, hsource] at ha
    simpa using Mem.read_write_other s.mem v fun e => hne (BitVec.eq_of_toNat_eq e)
  · simp

/-! ### The step -/

/-- With `rst` released and a legal request outstanding on a port, a step that goes on answers that request, or
leaves the port and every byte the command names alone (R67, R210). -/
theorem step_answers_or_keepsNamed {s t : State} {p : PortId} {i : Instr} (hrst : s.rst = false)
    (hi : s.outstanding p = some i) (h : step s = .next t) :
    (t.port p = s.port p ∧ s.KeepsNamed t i) ∨
      ∃ r, t.port p = { s.port p with pending := none, responses := (s.port p).responses ++ [r] } := by
  obtain ⟨hrst', -⟩ | ⟨-, ⟨-, -, rfl⟩ | ⟨p', s', hs', hmove⟩⟩ := step_next h
  · simp [hrst] at hrst'
  · exact .inl ⟨rfl, fun _ _ => rfl⟩
  have hport : ∀ p, s'.port p = s.port p := fun p => by rcases hs' with rfl | rfl <;> simp
  have hi' : s'.outstanding p = some i := by rcases hs' with rfl | rfl <;> simpa using hi
  have hkeeps : s'.KeepsNamed t i → s.KeepsNamed t i := by rcases hs' with rfl | rfl <;> exact id
  rcases PortId.eq_or_eq_other p p' with rfl | rfl
  · obtain ⟨q, -, hrun⟩ | ⟨a, rest, hidle, -⟩ := hmove
    · rw [← hport]
      exact .inr (runRequest_ports hrun).1
    · simp [State.outstanding_of_not_pending hidle] at hi
  · rw [← hport]
    obtain ⟨q, hq, hrun⟩ | ⟨a, rest, -, -, hact⟩ := hmove
    · rw [← hport] at hq
      have hkept := (runRequest_ports hrun).2
      rw [PortId.other_other] at hkept
      exact .inl ⟨hkept, hkeeps (runRequest_other_keepsNamed hi' hq hrun)⟩
    · have hkept := agentAct_port_other hact
      rw [PortId.other_other] at hkept
      exact .inl ⟨hkept, hkeeps (agentAct_other_keepsNamed hi' hact)⟩

/-- Settles O48: a step that does not answer the request keeps the bytes named, and these determine a reading. -/
theorem namedBuffersStayUntilTheResponse : Obligations.NamedBuffersStayUntilTheResponse := by
  intro s t p i hrst hi h
  refine (step_answers_or_keepsNamed hrst hi h).imp_left fun ⟨hport, hkeeps⟩ => ?_
  have hparams := step_params h
  have hsource : ∀ a : Word, (sourceSpan s i).holds a = true → Mem.read t.mem a.toNat = Mem.read s.mem a.toNat :=
    fun a ha => hkeeps a (.inr ha)
  refine ⟨hport, sourceSpan_agree hparams i hsource, hkeeps, ?_⟩
  rintro encoded count out rfl
  rw [hparams]
  exact (readSpan_agree hsource).1

end Sys2Proof.Machine
end

section
/-! Decoding (R81 to R88): the fields of a command word, and by them what the decoder, the encoder and the opcode table
say of it. -/

namespace Sys2Proof

theorem Request.reserved_toNat (q : Request) : q.reserved.toNat = q.cmd.toNat / 512 := by
  rw [Request.reserved, BitVec.extractLsb'_toNat, Nat.shiftRight_eq_div_pow]
  omega

theorem Request.opcode_toNat (q : Request) : q.opcode.toNat = q.cmd.toNat % 256 := by
  simp [Request.opcode]

theorem Request.channel_bits_toNat (q : Request) : q.channel.bits.toNat = 256 * (q.cmd.toNat / 256 % 2) := by
  have hbit : q.cmd.getLsbD 8 = decide (q.cmd.toNat / 256 % 2 = 1) := by
    simp [BitVec.getLsbD, Nat.testBit_eq_decide_div_mod_eq]
  rw [Request.channel, hbit]
  split
  · next h => rw [of_decide_eq_true h]; rfl
  · next h => rw [show q.cmd.toNat / 256 % 2 = 0 by simpa using h]; rfl

/-- The channel's part of a command word is its bit 8. -/
theorem Request.and_channelMask (q : Request) : q.cmd &&& 0x100 = q.channel.bits := by
  have h : q.cmd &&& 0x100 = if q.cmd.getLsbD 8 then 0x100 else 0 := BitVec.and_twoPow q.cmd 8
  rw [h, Request.channel]
  split <;> rfl

theorem Channel.bits_inj {c c' : Channel} : c.bits = c'.bits ↔ c = c' := by
  cases c <;> cases c' <;> decide

/-- An opcode and a channel share no bit of a command word. -/
theorem opcode_add_channel (op : BitVec 8) (ch : Channel) :
    op.setWidth 32 + ch.bits = op.setWidth 32 ||| ch.bits := by
  apply BitVec.add_eq_or_of_and_eq_zero
  cases ch
  · exact BitVec.and_zero
  · exact (BitVec.and_twoPow _ 8).trans (by simp)

/-- A command word is an opcode with a channel exactly when these are its fields and its reserved bits are zero. -/
theorem Request.cmd_eq_iff {q : Request} {op : BitVec 8} {ch : Channel} :
    q.cmd = op.setWidth 32 ||| ch.bits ↔ q.reserved = 0 ∧ q.opcode = op ∧ q.channel = ch := by
  rw [← opcode_add_channel, ← Channel.bits_inj]
  simp only [← BitVec.toNat_inj, q.reserved_toNat, q.opcode_toNat, q.channel_bits_toNat, BitVec.toNat_add,
    BitVec.toNat_setWidth]
  have hch : ch.bits.toNat = 0 ∨ ch.bits.toNat = 256 := by cases ch <;> decide
  simp
  omega

/-- A command word is its part outside the channel bit with its channel. -/
theorem Request.cmd_eq_masked_add_channel (q : Request) : q.cmd = (q.cmd &&& 0xFFFFFEFF) + q.channel.bits := by
  have hdisjoint : (q.cmd &&& 0xFFFFFEFF) &&& (q.cmd &&& 0x100) = 0 := by
    rw [BitVec.and_assoc, BitVec.and_comm q.cmd 0x100, ← BitVec.and_assoc 0xFFFFFEFF]
    simp
  rw [← q.and_channelMask, BitVec.add_eq_or_of_and_eq_zero _ _ hdisjoint, ← BitVec.and_or_distrib_left]
  exact BitVec.and_allOnes.symm

/-- The mask of the channel commands compares every field but the channel (R84, R88). -/
theorem Request.masked_eq_iff {q : Request} {op : BitVec 8} :
    q.cmd &&& 0xFFFFFEFF = op.setWidth 32 ↔ q.reserved = 0 ∧ q.opcode = op := by
  calc q.cmd &&& 0xFFFFFEFF = op.setWidth 32
      _ ↔ q.cmd = op.setWidth 32 + q.channel.bits := by
        conv_rhs => lhs; rw [q.cmd_eq_masked_add_channel]
        exact (BitVec.add_left_inj _).symm
      _ ↔ q.reserved = 0 ∧ q.opcode = op := by simp [opcode_add_channel, Request.cmd_eq_iff]

/-! ### Legal requests -/

/-- The legal command words by their fields: six opcodes, the channel of a codec command 0 (R84). -/
def Request.Legal (q : Request) : Prop :=
  q.reserved = 0 ∧ (q.opcode ∈ [0x01, 0x02, 0x03, 0x04] ∨ q.opcode ∈ [0x08, 0x09] ∧ q.channel = .outbound)

/-- The opcode of a command (R84). -/
def Instr.opcode : Instr → BitVec 8
  | .enq _ _ _   => 0x01
  | .deq _ _ _   => 0x02
  | .len _       => 0x03
  | .cap _       => 0x04
  | .enc _ _ _ _ => 0x08
  | .dec _ _ _   => 0x09

/-- The channel in a command's word: the codec commands name none and leave the bit 0 (R81). -/
def Instr.channel : Instr → Channel
  | .enq ch _ _   => ch
  | .deq ch _ _   => ch
  | .len ch       => ch
  | .cap ch       => ch
  | .enc _ _ _ _ => .outbound
  | .dec _ _ _   => .outbound

theorem Instr.cmdWord_eq (i : Instr) : i.cmdWord = i.opcode.setWidth 32 ||| i.channel.bits := by
  cases i <;> simp [Instr.cmdWord, Instr.opcode, Instr.channel, Channel.bits]

theorem Request.cmd_eq_cmdWord_iff {q : Request} {i : Instr} :
    q.cmd = i.cmdWord ↔ q.reserved = 0 ∧ q.opcode = i.opcode ∧ q.channel = i.channel := by
  rw [i.cmdWord_eq, Request.cmd_eq_iff]

open Machine (CarriedBy)

theorem carriedBy_encode (i : Instr) : CarriedBy i (encode i) := by
  cases i <;> simp [CarriedBy, encode]

/-- A request that carries a command decodes to it, whatever its ignored words hold (R85, R86). -/
theorem decode_of_carriedBy {q : Request} {i : Instr} (h : CarriedBy i q) : decode q = .ok i := by
  obtain ⟨hcmd, hops⟩ := h
  obtain ⟨hr, ho, hc⟩ := Request.cmd_eq_cmdWord_iff.mp hcmd
  cases i with
  | enq ch _ _ | deq ch _ _ =>
    obtain ⟨rfl, rfl⟩ := hops
    simp [decode, hr, ho, hc, Instr.opcode, Instr.channel]
  | len ch | cap ch => simp [decode, hr, ho, hc, Instr.opcode, Instr.channel]
  | enc _ _ _ _ =>
    obtain ⟨rfl, rfl, rfl, rfl⟩ := hops
    simp [decode, hr, ho, hc, Instr.opcode, Instr.channel]
  | dec _ _ _ =>
    obtain ⟨rfl, rfl, rfl⟩ := hops
    simp [decode, hr, ho, hc, Instr.opcode, Instr.channel]

/-- What the decoder answers: a command the request carries, or a rejection of a request that is not legal. -/
theorem decode_cases (q : Request) :
    (∃ i, decode q = .ok i ∧ CarriedBy i q) ∨ (∃ r, decode q = .error r ∧ ¬ q.Legal) := by
  by_cases hr : q.reserved = 0
  case neg => exact .inr ⟨_, decode_reservedBits hr, fun ⟨hr', _⟩ => hr hr'⟩
  have hcmd {i : Instr} (ho : q.opcode = i.opcode) (hc : q.channel = i.channel) : q.cmd = i.cmdWord :=
    Request.cmd_eq_cmdWord_iff.mpr ⟨hr, ho, hc⟩
  unfold decode Request.Legal
  rw [if_neg (not_not_intro hr)]
  split
  · next ho => exact .inl ⟨_, rfl, hcmd ho rfl, rfl, rfl⟩
  split
  · next ho => exact .inl ⟨_, rfl, hcmd ho rfl, rfl, rfl⟩
  split
  · next ho => exact .inl ⟨_, rfl, hcmd ho rfl, trivial⟩
  split
  · next ho => exact .inl ⟨_, rfl, hcmd ho rfl, trivial⟩
  split
  · next ho =>
    cases hc : q.channel with
    | outbound => exact .inl ⟨_, rfl, hcmd ho hc, rfl, rfl, rfl, rfl⟩
    | inbound => exact .inr ⟨_, rfl, by simp [ho]⟩
  split
  · next ho =>
    cases hc : q.channel with
    | outbound => exact .inl ⟨_, rfl, hcmd ho hc, rfl, rfl, rfl⟩
    | inbound => exact .inr ⟨_, rfl, by simp [ho]⟩
  · exact .inr ⟨_, rfl, by simp_all⟩

theorem decode_ok_iff {q : Request} {i : Instr} : decode q = .ok i ↔ CarriedBy i q := by
  refine ⟨fun h => ?_, decode_of_carriedBy⟩
  obtain ⟨j, hj, hcarried⟩ | ⟨r, hr, -⟩ := decode_cases q
  · cases hj.symm.trans h
    exact hcarried
  · cases hr.symm.trans h

theorem legal_of_carriedBy {q : Request} {i : Instr} (h : CarriedBy i q) : q.Legal := by
  obtain ⟨hcmd, -⟩ := h
  obtain ⟨hr, ho, hc⟩ := Request.cmd_eq_cmdWord_iff.mp hcmd
  unfold Request.Legal
  rw [hr, ho, hc]
  cases i <;> simp [Instr.opcode, Instr.channel]

theorem decode_isOk_iff_legal {q : Request} : (∃ i, decode q = .ok i) ↔ q.Legal := by
  constructor
  · rintro ⟨i, h⟩
    exact legal_of_carriedBy (decode_ok_iff.mp h)
  · intro hlegal
    obtain ⟨i, h, -⟩ | ⟨r, -, hnot⟩ := decode_cases q
    · exact ⟨i, h⟩
    · exact absurd hlegal hnot

theorem decode_isError_iff_not_legal {q : Request} : (∃ r, decode q = .error r) ↔ ¬ q.Legal := by
  rw [← decode_isOk_iff_legal]
  cases decode q <;> simp

/-- Settles O2: the decoder's branches are R84's rows, and each reads the operand words R85 assigns. -/
theorem decodeAgreesWithEncode : Obligations.DecodeAgreesWithEncode :=
  ⟨fun i => decode_of_carriedBy (carriedBy_encode i), fun _ _ => decode_ok_iff⟩

/-- Settles O1: each legal word is its command's, so its request carries it; the others fail one of R87's checks. -/
theorem tenLegalWordsDecodeAndTheirNeighboursDoNot : Obligations.TenLegalWordsDecodeAndTheirNeighboursDoNot := by
  intro a b c d
  have legal (i : Instr) (h : CarriedBy i ⟨i.cmdWord, a, b, c, d⟩) := decode_of_carriedBy h
  have reserved (w : Word) (h : w.extractLsb' 9 23 ≠ 0) : decode ⟨w, a, b, c, d⟩ = .error .reservedBits :=
    decode_reservedBits h
  refine ⟨legal (.enq .outbound a b) ⟨rfl, rfl, rfl⟩, legal (.enq .inbound a b) ⟨rfl, rfl, rfl⟩,
    legal (.deq .outbound a b) ⟨rfl, rfl, rfl⟩, legal (.deq .inbound a b) ⟨rfl, rfl, rfl⟩,
    legal (.len .outbound) ⟨rfl, trivial⟩, legal (.len .inbound) ⟨rfl, trivial⟩,
    legal (.cap .outbound) ⟨rfl, trivial⟩, legal (.cap .inbound) ⟨rfl, trivial⟩,
    legal (.enc a b c d) ⟨rfl, rfl, rfl, rfl, rfl⟩, legal (.dec a b c) ⟨rfl, rfl, rfl, rfl⟩,
    ?_, ?_, ?_, ?_, ?_, reserved 0x201 (by decide), reserved 0x80000003 (by decide)⟩
  all_goals simp [decode, Request.reserved, Request.opcode, Request.channel]

/-! ### The rows of the opcode table -/

theorem OpcodeRow.covers_iff {row : OpcodeRow} {cmd : Word} :
    row.covers cmd = true ↔ cmd &&& row.mask = row.pattern := beq_iff_eq

/-- The table's rows cover exactly the legal words: four compare all but the channel, two the whole word (R88). -/
theorem exists_row_covers_iff_legal {q : Request} :
    (∃ row ∈ opcodeTable, row.covers q.cmd = true) ↔ q.Legal := by
  have henq : q.cmd &&& 0xFFFFFEFF = 0x00000001 ↔ _ := Request.masked_eq_iff (op := 0x01)
  have hdeq : q.cmd &&& 0xFFFFFEFF = 0x00000002 ↔ _ := Request.masked_eq_iff (op := 0x02)
  have hlen : q.cmd &&& 0xFFFFFEFF = 0x00000003 ↔ _ := Request.masked_eq_iff (op := 0x03)
  have hcap : q.cmd &&& 0xFFFFFEFF = 0x00000004 ↔ _ := Request.masked_eq_iff (op := 0x04)
  have hall : q.cmd &&& 0xFFFFFFFF = q.cmd := BitVec.and_allOnes
  have henc : q.cmd = 0x00000008 ↔ _ := Request.cmd_eq_iff (op := 0x08) (ch := .outbound)
  have hdec : q.cmd = 0x00000009 ↔ _ := Request.cmd_eq_iff (op := 0x09) (ch := .outbound)
  simp only [opcodeTable, OpcodeRow.covers_iff, List.mem_cons, List.not_mem_nil, exists_eq_or_imp, false_and,
    exists_false, henq, hdeq, hlen, hcap, hall, henc, hdec, Request.Legal]
  simp only [or_false, and_or_left, or_and_right, or_assoc]

/-- The row of a command's mnemonic, and no other, covers its word (R84, R88). -/
theorem covers_cmdWord_iff (i : Instr) :
    ∀ row ∈ opcodeTable, row.covers i.cmdWord = true ↔ row.mnemonic = i.mnemonic := by
  cases i with
  | enq ch _ _ | deq ch _ _ | len ch | cap ch =>
    cases ch <;> simp [opcodeTable, OpcodeRow.covers, Instr.cmdWord, Channel.bits, Instr.mnemonic]
  | enc _ _ _ _ | dec _ _ _ => simp [opcodeTable, OpcodeRow.covers, Instr.cmdWord, Instr.mnemonic]

/-- Settles O3: the rows cover the legal words, and a command's word is covered by its own row alone. -/
theorem legalExactlyWhenATableRowMatches : Obligations.LegalExactlyWhenATableRowMatches := by
  refine fun q => ⟨decode_isOk_iff_legal.trans exists_row_covers_iff_legal.symm, fun i hi => ?_⟩
  obtain ⟨hcmd, -⟩ := decode_ok_iff.mp hi
  rw [hcmd]
  exact covers_cmdWord_iff i

/-- A word is not legal exactly when it has one of the faults R87 lists. -/
theorem not_legal_iff {q : Request} : ¬ q.Legal ↔
    q.cmd.toNat % 256 ∉ [0x01, 0x02, 0x03, 0x04, 0x08, 0x09] ∨ q.cmd.toNat / 2 ^ 9 ≠ 0 ∨
      ((q.cmd.toNat % 256 = 0x08 ∨ q.cmd.toNat % 256 = 0x09) ∧ q.cmd.toNat / 2 ^ 8 % 2 ≠ 0) := by
  simp only [Request.Legal, List.mem_cons, List.not_mem_nil, ← Channel.bits_inj, ← BitVec.toNat_inj,
    q.reserved_toNat, q.opcode_toNat, q.channel_bits_toNat]
  simp [Channel.bits]
  omega

end Sys2Proof
end

section
/-! The responses at the ports: of an illegal request, of a command, and of a run (R83, R87, R171, R178, R220). -/

namespace Sys2Proof.Machine

/-! ### Illegal requests -/

theorem State.outstanding_of_rejected {s : State} {p : PortId} {q : Request} {r : Reject}
    (hq : (s.port p).pending = some q) (hr : decode q = .error r) : s.outstanding p = none := by
  simp [State.outstanding, hq, hr]

/-- A rejected request names no buffer, so its acceptance is its answer, in every state (R87). -/
theorem runRequest_illegal {s : State} {p : PortId} {q : Request} {r : Reject}
    (hq : (s.port p).pending = some q) (hr : decode q = .error r) :
    runRequest p q s = .next ((s.accept p).respond .illegalCommand 0) := by
  simp [runRequest, State.clash_of_not_outstanding (State.outstanding_of_rejected hq hr), hr]

/-- Answering an accepted request takes it from its port, adds the response there, and sets the port in service. -/
theorem State.accept_respond (s : State) (p : PortId) (st : Status) (v : Word) :
    (s.accept p).respond st v =
      { s.setPort p { s.port p with pending := none, responses := (s.port p).responses ++ [⟨st, v⟩] } with
        serving := p } := by
  cases p <;> rfl

/-- Settles O4: the decoder rejects what is not legal, and a rejected request is only answered. -/
theorem illegalRequestAnswersIllegalCommandOnly : Obligations.IllegalRequestAnswersIllegalCommandOnly := by
  refine ⟨fun q => decode_isError_iff_not_legal.trans not_legal_iff, rfl, fun s p q r hr hq => ⟨?_, ?_⟩⟩
  · rw [← State.accept_respond]
    exact runRequest_illegal hq hr
  · exact fun hrst hother => step_single hrst (Port.move_of_pending hq) hother

/-! ### The response of a command -/

/-- Settles O11: every command ends by `respond`, which delivers on the port in service only. -/
theorem oneResponseOnTheServingPort : Obligations.OneResponseOnTheServingPort := by
  intro i s t h
  obtain ⟨u, st, v, rfl, hstatus, hresult, hu, -⟩ := exec_next h
  have hserving : s.serving = u.serving := by rw [hu]
  have hport : ∀ p, s.port p = u.port p := fun p => by rw [hu]; cases p <;> rfl
  rw [hserving, hport, hport]
  exact ⟨⟨st, v⟩, hstatus, hresult, State.respond_port u st v, State.respond_port_other u st v⟩

/-! ### What a step does to the ports -/

/-- A port's own move took it from `x` to `y`: its request was answered, or its agent did its next act, and the
port then has a request pending exactly when the act presented one (R178). -/
def Port.Moved (x y : Port) : Prop :=
  (x.pending.isSome ∧ ∃ r, y = { x with pending := none, responses := x.responses ++ [r] }) ∨
  (x.pending = none ∧ y.responses = x.responses ∧
    ∃ act, x.todo = act :: y.todo ∧ y.pending.isSome = presents act)

theorem agentAct_port {p : PortId} {act : AgentAct} {rest : List AgentAct} {s t : State}
    (h : agentAct p act rest s = .next t) (hidle : (s.port p).pending = none) :
    (t.port p).responses = (s.port p).responses ∧ (t.port p).todo = rest ∧
      (t.port p).pending.isSome = presents act := by
  obtain ⟨q, rfl, rfl⟩ | ⟨a, v, rfl, -, -, rfl⟩ | ⟨a, rfl, -, -, rfl⟩ := agentAct_next h <;>
    simp [presents, hidle]

theorem exec_rst {i : Instr} {s t : State} (h : exec i s = .next t) : t.rst = s.rst := by
  obtain ⟨u, st, v, rfl, -, -, hu, -⟩ := exec_next h
  rw [State.respond_rst, hu]

theorem runRequest_rst {p : PortId} {q : Request} {s t : State} (h : runRequest p q s = .next t) : t.rst = s.rst := by
  obtain ⟨-, ⟨r, -, rfl⟩ | ⟨i, -, hi⟩⟩ := runRequest_next h
  · simp
  · rw [exec_rst hi, State.accept_rst]

theorem agentAct_rst {p : PortId} {act : AgentAct} {rest : List AgentAct} {s t : State}
    (h : agentAct p act rest s = .next t) : t.rst = s.rst := by
  obtain ⟨q, -, rfl⟩ | ⟨a, v, -, -, -, rfl⟩ | ⟨a, -, -, -, rfl⟩ := agentAct_next h <;> simp

/-- With `rst` released a step that goes on keeps it released, and is idle or moves one port and leaves the other as
it is (R65, R182). -/
theorem step_ports {s t : State} (hrst : s.rst = false) (h : step s = .next t) :
    t.rst = false ∧ ((s.portF.move = none ∧ s.portI.move = none ∧ t = s) ∨
      ∃ p, (s.port p).Moved (t.port p) ∧ t.port p.other = s.port p.other) := by
  obtain ⟨hrst', -⟩ | ⟨-, ⟨hF, hI, rfl⟩ | ⟨p, s', hs', hmove⟩⟩ := step_next h
  · simp [hrst] at hrst'
  · exact ⟨hrst, .inl ⟨hF, hI, rfl⟩⟩
  have hport : ∀ p, s.port p = s'.port p := fun p => by rcases hs' with rfl | rfl <;> simp
  have hrst' : s'.rst = false := by rcases hs' with rfl | rfl <;> simpa using hrst
  simp only [hport] at hmove ⊢
  obtain ⟨q, hq, hrun⟩ | ⟨act, rest, hidle, htodo, hact⟩ := hmove
  · obtain ⟨hown, hother⟩ := runRequest_ports hrun
    exact ⟨(runRequest_rst hrun).trans hrst', .inr ⟨p, .inl ⟨by simp [hq], hown⟩, hother⟩⟩
  · obtain ⟨hresponses, hrest, hpresents⟩ := agentAct_port hact hidle
    have hown : (s'.port p).Moved (t.port p) := .inr ⟨hidle, hresponses, act, by rw [htodo, hrest], hpresents⟩
    exact ⟨(agentAct_rst hact).trans hrst', .inr ⟨p, hown, agentAct_port_other hact⟩⟩

/-- Settles O9: a port with a request pending moves by being answered; the other port's moves leave it alone. -/
theorem oneRequestOutstandingUntilItsResponse : Obligations.OneRequestOutstandingUntilItsResponse := by
  intro s t p q hrst hq h
  obtain ⟨-, ⟨-, -, rfl⟩ | ⟨p', hmoved, hother⟩⟩ := step_ports hrst h
  · exact .inl rfl
  rcases PortId.eq_or_eq_other p' p with rfl | rfl
  · obtain ⟨-, hanswered⟩ | ⟨hidle, -⟩ := hmoved
    · exact .inr hanswered
    · simp [hidle] at hq
  · exact .inl hother

/-! ### Runs to the last answer -/

/-- The responses a port has yet to get: one for its pending request and one for each its agent will present. -/
def Port.due (x : Port) : Nat := (if x.pending.isSome then 1 else 0) + (x.todo.filter presents).length

/-- Each move of a port uses up work and answers what it takes: delivered and due responses together stay (R83). -/
theorem Port.Moved.progress {x y : Port} (h : x.Moved y) :
    y.work < x.work ∧ y.responses.length + y.due = x.responses.length + x.due := by
  obtain ⟨hpending, r, rfl⟩ | ⟨hidle, hresponses, act, htodo, hpresents⟩ := h
  · simp [Port.work, Port.due, hpending]
    omega
  · cases act with
    | present q =>
      simp [Port.work, Port.due, hidle, hresponses, htodo, hpresents, presents, List.filter_cons]
      omega
    | store a v | load a => simp [Port.work, Port.due, hidle, hresponses, htodo, hpresents, presents]

theorem Port.work_eq_zero_iff {x : Port} : x.work = 0 ↔ x.pending = none ∧ x.todo = [] := by
  cases hp : x.pending <;> simp [Port.work, hp]

theorem State.work_eq (s : State) (p : PortId) : s.work = (s.port p).work + (s.port p.other).work := by
  cases p
  · rfl
  · exact Nat.add_comm _ _

theorem State.work_eq_zero_iff {s : State} : s.work = 0 ↔ ∀ p, (s.port p).work = 0 := by
  refine ⟨fun h p => ?_, fun h => by rw [s.work_eq .foreground, h, h]⟩
  rw [s.work_eq p] at h
  omega

/-- A step uses up work unless none is left, and what each port has been answered and is due stays. -/
theorem step_progress {s t : State} (hrst : s.rst = false) (h : step s = .next t) :
    t.rst = false ∧ t.work ≤ s.work - 1 ∧
      ∀ p, (t.port p).responses.length + (t.port p).due = (s.port p).responses.length + (s.port p).due := by
  obtain ⟨hrst', ⟨hF, hI, rfl⟩ | ⟨p, hmoved, hother⟩⟩ := step_ports hrst h
  · refine ⟨hrst', ?_, fun _ => rfl⟩
    have hzero : t.work = 0 := State.work_eq_zero_iff.mpr fun p => Port.work_eq_zero_iff.mpr <| by
      cases p
      · exact Port.move_none_iff.mp hF
      · exact Port.move_none_iff.mp hI
    omega
  · obtain ⟨hwork, hanswers⟩ := hmoved.progress
    refine ⟨hrst', ?_, fun p' => ?_⟩
    · rw [State.work_eq s p, State.work_eq t p, hother]
      omega
    · rcases PortId.eq_or_eq_other p p' with rfl | rfl
      · exact hanswers
      · rw [hother]

/-- A run of at least as many steps as there is work ends with none, each port answered what it was due (R220). -/
theorem run_progress {n : Nat} {s t : State} (hrst : s.rst = false) (hn : s.work ≤ n)
    (h : core.run n s = .next t) :
    t.work = 0 ∧
      ∀ p, (t.port p).responses.length + (t.port p).due = (s.port p).responses.length + (s.port p).due := by
  induction n generalizing s with
  | zero =>
    cases h
    exact ⟨by omega, fun _ => rfl⟩
  | succ n ih =>
    simp only [Host.Core.run] at h
    split at h
    · next s' hstep =>
      obtain ⟨hrst', hwork, hanswers⟩ := step_progress hrst hstep
      obtain ⟨hdone, hrest⟩ := ih hrst' (by omega) h
      exact ⟨hdone, fun p => (hrest p).trans (hanswers p)⟩
    · cases h
    · cases h

/-- Settles O10: at the end of such a run nothing is due, so every response due at its start has been delivered. -/
theorem everyPresentedRequestIsAnsweredOnce : Obligations.EveryPresentedRequestIsAnsweredOnce := by
  intro s t hrst h p
  obtain ⟨hdone, hanswers⟩ := run_progress hrst le_rfl h
  obtain ⟨hpending, htodo⟩ := Port.work_eq_zero_iff.mp (State.work_eq_zero_iff.mp hdone p)
  have hp := hanswers p
  simp only [Port.due, hpending, htodo] at hp
  exact ⟨hpending, htodo, by simpa [Nat.add_assoc] using hp⟩

end Sys2Proof.Machine
end

section
/-! Wrap-around is invisible (R28, R113): two machines whose channels hold the same bytes, wherever these lie, go on
to such machines under every command, every move and every run, or stop for the same reason. -/

namespace Sys2Proof.Machine

/-! ### Ring buffers with the same contents -/

/-- The length alone fixes the flag (R22). -/
theorem RingBuffer.Inv.state_eq {C : Nat} {a b : RingBuffer} (ha : a.Inv C) (hb : b.Inv C) (hn : a.n = b.n) :
    a.state = b.state := by
  obtain ⟨-, -, -, hempty, hfull, -⟩ := ha
  obtain ⟨-, -, -, hempty', hfull', -⟩ := hb
  rw [hn, ← hempty'] at hempty
  rw [hn, ← hfull'] at hfull
  revert hempty hfull
  cases a.state <;> cases b.state <;> simp

theorem RingBuffer.sameContents_of_live {C : Nat} {a b : RingBuffer} (ha : a.Inv C) (hb : b.Inv C)
    (hlive : a.live C = b.live C) : a.SameContents C b :=
  ⟨ha, hb, ha.state_eq hb (by simpa using congrArg List.length hlive), hlive⟩

theorem RingBuffer.SameContents.state_eq {C : Nat} {a b : RingBuffer} (h : a.SameContents C b) :
    a.state = b.state := by
  obtain ⟨-, -, hstate, -⟩ := h
  exact hstate

theorem RingBuffer.SameContents.n_eq {C : Nat} {a b : RingBuffer} (h : a.SameContents C b) : a.n = b.n := by
  obtain ⟨-, -, -, hlive⟩ := h
  simpa using congrArg List.length hlive

theorem RingBuffer.SameContents.push {p : Params} {a b : RingBuffer} (h : a.SameContents (capacity p) b) (v : Byte)
    (hf : a.state ≠ .full) : (a.push p v).SameContents (capacity p) (b.push p v) := by
  obtain ⟨ha, hb, hstate, hlive⟩ := h
  have hf' : b.state ≠ .full := hstate ▸ hf
  exact sameContents_of_live (ha.push v hf) (hb.push v hf') (by rw [ha.live_push v hf, hb.live_push v hf', hlive])

/-- The oldest bytes agree, and so do the rest. -/
theorem RingBuffer.SameContents.pop {p : Params} {a b : RingBuffer} (h : a.SameContents (capacity p) b)
    (hf : a.state ≠ .empty) : a.front = b.front ∧ (a.pop p).SameContents (capacity p) (b.pop p) := by
  obtain ⟨ha, hb, hstate, hlive⟩ := h
  have hf' : b.state ≠ .empty := hstate ▸ hf
  rw [ha.live_pop hf, hb.live_pop hf', List.cons.injEq] at hlive
  exact ⟨hlive.1, sameContents_of_live (ha.pop hf) (hb.pop hf') hlive.2⟩

/-- ENQ's loop on the same contents stops for the same reason, or moves as many bytes to the same contents. -/
theorem enqLoop_sameContents {p : Params} {m : Mem} {src : Word} {left i : Nat} {a b : RingBuffer}
    (h : a.SameContents (capacity p) b) :
    (∃ e, enqLoop p m src left i a = .error e ∧ enqLoop p m src left i b = .error e) ∨
    ∃ a' b' i', enqLoop p m src left i a = .ok (a', i') ∧ enqLoop p m src left i b = .ok (b', i') ∧
      a'.SameContents (capacity p) b' := by
  induction left generalizing i a b with
  | zero => exact .inr ⟨a, b, i, rfl, rfl, h⟩
  | succ left ih =>
    simp only [enqLoop, ← h.state_eq]
    by_cases hf : a.state = .full
    · exact .inr ⟨a, b, i, if_pos hf, if_pos hf, h⟩
    · simp only [if_neg hf]
      cases memRead p m (addr src i) with
      | error e => exact .inl ⟨e, rfl, rfl⟩
      | ok v => exact ih (h.push v hf)

/-- DEQ's loop on the same contents stops for the same reason, or moves as many bytes to the same contents, and
leaves the same memory. -/
theorem deqLoop_sameContents {p : Params} {dst : Word} {left i : Nat} {a b : RingBuffer} {m : Mem}
    (h : a.SameContents (capacity p) b) :
    (∃ e, deqLoop p dst left i a m = .error e ∧ deqLoop p dst left i b m = .error e) ∨
    ∃ a' b' m' i', deqLoop p dst left i a m = .ok (a', m', i') ∧ deqLoop p dst left i b m = .ok (b', m', i') ∧
      a'.SameContents (capacity p) b' := by
  induction left generalizing i a b m with
  | zero => exact .inr ⟨a, b, m, i, rfl, rfl, h⟩
  | succ left ih =>
    simp only [deqLoop, ← h.state_eq]
    by_cases hf : a.state = .empty
    · exact .inr ⟨a, b, m, i, if_pos hf, if_pos hf, h⟩
    · obtain ⟨hfront, hpop⟩ := h.pop hf
      simp only [if_neg hf, ← hfront]
      cases memWrite p m (addr dst i) a.front with
      | error e => exact .inl ⟨e, rfl, rfl⟩
      | ok m' => exact ih hpop

/-! ### What two alike machines share -/

/-- Whatever does not look at the channels is the same of two alike machines. -/
theorem State.Alike.same {α : Type} {s t : State} (h : s.Alike t) (f : State → α)
    (hf : ∀ o i, f { s with outbound := o, inbound := i } = f s) : f t = f s := by
  obtain ⟨-, -, ht⟩ := h
  rw [ht, hf]

theorem State.Alike.params {s t : State} (h : s.Alike t) : t.params = s.params := h.same State.params fun _ _ => rfl

theorem State.Alike.mem {s t : State} (h : s.Alike t) : t.mem = s.mem := h.same State.mem fun _ _ => rfl

theorem State.Alike.port {s t : State} (h : s.Alike t) (p : PortId) : t.port p = s.port p :=
  h.same (·.port p) fun _ _ => rfl

theorem State.Alike.draws {s t : State} (h : s.Alike t) : t.draws = s.draws := h.same State.draws fun _ _ => rfl

theorem State.Alike.outstanding {s t : State} (h : s.Alike t) (p : PortId) : t.outstanding p = s.outstanding p :=
  h.same (·.outstanding p) fun _ _ => rfl

theorem State.Alike.clash {s t : State} (h : s.Alike t) : t.clash = s.clash := h.same State.clash fun _ _ => rfl

theorem State.Alike.rb {s t : State} (h : s.Alike t) (ch : Channel) :
    (s.rb ch).SameContents (capacity s.params) (t.rb ch) := by
  obtain ⟨ho, hi, -⟩ := h
  cases ch
  · exact ho
  · exact hi

/-! ### The same update of two alike machines -/

/-- An update that neither looks at the channels nor changes them keeps machines alike. -/
theorem State.Alike.update {s t : State} (h : s.Alike t) (f : State → State)
    (hf : ∀ o i, f { s with outbound := o, inbound := i } = { f s with outbound := o, inbound := i })
    (hp : (f s).params = s.params := by simp) (ho : (f s).outbound = s.outbound := by simp)
    (hi : (f s).inbound = s.inbound := by simp) : (f s).Alike (f t) := by
  obtain ⟨hout, hin, ht⟩ := h
  rw [ht, hf t.outbound t.inbound]
  exact ⟨by rwa [hp, ho], by rwa [hp, hi], rfl⟩

theorem State.Alike.respond {s t : State} (h : s.Alike t) (st : Status) (v : Word) :
    (s.respond st v).Alike (t.respond st v) :=
  h.update (·.respond st v) fun o i => by cases hs : s.serving <;> simp [State.respond, State.setPort, State.port, hs]

theorem State.Alike.setMem {s t : State} (h : s.Alike t) (m : Mem) : (s.setMem m).Alike (t.setMem m) :=
  h.update (·.setMem m) fun _ _ => rfl

theorem State.Alike.setPort {s t : State} (h : s.Alike t) (p : PortId) (x : Port) :
    (s.setPort p x).Alike (t.setPort p x) :=
  h.update (·.setPort p x) fun _ _ => by cases p <;> rfl

theorem State.Alike.accept {s t : State} (h : s.Alike t) (p : PortId) : (s.accept p).Alike (t.accept p) :=
  h.update (·.accept p) fun _ _ => by cases p <;> rfl

theorem State.Alike.drawn {s t : State} (h : s.Alike t) : s.drawn.Alike t.drawn :=
  h.update State.drawn fun _ _ => rfl

theorem State.Alike.freeBytes {s t : State} (h : s.Alike t) (base : Word) (size : Nat) :
    (s.freeBytes base size).Alike (t.freeBytes base size) :=
  h.update (·.freeBytes base size) fun _ _ => rfl

theorem State.Alike.setRb {s t : State} (h : s.Alike t) (ch : Channel) {a b : RingBuffer}
    (hab : a.SameContents (capacity s.params) b) : (s.setRb ch a).Alike (t.setRb ch b) := by
  obtain ⟨ho, hi, ht⟩ := h
  rw [ht]
  cases ch
  · exact ⟨hab, hi, rfl⟩
  · exact ⟨ho, hab, rfl⟩

/-- After `rst` both channels are empty, whatever they held. -/
theorem State.Alike.afterRst {s t : State} (h : s.Alike t) : s.afterRst.Alike t.afterRst := by
  obtain ⟨-, -, ht⟩ := h
  rw [ht]
  have hreset := RingBuffer.reset_inv (capacity_pos s.params)
  exact ⟨RingBuffer.sameContents_of_live hreset hreset rfl, RingBuffer.sameContents_of_live hreset hreset rfl, rfl⟩

/-! ### Commands -/

/-- Two outcomes stop for the same reason or go on to alike machines. -/
abbrev AlikeOutcomes : Host.Outcome State Fault Refusal → Host.Outcome State Fault Refusal → Prop :=
  OutcomesAlike State.Alike

/-- No outcome is a fault, so two related ones are next states or the same refusal. -/
theorem outcomesAlike_iff {R : State → State → Prop} {a b : Host.Outcome State Fault Refusal} :
    OutcomesAlike R a b ↔
      (∃ s t, a = .next s ∧ b = .next t ∧ R s t) ∨ ∃ r, a = .refused r ∧ b = .refused r := by
  cases a with
  | next s => cases b <;> simp [OutcomesAlike]
  | refused r => cases b <;> simp [OutcomesAlike, eq_comm]
  | fault f => exact nomatch f

theorem execEnq_alike {s t : State} (h : s.Alike t) (ch : Channel) (src k : Word) :
    AlikeOutcomes (execEnq ch src k s) (execEnq ch src k t) := by
  simp only [execEnq, h.params, h.mem]
  split
  · exact h.respond _ _
  · rcases enqLoop_sameContents (m := s.mem) (src := src) (left := k.toNat) (i := 0) (h.rb ch) with
      ⟨e, hs, ht⟩ | ⟨a, b, n, hs, ht, hab⟩
    · rw [hs, ht]; rfl
    · rw [hs, ht]; exact (h.setRb ch hab).respond _ _

theorem execDeq_alike {s t : State} (h : s.Alike t) (ch : Channel) (dst k : Word) :
    AlikeOutcomes (execDeq ch dst k s) (execDeq ch dst k t) := by
  simp only [execDeq, h.params, h.mem]
  split
  · exact h.respond _ _
  · rcases deqLoop_sameContents (dst := dst) (left := k.toNat) (i := 0) (m := s.mem) (h.rb ch) with
      ⟨e, hs, ht⟩ | ⟨a, b, m, n, hs, ht, hab⟩
    · rw [hs, ht]; rfl
    · rw [hs, ht]; exact ((h.setRb ch hab).setMem m).respond _ _

theorem execLen_alike {s t : State} (h : s.Alike t) (ch : Channel) :
    AlikeOutcomes (execLen ch s) (execLen ch t) := by
  rw [execLen, execLen, (h.rb ch).n_eq]
  exact h.respond _ _

theorem execCap_alike {s t : State} (h : s.Alike t) (ch : Channel) :
    AlikeOutcomes (execCap ch s) (execCap ch t) := by
  rw [execCap, execCap, h.params]
  exact h.respond _ _

theorem execEnc_alike {s t : State} (h : s.Alike t) (msg mlen out cap : Word) :
    AlikeOutcomes (execEnc msg mlen out cap s) (execEnc msg mlen out cap t) := by
  simp only [execEnc, h.params, h.mem]
  split
  · rfl
  split
  · rfl
  rcases encLoop s.params msg out cap.toNat mlen.toNat 0 (packingStart s.mem) with e | ⟨st, e⟩
  · rfl
  cases st with
  | ok =>
    dsimp only
    cases flush s.params out e with
    | error r => rfl
    | ok e' => exact (h.setMem e'.mem).respond _ _
  | invalidArgument | overflow | unknownSymbol | illegalCommand => exact (h.freeBytes _ _).respond _ _

theorem execDec_alike {s t : State} (h : s.Alike t) (encoded count out : Word) :
    AlikeOutcomes (execDec encoded count out s) (execDec encoded count out t) := by
  simp only [execDec, h.params, h.mem]
  split
  · rfl
  cases decLoop s.params s.mem encoded count.toNat [] 0 with
  | error e => rfl
  | ok run =>
    dsimp only
    split
    · rfl
    cases memWriteList s.params out 0 run.symbols s.mem with
    | error e => rfl
    | ok m =>
      dsimp only
      split
      · exact (h.freeBytes _ _).respond _ _
      · exact (h.setMem m).respond _ _

theorem exec_alike {s t : State} (h : s.Alike t) (i : Instr) : AlikeOutcomes (exec i s) (exec i t) := by
  cases i with
  | enq ch src k => exact execEnq_alike h ch src k
  | deq ch dst k => exact execDeq_alike h ch dst k
  | len ch => exact execLen_alike h ch
  | cap ch => exact execCap_alike h ch
  | enc msg mlen out cap => exact execEnc_alike h msg mlen out cap
  | dec encoded count out => exact execDec_alike h encoded count out

/-! ### Moves, steps and runs -/

theorem runRequest_alike {s t : State} (h : s.Alike t) (p : PortId) (q : Request) :
    AlikeOutcomes (runRequest p q s) (runRequest p q t) := by
  simp only [runRequest, h.clash]
  split
  · rfl
  cases decode q with
  | error r => exact (h.accept p).respond _ _
  | ok i => exact exec_alike (h.accept p) i

theorem agentAct_alike {s t : State} (h : s.Alike t) (p : PortId) (act : AgentAct) (rest : List AgentAct) :
    AlikeOutcomes (agentAct p act rest s) (agentAct p act rest t) := by
  cases act with
  | present q =>
    simp only [agentAct, h.port]
    exact h.setPort _ _
  | store a v =>
    have hnamed : t.namedByOther p a = s.namedByOther p a := h.same (·.namedByOther p a) fun _ _ => rfl
    simp only [agentAct, hnamed, h.params, h.mem, h.port]
    split
    · rfl
    cases memWrite s.params s.mem a v with
    | error e => rfl
    | ok m => exact (h.setMem m).setPort _ _
  | load a =>
    have hwritten : t.writtenByOther p a = s.writtenByOther p a := h.same (·.writtenByOther p a) fun _ _ => rfl
    simp only [agentAct, hwritten, h.params, h.mem, h.port]
    split
    · rfl
    cases memRead s.params s.mem a with
    | error e => rfl
    | ok v => exact h.setPort _ _

theorem perform_alike {s t : State} (h : s.Alike t) (p : PortId) (mv : Move) :
    AlikeOutcomes (perform p mv s) (perform p mv t) := by
  cases mv with
  | accept q => exact runRequest_alike h p q
  | act a rest => exact agentAct_alike h p a rest

theorem portsMove_alike {s t : State} (h : s.Alike t) : AlikeOutcomes (portsMove s) (portsMove t) := by
  have hF : t.portF = s.portF := h.port .foreground
  have hI : t.portI = s.portI := h.port .interrupt
  simp only [portsMove, hF, hI, h.draws]
  cases s.portF.move with
  | none =>
    cases s.portI.move with
    | none => exact h
    | some b => exact perform_alike h .interrupt b
  | some a =>
    cases s.portI.move with
    | none => exact perform_alike h .foreground a
    | some b =>
      dsimp only
      split
      · exact perform_alike h.drawn .foreground a
      · exact perform_alike h.drawn .interrupt b

theorem resetMove_alike {s t : State} (h : s.Alike t) : AlikeOutcomes (resetMove s) (resetMove t) := by
  have hcaught : t.caught = s.caught := h.same State.caught fun _ _ => rfl
  simp only [resetMove, h.clash, h.outstanding, hcaught]
  split
  · rfl
  split
  · exact h.afterRst
  cases s.caught with
  | none => exact h.drawn.afterRst
  | some i => exact (h.drawn.freeBytes _ _).afterRst

theorem step_alike {s t : State} (h : s.Alike t) : AlikeOutcomes (step s) (step t) := by
  have hrst : t.rst = s.rst := h.same State.rst fun _ _ => rfl
  simp only [step, hrst]
  split
  · exact resetMove_alike h
  · exact portsMove_alike h

theorem run_alike {s t : State} (h : s.Alike t) (n : Nat) : AlikeOutcomes (core.run n s) (core.run n t) := by
  induction n generalizing s t with
  | zero => exact h
  | succ n ih =>
    obtain ⟨s', t', hs, ht, h'⟩ | ⟨r, hs, ht⟩ := outcomesAlike_iff.mp (step_alike h)
    · have hs : core.step s = .next s' := hs
      have ht : core.step t = .next t' := ht
      simpa only [Host.Core.run, hs, ht] using ih h'
    · have hs : core.step s = .refused r := hs
      have ht : core.step t = .refused r := ht
      simp only [Host.Core.run, hs, ht, AlikeOutcomes, OutcomesAlike]

/-- Settles O29: alike machines step to alike machines, whatever the move, and a run is a chain of steps. -/
theorem wrapAroundIsInvisible : Obligations.WrapAroundIsInvisible :=
  fun _ _ h => ⟨step_alike h, run_alike h⟩

end Sys2Proof.Machine
end

section
/-! What a ring buffer command answers, counts and leaves alone (R100 to R112). -/

namespace Sys2Proof.Machine

/-! ### The checks before the transfer -/

theorem exec_enq_null (s : State) (ch : Channel) (k : Word) :
    exec (.enq ch 0 k) s = .next (s.respond .invalidArgument 0) := rfl

theorem exec_deq_null (s : State) (ch : Channel) (k : Word) :
    exec (.deq ch 0 k) s = .next (s.respond .invalidArgument 0) := rfl

/-- ENQ's loop moves nothing when nothing is asked for or the buffer is full. -/
theorem enqLoop_idle {p : Params} {m : Mem} {src : Word} {left i : Nat} {b : RingBuffer}
    (h : left = 0 ∨ b.state = .full) : enqLoop p m src left i b = .ok (b, i) := by
  cases left with
  | zero => rfl
  | succ left => exact if_pos (h.resolve_left (Nat.succ_ne_zero left))

/-- DEQ's loop moves nothing when nothing is asked for or the buffer is empty. -/
theorem deqLoop_idle {p : Params} {dst : Word} {left i : Nat} {b : RingBuffer} {m : Mem}
    (h : left = 0 ∨ b.state = .empty) : deqLoop p dst left i b m = .ok (b, m, i) := by
  cases left with
  | zero => rfl
  | succ left => exact if_pos (h.resolve_left (Nat.succ_ne_zero left))

/-- With a pointer that is not null, ENQ of no bytes, or into a full buffer, is OK and 0 (R110). -/
theorem exec_enq_idle {s : State} {ch : Channel} {src k : Word} (hsrc : src ≠ 0)
    (h : k = 0 ∨ (s.rb ch).state = .full) : exec (.enq ch src k) s = .next (s.respond .ok 0) :=
  (exec_enq_next_iff hsrc).mpr ⟨_, 0, enqLoop_idle (h.imp_left fun hk => by rw [hk]; rfl), by simp⟩

/-- With a pointer that is not null, DEQ of no bytes, or from an empty buffer, is OK and 0 (R110). -/
theorem exec_deq_idle {s : State} {ch : Channel} {dst k : Word} (hdst : dst ≠ 0)
    (h : k = 0 ∨ (s.rb ch).state = .empty) : exec (.deq ch dst k) s = .next (s.respond .ok 0) :=
  (exec_deq_next_iff hdst).mpr ⟨_, _, 0, deqLoop_idle (h.imp_left fun hk => by rw [hk]; rfl), by simp⟩

/-! ### ENQ in full -/

/-- On a buffer that is not empty the flag says whether it is full (R22). -/
theorem RingBuffer.Inv.state_of_pos {C : Nat} {b : RingBuffer} (h : b.Inv C) (hn : 0 < b.n) :
    b.state = if b.n = C then .full else .part := by
  obtain ⟨-, -, -, hempty, hfull, -⟩ := h
  cases hst : b.state with
  | empty => exact absurd (hempty.mp hst) (Nat.ne_of_gt hn)
  | part => rw [if_neg fun h0 => by simp [hfull.mpr h0] at hst]
  | full => rw [if_pos (hfull.mp hst)]

theorem RingBuffer.live_getElem? {C j : Nat} {b : RingBuffer} (hj : j < b.n) :
    (b.live C)[j]? = some (Mem.read b.store ((b.r + j) % C)) := by
  simp [RingBuffer.live, hj]

/-- Settles O21: ENQ's loop from byte 0 moves `min(k, C - n)` bytes; they are the youngest of the live region, whose
slots begin at the old `w`. -/
theorem enqMovesWhatFits : Obligations.EnqMovesWhatFits := by
  intro s ch src k hinv hsrc hback
  obtain ⟨b, hloop, hb, hn, hr, hw, hnone, hlive, hout⟩ :=
    enqLoop_moves (p := s.params) (m := s.mem) (src := src) (left := k.toNat) (i := 0) hinv
      (by simpa only [Nat.zero_add] using hback)
  rw [Nat.zero_add] at hloop
  refine ⟨b, (exec_enq_next_iff hsrc).mpr ⟨b, _, hloop, rfl⟩, hw, hr, hn, ?_, fun j hj => ?_, hout⟩
  · split
    · next h0 => rw [hnone h0]
    · next hmoved => exact hb.state_of_pos (by omega)
  · have hslot : ((s.rb ch).w + j) % capacity s.params = (b.r + ((s.rb ch).n + j)) % capacity s.params := by
      rw [hinv.write_slot, Nat.mod_add_mod, hr, Nat.add_assoc]
    have hbyte := congrArg (·[(s.rb ch).n + j]?) hlive
    rw [RingBuffer.live_getElem? (by omega), ← hslot] at hbyte
    simpa [List.getElem?_append_right, hj] using hbyte

/-! ### Responses and counts -/

/-- A response stands after the earlier ones of the port in service, whatever else was changed before it. -/
theorem State.respond_responses {s u : State} (st : Status) (v : Word)
    (hport : u.port s.serving = s.port s.serving := by simp) (hserving : u.serving = s.serving := by simp) :
    ((u.respond st v).port s.serving).responses = (s.port s.serving).responses ++ [⟨st, v⟩] := by
  rw [← hserving, State.respond_port, Port.deliver_responses, hserving, hport]

/-- A count clipped by an operand fits the result word. -/
theorem toNat_ofNat_of_le {i : Nat} {k : Word} (h : i ≤ k.toNat) : (BitVec.ofNat 32 i).toNat = i := by
  rw [BitVec.toNat_ofNat, Nat.mod_eq_of_lt (Nat.lt_of_le_of_lt h k.isLt)]

theorem toNat_ofNat_min (k : Word) (n : Nat) : (BitVec.ofNat 32 (min k.toNat n)).toNat = min k.toNat n :=
  toNat_ofNat_of_le (Nat.min_le_left _ _)

/-- What an ENQ that goes on does: its channel gains `min(k, C - n)` bytes, and it answers OK and their number. -/
theorem exec_enq_answers {s t : State} {ch : Channel} {src k : Word} (hinv : (s.rb ch).Inv (capacity s.params))
    (hsrc : src ≠ 0) (h : exec (.enq ch src k) s = .next t) : ∃ b,
    t = (s.setRb ch b).respond .ok (BitVec.ofNat 32 (min k.toNat (capacity s.params - (s.rb ch).n))) ∧
      b.n = (s.rb ch).n + min k.toNat (capacity s.params - (s.rb ch).n) := by
  have hback : Backed s.params src (min k.toNat (capacity s.params - (s.rb ch).n)) := by
    by_contra hnot
    simp [(unbackedByteStopsARingCommand s ch src k hinv hsrc).1.mpr hnot] at h
  obtain ⟨b, hexec, -, -, hn, -⟩ := enqMovesWhatFits s ch src k hinv hsrc hback
  rw [hexec] at h
  cases h
  exact ⟨b, rfl, hn⟩

/-- What a DEQ that goes on does: its channel loses `min(k, n)` bytes, and it answers OK and their number. -/
theorem exec_deq_answers {s t : State} {ch : Channel} {dst k : Word} (hinv : (s.rb ch).Inv (capacity s.params))
    (hdst : dst ≠ 0) (h : exec (.deq ch dst k) s = .next t) : ∃ b m,
    t = ((s.setRb ch b).setMem m).respond .ok (BitVec.ofNat 32 (min k.toNat (s.rb ch).n)) ∧
      b.n = (s.rb ch).n - min k.toNat (s.rb ch).n := by
  have hback : Backed s.params dst (min k.toNat (s.rb ch).n) := by
    by_contra hnot
    simp [(unbackedByteStopsARingCommand s ch dst k hinv hdst).2.mpr hnot] at h
  obtain ⟨b, m, hexec, -, -, -, hn, -⟩ := deqMovesWhatIsThere s ch dst k hinv hdst hback
  rw [hexec] at h
  cases h
  exact ⟨b, m, rfl, hn⟩

/-- Settles O24: a null pointer is tested first, an idle loop answers 0, and any other moves at least one byte. -/
theorem checksOfEnqAndDeqComeInOrder : Obligations.ChecksOfEnqAndDeqComeInOrder := by
  intro s ch p k
  refine ⟨?_, fun hp hk => ⟨exec_enq_idle hp (.inl hk), exec_deq_idle hp (.inl hk)⟩,
    fun hp _ hfull => exec_enq_idle hp (.inr hfull), fun hp _ hempty => exec_deq_idle hp (.inr hempty), ?_⟩
  · rintro rfl
    exact ⟨exec_enq_null s ch k, exec_deq_null s ch k⟩
  intro hp hk hinv t
  have hkpos : 0 < k.toNat := Nat.pos_of_ne_zero fun h0 => hk (BitVec.eq_of_toNat_eq h0)
  constructor
  · intro hfull h
    have hroom := hinv.not_full hfull
    obtain ⟨b, rfl, -⟩ := exec_enq_answers hinv hp h
    exact ⟨_, by rw [toNat_ofNat_min]; omega, State.respond_responses _ _⟩
  · intro hempty h
    have hsome := hinv.not_empty hempty
    obtain ⟨b, m, rfl, -⟩ := exec_deq_answers hinv hp h
    exact ⟨_, by rw [toNat_ofNat_min]; omega, State.respond_responses _ _⟩

/-- Settles O23: only ENQ and DEQ may answer InvalidArgument, and with a pointer that is not null they answer OK. -/
theorem invalidArgumentChangesNothing : Obligations.InvalidArgumentChangesNothing := by
  refine ⟨fun i s t v h hresp => ?_, fun s ch k => ⟨exec_enq_null s ch k, exec_deq_null s ch k⟩⟩
  obtain ⟨r, hstatus, -, hown, -⟩ := oneResponseOnTheServingPort i s t h
  obtain rfl : r = ⟨.invalidArgument, v⟩ := by simpa [hown] using hresp
  cases i with
  | enq ch src k =>
    by_cases hsrc : src = 0
    · subst hsrc
      rw [exec_enq_null] at h
      cases h
      exact ⟨rfl, ch, k, .inl rfl⟩
    · obtain ⟨b, n, -, rfl⟩ := (exec_enq_next_iff hsrc).mp h
      rw [State.respond_responses] at hresp
      simp at hresp
  | deq ch dst k =>
    by_cases hdst : dst = 0
    · subst hdst
      rw [exec_deq_null] at h
      cases h
      exact ⟨rfl, ch, k, .inr rfl⟩
    · obtain ⟨b, m, n, -, rfl⟩ := (exec_deq_next_iff hdst).mp h
      rw [State.respond_responses] at hresp
      simp at hresp
  | len ch | cap ch | enc msg mlen out cap | dec encoded count out => simp [mayAnswer] at hstatus

/-- A channel gains what its ENQ answers. -/
theorem exec_enq_length {s t : State} {c : Channel} {src k : Word} (hinv : (s.rb c).Inv (capacity s.params))
    (h : exec (.enq c src k) s = .next t) (ch : Channel) :
    ∃ r, (t.port s.serving).responses = (s.port s.serving).responses ++ [r] ∧
      (t.rb ch).n = (s.rb ch).n + enqueued (.enq c src k) ch r := by
  by_cases hsrc : src = 0
  · subst hsrc
    rw [exec_enq_null] at h
    cases h
    exact ⟨_, State.respond_responses _ _, by simp [enqueued]⟩
  · obtain ⟨b, rfl, hn⟩ := exec_enq_answers hinv hsrc h
    refine ⟨_, State.respond_responses _ _, ?_⟩
    by_cases hch : ch = c
    · subst hch
      simp only [State.respond_rb, State.setRb_rb_same, hn, enqueued, if_true, toNat_ofNat_min]
    · simp [State.setRb_rb_other _ _ hch, enqueued, Ne.symm hch]

/-- A channel loses what its DEQ answers. -/
theorem exec_deq_length {s t : State} {c : Channel} {dst k : Word} (hinv : (s.rb c).Inv (capacity s.params))
    (h : exec (.deq c dst k) s = .next t) (ch : Channel) :
    ∃ r, (t.port s.serving).responses = (s.port s.serving).responses ++ [r] ∧
      (t.rb ch).n + dequeued (.deq c dst k) ch r = (s.rb ch).n := by
  by_cases hdst : dst = 0
  · subst hdst
    rw [exec_deq_null] at h
    cases h
    exact ⟨_, State.respond_responses _ _, by simp [dequeued]⟩
  · obtain ⟨b, m, rfl, hn⟩ := exec_deq_answers hinv hdst h
    refine ⟨_, State.respond_responses _ _, ?_⟩
    by_cases hch : ch = c
    · subst hch
      simp only [State.respond_rb, State.setMem_rb, State.setRb_rb_same, hn, dequeued, if_true, toNat_ofNat_min]
      omega
    · simp [State.setRb_rb_other _ _ hch, dequeued, Ne.symm hch]

/-- A command that is neither an ENQ nor a DEQ leaves every channel alone (R100). -/
theorem exec_rb_of_ne {i : Instr} {s t : State} {ch : Channel} (h : exec i s = .next t)
    (henq : ∀ c p k, i ≠ .enq c p k) (hdeq : ∀ c p k, i ≠ .deq c p k) : t.rb ch = s.rb ch := by
  by_contra hne
  obtain ⟨p, k, rfl | rfl⟩ := enq_or_deq_of_rb_ne h hne
  · exact henq ch p k rfl
  · exact hdeq ch p k rfl

theorem State.Inv.rb {s : State} (h : s.Inv) (ch : Channel) : (s.rb ch).Inv (capacity s.params) := by
  obtain ⟨hout, hin, -⟩ := h
  cases ch
  · exact hout
  · exact hin

/-- Settles O30: ENQ and DEQ count what they move, and no other command touches a channel. -/
theorem lengthCountsWhatCommandsAnswer : Obligations.LengthCountsWhatCommandsAnswer := by
  intro i s t ch hs h
  cases i with
  | enq c src k => exact exec_enq_length (hs.rb c) h ch
  | deq c dst k => exact exec_deq_length (hs.rb c) h ch
  | len c | cap c | enc msg mlen out cap | dec encoded count out =>
    obtain ⟨r, -, -, hown, -⟩ := oneResponseOnTheServingPort _ s t h
    exact ⟨r, by rw [hown], by rw [exec_rb_of_ne h (by simp) (by simp)]; rfl⟩

/-! ### Round trip and frame -/

/-- An ENQ that goes on keeps the invariant of its channel. -/
theorem exec_enq_rb_inv {s t : State} {ch : Channel} {src k : Word} (hinv : (s.rb ch).Inv (capacity s.params))
    (h : exec (.enq ch src k) s = .next t) : (t.rb ch).Inv (capacity s.params) := by
  rcases execEnq_cases ch src k s with ⟨-, e⟩ | ⟨-, b, n, e, -, -, -, -, hb⟩ | ⟨-, e⟩ <;>
    rw [exec, e] at h <;> cases h
  · simpa using hinv
  · simpa using hb hinv

/-- ENQ of at most `C` bytes into an empty channel moves them all, and they are then its whole live region. -/
theorem exec_enq_into_empty {s : State} {ch : Channel} {src k : Word} (hinv : (s.rb ch).Inv (capacity s.params))
    (hn : (s.rb ch).n = 0) (hk : k.toNat ≤ capacity s.params) (hsrc : src ≠ 0) (hback : Backed s.params src k.toNat) :
    ∃ b, exec (.enq ch src k) s = .next ((s.setRb ch b).respond .ok k) ∧ b.Inv (capacity s.params) ∧
      b.live (capacity s.params) = memBytes s.mem src k.toNat := by
  have hall : min k.toNat (capacity s.params - (s.rb ch).n) = k.toNat := by omega
  obtain ⟨b, hexec, -⟩ := enqMovesWhatFits s ch src k hinv hsrc (by rwa [hall])
  rw [hall, BitVec.ofNat_toNat, BitVec.setWidth_eq] at hexec
  have hb := exec_enq_rb_inv hinv hexec
  have hlive := exec_enq_live hinv hsrc hexec
  have hnil : (s.rb ch).live (capacity s.params) = [] := List.eq_nil_of_length_eq_zero (by simp [hn])
  rw [State.respond_rb, State.setRb_rb_same] at hb hlive
  rw [hnil, hall, List.nil_append] at hlive
  exact ⟨b, hexec, hb, hlive⟩

/-- DEQ of as many bytes as a channel holds delivers its whole live region and leaves it EMPTY. -/
theorem exec_deq_all {s : State} {ch : Channel} {dst k : Word} (hinv : (s.rb ch).Inv (capacity s.params))
    (hn : (s.rb ch).n = k.toNat) (hdst : dst ≠ 0) (hback : Backed s.params dst k.toNat) :
    ∃ b m, exec (.deq ch dst k) s = .next (((s.setRb ch b).setMem m).respond .ok k) ∧
      memBytes m dst k.toNat = (s.rb ch).live (capacity s.params) ∧ b.state = .empty := by
  have hall : min k.toNat (s.rb ch).n = k.toNat := by omega
  obtain ⟨b, m, hexec, -, -, -, hbn, hstate, -⟩ := deqMovesWhatIsThere s ch dst k hinv hdst (by rwa [hall])
  rw [hall, BitVec.ofNat_toNat, BitVec.setWidth_eq] at hexec
  obtain ⟨hout, -⟩ := exec_deq_live hinv hdst hexec
  rw [State.respond_mem, State.setMem_mem, hall, List.take_of_length_le (by simp [hn])] at hout
  refine ⟨b, m, hexec, hout, ?_⟩
  rw [hstate, if_pos (show b.n = 0 by omega)]
  split
  · next h0 =>
    obtain ⟨-, -, -, hempty, -⟩ := hinv
    exact hempty.mpr (by omega)
  · rfl

/-- Settles O28: the ENQ makes the source's bytes the whole live region, and the DEQ delivers the whole of it. -/
theorem enqThenDeqReturnsTheSameBytes : Obligations.EnqThenDeqReturnsTheSameBytes := by
  intro s ch src dst k hinv hempty hk hsrc hdst hbsrc hbdst
  have hn : (s.rb ch).n = 0 := by
    obtain ⟨-, -, -, hiff, -⟩ := hinv
    exact hiff.mp hempty
  obtain ⟨b, henq, hb, hlive⟩ := exec_enq_into_empty hinv hn hk hsrc hbsrc
  have hbn : b.n = k.toNat := by simpa [memBytes] using congrArg List.length hlive
  obtain ⟨c, m, hdeq, hout, hdrained⟩ := exec_deq_all (s := (s.setRb ch b).respond .ok k) (ch := ch)
    (by simpa using hb) (by simpa using hbn) hdst (by simpa using hbdst)
  exact ⟨b, c, m, henq, hdeq, by simpa [hlive] using hout, hdrained⟩

/-- Settles O33: each command answers by one of its cases, and each case names what it changes. -/
theorem ringCommandsFrame : Obligations.RingCommandsFrame := by
  intro s t ch p k
  refine ⟨fun h => ?_, fun h => ?_, fun h => ?_, fun h => ?_⟩
  · rcases execEnq_cases ch p k s with ⟨-, e⟩ | ⟨-, b, n, e, -, hr, -⟩ | ⟨-, e⟩ <;> rw [exec, e] at h <;> cases h
    · exact ⟨⟨.invalidArgument, 0⟩, by simp⟩
    · exact ⟨⟨.ok, BitVec.ofNat 32 n⟩, by simp [hr]⟩
  · rcases execDeq_cases ch p k s with ⟨-, e⟩ | ⟨-, b, m, n, e, hle, hw, hstore, -, -, -, -, hout⟩ | ⟨-, e⟩ <;>
      rw [exec, e] at h <;> cases h
    · exact ⟨⟨.invalidArgument, 0⟩, by simp⟩
    · refine ⟨⟨.ok, BitVec.ofNat 32 n⟩, by simp, by simp [hw], by simp [hstore], fun a ha => ?_⟩
      rw [toNat_ofNat_of_le hle] at ha
      simpa using hout a ha
  · cases h
    exact ⟨_, rfl⟩
  · cases h
    exact ⟨_, rfl⟩

/-! ### LEN and CAP -/

theorem toNat_ofNat_of_le_capacity {p : Params} {n : Nat} (h : n ≤ capacity p) : (BitVec.ofNat 32 n).toNat = n := by
  have hcap := capacity_le p
  rw [BitVec.toNat_ofNat, Nat.mod_eq_of_lt (by omega)]

/-- Settles O25: the length fits the result word, and the invariant ties the flag to it. -/
theorem lenAnswersTheLength : Obligations.LenAnswersTheLength := by
  intro s ch
  refine ⟨_, rfl, fun ⟨_, _, hle, hempty, hfull, _⟩ => ?_⟩
  rw [toNat_ofNat_of_le_capacity hle]
  exact ⟨rfl, hle, hempty.symm, hfull.symm⟩

/-- Settles O26: the capacity is a function of the parameters, which no step changes. -/
theorem capAnswersTheCapacity : Obligations.CapAnswersTheCapacity :=
  ⟨fun _ => ⟨_, toNat_ofNat_of_le_capacity le_rfl, fun _ => rfl⟩, fun _ _ h => by rw [step_params h]⟩

end Sys2Proof.Machine
end

section
/-! What ENC and DEC answer and leave behind, and that DEC undoes ENC (spec/41_huffman_codec.md R131 to R147). -/

namespace Sys2Proof.Machine

/-! ### Messages and spans -/

theorem bitCount_append (t : CodeTable) (xs ys : List Byte) :
    bitCount t (xs ++ ys) = bitCount t xs + bitCount t ys := by
  simp [bitCount]

theorem memBytes_succ (m : Mem) (base : Word) (n : Nat) :
    memBytes m base (n + 1) = memBytes m base n ++ [Mem.read m (addr base n).toNat] := by
  simp [memBytes, List.range_succ]

/-- The bytes of a buffer, cut around byte `i`. -/
theorem memBytes_split (m : Mem) (base : Word) {i n : Nat} (hi : i < n) :
    ∃ rest, memBytes m base n = memBytes m base i ++ Mem.read m (addr base i).toNat :: rest := by
  refine ⟨(memBytes m base n).drop (i + 1), ?_⟩
  have htake : (memBytes m base n).take (i + 1) = memBytes m base (i + 1) := by
    simp [memBytes, ← List.map_take, List.take_range, Nat.min_eq_left (Nat.succ_le_of_lt hi)]
  calc memBytes m base n
      = memBytes m base (i + 1) ++ (memBytes m base n).drop (i + 1) := by
        rw [← htake, List.take_append_drop]
    _ = _ := by rw [memBytes_succ, List.append_assoc, List.singleton_append]

/-- Streams with the same bits are the same bytes (R58). -/
theorem memBytes_eq_of_bits {m m' : Mem} {base base' : Word} {n : Nat}
    (h : ∀ i < 8 * n, memBit m base i = memBit m' base' i) : memBytes m base n = memBytes m' base' n := by
  refine List.map_congr_left fun b hb => BitVec.eq_of_getLsbD_eq fun j hj => ?_
  have hb : b < n := List.mem_range.mp hb
  have hbit := h (8 * b + (7 - j)) (by omega)
  rwa [memBit, memBit, show (8 * b + (7 - j)) / 8 = b by omega,
    show 7 - (8 * b + (7 - j)) % 8 = j by omega] at hbit

/-- Spans that share the address of a byte overlap (R145). -/
theorem overlaps_of_shared {a b : Span} (h : ∃ i < a.size, ∃ j < b.size, addr a.base i = addr b.base j) :
    a.overlaps b = true := by
  obtain ⟨i, hi, j, hj, heq⟩ := h
  exact overlaps_iff.mpr ⟨_, holds_iff.mpr ⟨i, hi, rfl⟩, holds_iff.mpr ⟨j, hj, heq⟩⟩

/-! ### The state a codec command answers in -/

/-- What a codec command may have done before it responds: the bytes of `outBuffer` and the count of free values. -/
def State.afterCodec (s : State) (m : Mem) (d : Nat) : State := { s with mem := m, draws := d }

theorem State.afterCodec_responses (s : State) (m : Mem) (d : Nat) (st : Status) (v : Word) :
    (((s.afterCodec m d).respond st v).port s.serving).responses = (s.port s.serving).responses ++ [⟨st, v⟩] :=
  State.respond_responses st v rfl rfl

/-- Such a state is told by its memory and its count of free values. -/
theorem State.eq_respond_of_afterCodec {s t : State} {m : Mem} {d : Nat} {st : Status} {v : Word}
    (h : t = (s.afterCodec m d).respond st v) :
    t = State.respond { s with mem := t.mem, draws := t.draws } st v ∧ t.mem = m := by
  subst h
  simp [State.afterCodec]

/-! ### ENC -/

/-- What ENC answers on a message: a function of the message, the table and the capacity (R131, R143, R174). -/
def encResponse (t : CodeTable) (cap : Nat) (ms : List Byte) : Response :=
  ⟨encVerdict t cap ms 0, if encVerdict t cap ms 0 = .ok then BitVec.ofNat 32 (bitCount t ms) else 0⟩

theorem encResponse_of_ok {t : CodeTable} {cap : Nat} {ms : List Byte} (h : (encResponse t cap ms).status = .ok) :
    encResponse t cap ms = ⟨.ok, BitVec.ofNat 32 (bitCount t ms)⟩ ∧
      bitCount t ms ≤ 8 * cap ∧ bitCount t ms ≤ 2 ^ 32 - 1 := by
  have hverdict : encVerdict t cap ms 0 = .ok := h
  obtain ⟨-, hcap, hword⟩ := (encVerdict_ok (Nat.zero_le _) (Nat.zero_le _)).mp hverdict
  exact ⟨by simp [encResponse, hverdict], by omega, by omega⟩

theorem encResponse_of_error {t : CodeTable} {cap : Nat} {ms : List Byte} {st : Status}
    (h : encVerdict t cap ms 0 = st) (hst : st ≠ .ok) : encResponse t cap ms = ⟨st, 0⟩ := by
  simp [encResponse, h, hst]

/-- Whenever ENC goes on, it has given its answer and changed bytes of `outBuffer` only; on OK the stream is there
(R131, R138). -/
theorem exec_enc_next {s t : State} {msg mlen out cap : Word} {ms : List Byte}
    (hms : memBytes s.mem msg mlen.toNat = ms) (h : exec (.enc msg mlen out cap) s = .next t) :
    ∃ m d, t = (s.afterCodec m d).respond (encResponse s.params.table cap.toNat ms).status
        (encResponse s.params.table cap.toNat ms).result ∧
      (∀ a, Outside out cap.toNat a → Mem.read m a = Mem.read s.mem a) ∧
      ((encResponse s.params.table cap.toNat ms).status = .ok → HoldsStream s.params.table ms out s.mem m) := by
  subst hms
  rcases execEnc_cases msg mlen out cap s with ⟨-, e⟩ | ⟨-, -, e⟩ |
    ⟨-, -, ⟨hok, m, e, hbits, hframe, -⟩ | ⟨hbad, e⟩ | e⟩ <;> rw [exec, e] at h <;> cases h
  · obtain ⟨hresp, hfit, -⟩ := encResponse_of_ok hok
    rw [hresp]
    exact ⟨m, s.draws, rfl, fun a ha => hframe a fun i hi => ha i (by unfold bytesOfBits at hi; omega),
      fun _ => ⟨hbits, hframe⟩⟩
  · rw [encResponse_of_error rfl hbad]
    exact ⟨_, _, rfl, fun a ha => read_freeFill_outside out _ _ _ ha, fun hok => absurd hok hbad⟩

/-- Settles O36: the loop over no symbols ends at once, with no byte to flush. -/
theorem encOfTheEmptyMessage : Obligations.EncOfTheEmptyMessage := by
  intro s msg out cap hwf
  have hov : (Span.mk msg 0).overlaps ⟨out, cap.toNat⟩ = false := rfl
  simp [exec, execEnc, hwf, hov, encLoop, packingStart, flush]

theorem HoldsStream.memBytes_eq {t : CodeTable} {ms : List Byte} {out out' : Word} {m0 m m0' m' : Mem}
    (h : HoldsStream t ms out m0 m) (h' : HoldsStream t ms out' m0' m') :
    memBytes m out (bytesOfBits (bitCount t ms)) = memBytes m' out' (bytesOfBits (bitCount t ms)) :=
  memBytes_eq_of_bits fun i hi => (h.bits i hi).trans (h'.bits i hi).symm

/-- Settles O37: ENC's answer is a function of message, table and capacity, and on OK its stream one of message and
table. -/
theorem encDependsOnlyOnTheMessage : Obligations.EncDependsOnlyOnTheMessage := by
  intro s t s' t' msg mlen out cap msg' out' cap' htable hmsg hs ht
  obtain ⟨m, d, rfl, -, hstream⟩ := exec_enc_next hmsg hs
  obtain ⟨m', d', rfl, -, hstream'⟩ := exec_enc_next rfl ht
  rw [htable] at hstream ⊢
  refine ⟨_, _, State.afterCodec_responses .., State.afterCodec_responses .., fun hcap => by rw [hcap],
    fun hok hok' => ?_⟩
  obtain ⟨hresp, -, hword⟩ := encResponse_of_ok hok
  obtain ⟨hresp', -, -⟩ := encResponse_of_ok hok'
  refine ⟨hresp.trans hresp'.symm, ?_⟩
  rw [hresp, BitVec.toNat_ofNat, Nat.mod_eq_of_lt (by omega), State.respond_mem, State.respond_mem]
  exact (hstream hok).memBytes_eq (hstream' hok')

/-- The first symbol that fails its check decides the verdict (R174). -/
theorem encVerdict_of_first_bad {t : CodeTable} {cap : Nat} {xs : List Byte} {x : Byte} {st : Status}
    (hxs : encVerdict t cap xs 0 = .ok) (hx : encCheck cap (bitCount t xs) (tableEntry t x).len.val = st)
    (hst : st ≠ .ok) (ys : List Byte) : encVerdict t cap (xs ++ x :: ys) 0 = st := by
  rw [encVerdict_append xs _ 0 hxs, Nat.zero_add]
  -- `hst` rules out the arm that reads on.
  simp only [encVerdict, hx]

/-- Where the first symbol that fails its check, those before it and `outBuffer` are backed, ENC goes on with that
symbol's error (R133, R137, R138, R174). -/
theorem exec_enc_of_first_bad {s : State} {msg mlen out cap : Word} {i : Nat} {st : Status}
    (hwf : tableWf s.params.table = true) (hov : (Span.mk msg mlen.toNat).overlaps ⟨out, cap.toNat⟩ = false)
    (hi : i < mlen.toNat) (hmsg : Backed s.params msg (i + 1)) (hout : Backed s.params out cap.toNat)
    (hok : encVerdict s.params.table cap.toNat (memBytes s.mem msg i) 0 = .ok)
    (hbad : encCheck cap.toNat (bitCount s.params.table (memBytes s.mem msg i))
      (tableEntry s.params.table (Mem.read s.mem (addr msg i).toNat)).len.val = st) (hst : st ≠ .ok) :
    ∃ m d, exec (.enc msg mlen out cap) s = .next ((s.afterCodec m d).respond st 0) ∧
      ∀ a, Outside out cap.toNat a → Mem.read m a = Mem.read s.mem a := by
  have hverdict : encVerdict s.params.table cap.toNat (memBytes s.mem msg mlen.toNat) 0 = st := by
    obtain ⟨rest, hrest⟩ := memBytes_split s.mem msg hi
    rw [hrest]
    exact encVerdict_of_first_bad hok hbad hst rest
  have hbytes : ∀ n, (List.range n).map (fun j => Mem.read s.mem (addr msg (0 + j)).toNat) =
      memBytes s.mem msg n := fun n => by simp [memBytes]
  have hstart := Packed.start s.params out s.mem
  have houtside : ∀ j < mlen.toNat, Outside out cap.toNat (addr msg (0 + j)).toNat := fun j hj => by
    rw [Nat.zero_add]; exact outside_of_disjoint hov hj
  obtain ⟨⟨st', e⟩, hloop⟩ := encLoop_stops hi hstart (Nat.zero_le _) houtside
    (fun j hj => by rw [Nat.zero_add]; exact hmsg j (Nat.lt_succ_of_le hj)) hout (by rwa [hbytes])
    (by rw [hbytes, memBytes_succ, List.length_nil, encVerdict_of_first_bad hok hbad hst []]; exact hst)
  obtain ⟨hst', -⟩ := encLoop_ok hloop hstart (Nat.le_of_lt cap.isLt) (Nat.zero_le _) houtside
  rw [hbytes, List.length_nil, hverdict] at hst'
  subst hst'
  obtain ⟨t, hnext⟩ : ∃ t, exec (.enc msg mlen out cap) s = .next t := by
    cases st'
    case ok => exact absurd rfl hst
    all_goals simp [exec, execEnc, hwf, hov, hloop]
  obtain ⟨m, d, rfl, hframe, -⟩ := exec_enc_next rfl hnext
  rw [encResponse_of_error hverdict hst] at hnext
  exact ⟨m, d, hnext, hframe⟩

/-- Settles O35: an absent symbol, or one whose last bit does not fit, is the first to fail its check. -/
theorem encStopsAtTheFirstBadSymbol : Obligations.EncStopsAtTheFirstBadSymbol := by
  intro s msg mlen out cap i hwf hov hi hmsg hout hp hcap hword
  have hok : encVerdict s.params.table cap.toNat (memBytes s.mem msg i) 0 = .ok :=
    (encVerdict_ok (Nat.zero_le _) (Nat.zero_le _)).mpr ⟨hp, by omega, by omega⟩
  refine ⟨fun habsent => ?_, fun hpresent hlong => ?_⟩
  · exact exec_enc_of_first_bad hwf hov hi hmsg hout hok (by rw [encCheck, if_pos habsent]) (by decide)
  · rw [memBytes_succ, bitCount_append, bitCount_cons, bitCount_nil, Nat.add_zero] at hlong
    refine exec_enc_of_first_bad hwf hov hi hmsg hout hok ?_ (by decide)
    rw [encCheck, if_neg hpresent]
    rcases hlong with hlong | hlong
    · rw [if_pos hlong]
    · rw [if_pos hlong, ite_self]

/-! ### DEC -/

/-- Whenever DEC goes on, it has answered OK and 0 and changed bytes of `outBuffer` only; a reading with no dead end
stands there (R136, R139). -/
theorem exec_dec_next {s t : State} {encoded count out : Word} (h : exec (.dec encoded count out) s = .next t) :
    ∃ m d, t = (s.afterCodec m d).respond .ok 0 ∧
      (∀ a, Outside out count.toNat a → Mem.read m a = Mem.read s.mem a) ∧
      ∃ run, decLoop s.params s.mem encoded count.toNat [] 0 = .ok run ∧
        (run.deadEnd = false → d = s.draws ∧ memBytes m out count.toNat = run.symbols) := by
  rcases execDec_cases encoded count out s with ⟨-, e⟩ | ⟨-, e | ⟨run, syms, hrun, hsyms, -, -, -,
    ⟨-, e⟩ | ⟨-, ⟨-, -, -, m, e, hbytes, hframe, -⟩ | ⟨hdead, -, -, -, -, e⟩⟩⟩⟩ <;> rw [exec, e] at h <;> cases h
  · exact ⟨m, s.draws, rfl, hframe, run, hrun, fun _ => ⟨rfl, hbytes.trans hsyms.symm⟩⟩
  · exact ⟨_, _, rfl, fun a ha => read_freeFill_outside out _ _ _ ha, run, hrun,
      fun hlive => by rw [hdead] at hlive; cases hlive⟩

/-- DEC goes on where its reading ends in backed bytes that its output does not overlap, and the bytes for the
symbols found are backed (R136, R139, R145). -/
theorem exec_dec_of_reading {s : State} {encoded count out : Word} {run : Reading}
    (hwf : tableWf s.params.table = true) (hrun : decLoop s.params s.mem encoded count.toNat [] 0 = .ok run)
    (hov : (Span.mk encoded (bytesOfBits run.bitpos)).overlaps ⟨out, count.toNat⟩ = false)
    (hout : Backed s.params out run.symbols.length) : ∃ t, exec (.dec encoded count out) s = .next t := by
  obtain ⟨m, hwrite⟩ := memWriteList_backed run.symbols s.mem fun j hj => by
    rw [Nat.zero_add]; exact hout j hj
  cases hdead : run.deadEnd <;> simp [exec, execDec, hwf, hrun, hov, hwrite, hdead]

/-- All the bits held by backed bytes are backed. -/
theorem Backed.bits {p : Params} {base : Word} {n : Nat} (h : Backed p base (bytesOfBits n)) {i : Nat} (hi : i < n) :
    memValid p (addr base (i / 8)) = true :=
  h _ (by unfold bytesOfBits; omega)

/-- The first symbols read are the message whose codewords begin the stream, where their bytes are backed (R136). -/
theorem decLoop_of_backed_stream {p : Params} (hwf : tableWf p.table = true) {m : Mem} {encoded : Word}
    {ms : List Byte} (hp : AllPresent p.table ms) (hst : StreamHas m encoded 0 (messageBits p.table ms))
    (hv : Backed p encoded (bytesOfBits (bitCount p.table ms))) (left : Nat) :
    decLoop p m encoded (ms.length + left) [] 0 = decLoop p m encoded left ms (bitCount p.table ms) := by
  simpa using decLoop_reads hwf (left := left) (found := []) hp hst fun i hi => by
    rw [Nat.zero_add]; exact Backed.bits hv hi

theorem decLoop_of_whole_stream {p : Params} (hwf : tableWf p.table = true) {m : Mem} {encoded : Word}
    {ms : List Byte} (hp : AllPresent p.table ms) (hst : StreamHas m encoded 0 (messageBits p.table ms))
    (hv : Backed p encoded (bytesOfBits (bitCount p.table ms))) {n : Nat} (hn : ms.length = n) :
    decLoop p m encoded n [] 0 = .ok ⟨ms, bitCount p.table ms, false⟩ := by
  subst hn
  exact decLoop_of_backed_stream hwf hp hst hv 0

/-- Settles O38: DEC reads the message and writes it. -/
theorem decReadsTheMessageInTheStream : Obligations.DecReadsTheMessageInTheStream := by
  intro s encoded count out ms hwf hlen hp hst hov henc hout
  have hread := decLoop_of_whole_stream hwf hp hst henc hlen
  obtain ⟨t, hnext⟩ := exec_dec_of_reading hwf hread hov (by rwa [hlen])
  obtain ⟨m, d, rfl, hframe, run, hrun, hlive⟩ := exec_dec_next hnext
  obtain rfl := Except.ok.inj (hread.symm.trans hrun)
  obtain ⟨rfl, hbytes⟩ := hlive rfl
  exact ⟨m, hnext, hbytes, hframe⟩

/-- Where no codeword comes next and `Lmax` more bits are backed, reading a symbol is a dead end (R139). -/
theorem decSymbol_dead_end {p : Params} (hwf : tableWf p.table = true) {m : Mem} {encoded : Word} {pos : Nat}
    (hno : NoCodeword p.table m encoded pos) (hv : Backed p encoded (bytesOfBits (pos + lmax p.table))) :
    decSymbol p m encoded (lmax p.table) 0 0 pos = .ok (none, pos + lmax p.table) := by
  obtain ⟨-, -, hshape, -⟩ := tableWf_iff.mp hwf
  rcases decSymbol_result hshape (AccHolds.zero m encoded pos) (left := lmax p.table)
      (by have := lmax_le p.table; omega) with
    ⟨x, e, -, hmem, -, -, hcode, -⟩ | ⟨hnone, -⟩ | ⟨-, i, -, hi, hhole, -⟩
  · exact absurd hcode (hno _ hmem)
  · exact hnone
  · rw [Backed.bits hv (by omega)] at hhole
    cases hhole

/-- Settles O39: the reading ends after the message in a dead end, and DEC goes on from there as from any reading. -/
theorem decDeadEndAnswersOk : Obligations.DecDeadEndAnswersOk := by
  intro s encoded count out ms hwf hlen hp hst hno hov henc hout
  obtain ⟨left, hleft⟩ : ∃ left, count.toNat = ms.length + (left + 1) := ⟨count.toNat - ms.length - 1, by omega⟩
  have hread : decLoop s.params s.mem encoded count.toNat [] 0 =
      .ok ⟨ms, bitCount s.params.table ms + lmax s.params.table, true⟩ := by
    rw [hleft, decLoop_of_backed_stream hwf hp hst
      (fun b hb => henc b (by unfold bytesOfBits at hb ⊢; omega)) (left + 1)]
    simp only [decLoop, decSymbol_dead_end hwf hno henc]
  obtain ⟨t, hnext⟩ := exec_dec_of_reading hwf hread hov hout
  obtain ⟨m, d, rfl, hframe, -⟩ := exec_dec_next hnext
  exact ⟨m, d, hnext, hframe⟩

/-! ### Both -/

/-- Settles O42: the shared address makes ENC's check of its operands, and DEC's check of the bytes read, fail. -/
theorem overlappingCodecBuffersHaveNoMeaning : Obligations.OverlappingCodecBuffersHaveNoMeaning := by
  intro s a b c d hwf
  refine ⟨fun hshared => ?_, fun ms hlen hp hst henc hshared => ?_⟩
  · have hov : (Span.mk a b.toNat).overlaps ⟨c, d.toNat⟩ = true := overlaps_of_shared hshared
    simp [exec, execEnc, hwf, hov]
  · have hov : (Span.mk a (bytesOfBits (bitCount s.params.table ms))).overlaps ⟨c, b.toNat⟩ = true :=
      overlaps_of_shared hshared
    simp [exec, execDec, hwf, decLoop_of_whole_stream hwf hp hst henc hlen, hov]

/-- Settles O45: what the two commands may have done before they respond, in every state. -/
theorem codecCommandsFrame : Obligations.CodecCommandsFrame := by
  intro s t a b c d
  refine ⟨fun h => ?_, fun h => ?_⟩
  · obtain ⟨m, n, ht, hframe, -⟩ := exec_enc_next rfl h
    obtain ⟨heq, rfl⟩ := State.eq_respond_of_afterCodec ht
    exact ⟨_, heq, hframe⟩
  · obtain ⟨m, n, ht, hframe, -⟩ := exec_dec_next h
    obtain ⟨heq, rfl⟩ := State.eq_respond_of_afterCodec ht
    exact ⟨heq, hframe⟩

/-- Memory that holds the encoded stream of a message begins with its bits (R132). -/
theorem HoldsStream.streamHas {t : CodeTable} {ms : List Byte} {out : Word} {m0 m : Mem}
    (h : HoldsStream t ms out m0 m) : StreamHas m out 0 (messageBits t ms) := by
  intro i hi
  rw [messageBits_length] at hi
  rw [Nat.zero_add]
  exact h.bits i (by unfold bytesOfBits; omega)

/-- Settles O40: ENC leaves the message's codewords at the front of the stream, and DEC reads the message there. -/
theorem decodingUndoesEncoding : Obligations.DecodingUndoesEncoding := by
  intro s msg mlen encoded cap out hwf hp hword hcap hov hov' hmsg henc hout
  obtain ⟨m, hnext, hbits, hframe⟩ := encWritesTheEncodedStream s msg mlen encoded cap hwf hov hp
    (by unfold bytesOfBits at hcap; omega) hword hmsg henc
  generalize hms : memBytes s.mem msg mlen.toNat = ms at *
  have hlen : ms.length = mlen.toNat := by simp [← hms, memBytes]
  have hst := HoldsStream.streamHas ⟨hbits, hframe⟩
  generalize ht : (s.setMem m).respond .ok (BitVec.ofNat 32 (bitCount s.params.table ms)) = t at hnext
  have hparams : t.params = s.params := by simp [← ht]
  have hmem : t.mem = m := by simp [← ht]
  have hserving : t.serving = s.serving := by simp [← ht]
  have hencoded : (t.port s.serving).responses =
      (s.port s.serving).responses ++ [⟨.ok, BitVec.ofNat 32 (bitCount s.params.table ms)⟩] := by
    rw [← ht]; exact State.respond_responses _ _
  rw [← hmem] at hst
  rw [← hparams] at hwf hp hst henc hout hov' hencoded ⊢
  obtain ⟨m', hdec, hbytes, -⟩ := decReadsTheMessageInTheStream t encoded mlen out ms hwf hlen hp hst hov' henc hout
  refine ⟨t, _, hnext, hencoded, decLoop_of_whole_stream hwf hp hst henc hlen, hdec, ?_, by simpa using hbytes⟩
  rw [← hserving]
  exact State.respond_responses _ _

end Sys2Proof.Machine
end

section
/-! The two ports are equal (R178, R179), and a machine with nothing to do is idle (R182). -/

namespace Sys2Proof.Machine

/-! ### The idle machine -/

/-- When neither port has a move, nothing moves (R182). -/
theorem portsMove_idle {s : State} (hF : s.portF.move = none) (hI : s.portI.move = none) : portsMove s = .next s := by
  simp [portsMove, hF, hI]

/-- Settles O8: the step with `rst` released is a move at the ports, and there is none. -/
theorem idleMachineKeepsAllState : Obligations.IdleMachineKeepsAllState :=
  fun _ hrst hF hI => (step_of_rst_released hrst).trans (portsMove_idle hF hI)

/-! ### The same machine with a given port in service -/

/-- The same machine with port `p` in service. -/
def State.servedOn (s : State) (p : PortId) : State := { s with serving := p }

@[simp] theorem State.servedOn_params (s : State) (p : PortId) : (s.servedOn p).params = s.params := rfl
@[simp] theorem State.servedOn_mem (s : State) (p : PortId) : (s.servedOn p).mem = s.mem := rfl
@[simp] theorem State.servedOn_rb (s : State) (p : PortId) (ch : Channel) : (s.servedOn p).rb ch = s.rb ch := by
  cases ch <;> rfl

theorem State.setRb_servedOn (s : State) (p : PortId) (ch : Channel) (b : RingBuffer) :
    (s.servedOn p).setRb ch b = (s.setRb ch b).servedOn p := by cases ch <;> rfl

theorem State.setMem_servedOn (s : State) (p : PortId) (m : Mem) :
    (s.servedOn p).setMem m = (s.setMem m).servedOn p := rfl

theorem State.freeBytes_servedOn (s : State) (p : PortId) (base : Word) (size : Nat) :
    (s.servedOn p).freeBytes base size = (s.freeBytes base size).servedOn p := rfl

/-! ### Commands on either port -/

/-- Two states that one answer leaves, given by the same machine on port `F` and on port `I`. -/
def SameAnswer (t u : State) : Prop :=
  ∃ (st : Status) (v : Word) (c : State),
    t = (c.servedOn .foreground).respond st v ∧ u = (c.servedOn .interrupt).respond st v

theorem sameAnswer_respond (c : State) (st : Status) (v : Word) :
    SameAnswer ((c.servedOn .foreground).respond st v) ((c.servedOn .interrupt).respond st v) :=
  ⟨st, v, c, rfl, rfl⟩

/-- From machine `s` the meaning `f` stops for the same reason on both ports, or gives the same answer on each. -/
abbrev PortBlind (f : State → Host.Outcome State Fault Refusal) (s : State) : Prop :=
  OutcomesAlike SameAnswer (f (s.servedOn .foreground)) (f (s.servedOn .interrupt))

theorem execEnq_portBlind (ch : Channel) (src k : Word) (s : State) : PortBlind (execEnq ch src k) s := by
  simp only [PortBlind, execEnq, State.servedOn_params, State.servedOn_mem, State.servedOn_rb, State.setRb_servedOn]
  split
  · exact sameAnswer_respond s _ _
  cases enqLoop s.params s.mem src k.toNat 0 (s.rb ch) with
  | error e => rfl
  | ok x => exact sameAnswer_respond (s.setRb ch x.1) _ _

theorem execDeq_portBlind (ch : Channel) (dst k : Word) (s : State) : PortBlind (execDeq ch dst k) s := by
  simp only [PortBlind, execDeq, State.servedOn_params, State.servedOn_mem, State.servedOn_rb, State.setRb_servedOn,
    State.setMem_servedOn]
  split
  · exact sameAnswer_respond s _ _
  cases deqLoop s.params dst k.toNat 0 (s.rb ch) s.mem with
  | error e => rfl
  | ok x => exact sameAnswer_respond ((s.setRb ch x.1).setMem x.2.1) _ _

theorem execLen_portBlind (ch : Channel) (s : State) : PortBlind (execLen ch) s := by
  simp only [PortBlind, execLen, State.servedOn_rb]
  exact sameAnswer_respond s _ _

theorem execCap_portBlind (ch : Channel) (s : State) : PortBlind (execCap ch) s := sameAnswer_respond s _ _

theorem execEnc_portBlind (msg mlen out cap : Word) (s : State) : PortBlind (execEnc msg mlen out cap) s := by
  cases hwf : tableWf s.params.table with
  | false => simp [PortBlind, execEnc, hwf, OutcomesAlike]
  | true =>
    simp only [PortBlind, execEnc, State.servedOn_params, State.servedOn_mem, hwf, Bool.true_eq_false, if_false,
      State.setMem_servedOn, State.freeBytes_servedOn]
    split
    · rfl
    rcases encLoop s.params msg out cap.toNat mlen.toNat 0 (packingStart s.mem) with e | ⟨st, e⟩
    · rfl
    cases st with
    | ok =>
      dsimp only
      cases flush s.params out e with
      | error r => rfl
      | ok e' => exact sameAnswer_respond (s.setMem e'.mem) _ _
    | invalidArgument | overflow | unknownSymbol | illegalCommand =>
      exact sameAnswer_respond (s.freeBytes out cap.toNat) _ _

theorem execDec_portBlind (encoded count out : Word) (s : State) : PortBlind (execDec encoded count out) s := by
  cases hwf : tableWf s.params.table with
  | false => simp [PortBlind, execDec, hwf, OutcomesAlike]
  | true =>
    simp only [PortBlind, execDec, State.servedOn_params, State.servedOn_mem, hwf, Bool.true_eq_false, if_false,
      State.setMem_servedOn, State.freeBytes_servedOn]
    cases decLoop s.params s.mem encoded count.toNat [] 0 with
    | error e => rfl
    | ok run =>
      dsimp only
      split
      · rfl
      cases memWriteList s.params out 0 run.symbols s.mem with
      | error e => rfl
      | ok m =>
        dsimp only
        split
        · exact sameAnswer_respond (s.freeBytes out count.toNat) _ _
        · exact sameAnswer_respond (s.setMem m) _ _

/-- Settles O13: no command's meaning looks at the port in service before it responds. -/
theorem commandsDoTheSameOnBothPorts : Obligations.CommandsDoTheSameOnBothPorts := by
  intro i s
  cases i with
  | enq ch src k => exact execEnq_portBlind ch src k s
  | deq ch dst k => exact execDeq_portBlind ch dst k s
  | len ch => exact execLen_portBlind ch s
  | cap ch => exact execCap_portBlind ch s
  | enc msg mlen out cap => exact execEnc_portBlind msg mlen out cap s
  | dec encoded count out => exact execDec_portBlind encoded count out s

end Sys2Proof.Machine
end

section
/-! `rst` with requests outstanding abandons them (R200, R201). -/

namespace Sys2Proof.Machine

theorem step_of_rst_asserted {s : State} (h : s.rst = true) : step s = resetMove s := by simp [step, h]

/-- Conflicting requests are all that stops `rst` (R201, R210). -/
theorem resetMove_goesOn {s : State} (h : s.clash = false) : ∃ t, resetMove s = .next t := by
  by_cases hidle : s.outstanding .foreground = none ∧ s.outstanding .interrupt = none
  · exact ⟨s.afterRst, by simp [resetMove, h, hidle]⟩
  cases hcaught : s.caught with
  | none => exact ⟨s.drawn.afterRst, by simp [resetMove, h, hidle, hcaught]⟩
  | some i =>
    exact ⟨(s.drawn.freeBytes (destSpan i).base (destSpan i).size).afterRst, by
      simp [resetMove, h, hidle, hcaught]⟩

/-- Settles O18: `rst` goes on, and of `MEM` free values fill at most the destination of the command it caught. -/
theorem resetAbandonsOutstandingCommands : Obligations.ResetAbandonsOutstandingCommands := by
  intro s hrst hclash
  obtain ⟨t, ht⟩ := resetMove_goesOn hclash
  refine ⟨t, (step_of_rst_asserted hrst).trans ht, ?_⟩
  obtain ⟨-, ⟨-, -, rfl⟩ | rfl | ⟨p, i, hi, rfl⟩⟩ := resetMove_next ht
  · exact ⟨rfl, rfl, rfl, rfl, rfl, rfl, fun _ _ => rfl⟩
  · exact ⟨rfl, rfl, rfl, rfl, rfl, rfl, fun _ _ => rfl⟩
  · exact ⟨rfl, rfl, rfl, rfl, rfl, rfl, fun a houtside =>
      read_freeFill_outside _ _ _ s.mem (houtside p i hi)⟩

end Sys2Proof.Machine
end
